-- ==== Sys2Proof/Word.lean ====
section
/-! DEFINITION. The word types of the block (rule R6: every value is an unsigned number of a stated width). -/

namespace Sys2Proof

/-- A byte: one host register, one byte on the wire (rule R6). -/
abbrev Byte := BitVec 8

end Sys2Proof
end

