-- ==== Sys2Proof/Machine/Constants.lean ====
section
/-! DEFINITION. The fixed protocol constants of rule R5. Times label events and nothing else (rule R176). -/

namespace Sys2Proof.Machine

/-- `T_RST_RETRY_N`, the retries of the float-high wait. -/
def rstRetryN : Nat := 125
/-- `T_RST_RETRY_US`. -/
def rstRetryUs : Nat := 2
/-- `T_RST_LOW`. -/
def rstLowUs : Nat := 550
/-- `T_RST_REC`. -/
def rstRecUs : Nat := 410
/-- `T_W1_LOW` and `T_W0_LOW`: how long a write slot drives low. -/
def writeLowUs (b : Bool) : Nat := if b then 10 else 65
/-- `T_W1_REL` and `T_W0_REL`: how long a write slot then stays released. -/
def writeRelUs (b : Bool) : Nat := if b then 55 else 5
/-- `T_RD_LOW`. -/
def readLowUs : Nat := 13
/-- `T_RD_SAMPLE - T_RD_LOW`: the sample falls 53 µs after the slot's start (rule R84). -/
def readWaitUs : Nat := 40
/-- `T_PROG_MS`. -/
def progMs : Nat := 15
/-- `ES_FULL_ROW`. -/
def esFullRow : Byte := 0x07#8
/-- `COMMIT_OK`. -/
def commitOk : Byte := 0xAA#8

end Sys2Proof.Machine
end

