-- ==== Sys2Proof/Machine/Registers.lean ====
section
/-! DEFINITION. The types of the block's registers: failures, interface events, the sequencer, the transient registers,
and the inputs from outside. Plain data only. -/

namespace Sys2Proof.Machine

/-- The failures of rule R140. `0x0`, None, is success and no failure. -/
inductive Failure where
  | busTimeout
  | noPresence
  | busCollision
  | romCrcInvalid
  | familyMismatch
  | scratchpadStatusInvalid
  | payloadCrcInvalid
  | commitFailed
  | illegalCommand
deriving DecidableEq, Repr

/-- The interface events of rule R80. Delays are carried as data (rule R176). -/
inductive Event where
  /-- `setLine(0)`: the block pulls the line low. -/
  | drive0
  /-- `setLine(1)`: the block lets the line go. -/
  | release
  /-- `getLine()` returned `v`. -/
  | sample (v : Bool)
  | delayUs (n : Nat)
  | delayMs (n : Nat)
deriving DecidableEq, Repr

/-- The states of the bit engine (rule R24), one constructor for the next event of each:
`RST_WAIT_HIGH` (`waitSample`, `waitDelay`), `RST_LOW` (`rstDrive`, `rstLowDelay`), `RST_PDS` (`rstRelease`,
`rstPdsDelay`, `rstPresence`), `RST_REC` (`rstRecover`), `WB_LOW` (`wbDrive`, `wbLowDelay`), `WB_REL` (`wbRelease`,
`wbRelDelay`), `RB_LOW` (`rbDrive`, `rbLowDelay`), `RB_WAIT` (`rbRelease`, `rbWaitDelay`, `rbSample`).
A write slot carries the bit being written. -/
inductive BitSeq where
  | waitSample
  | waitDelay
  | rstDrive
  | rstLowDelay
  | rstRelease
  | rstPdsDelay
  | rstPresence
  | rstRecover
  | wbDrive (b : Bool)
  | wbLowDelay (b : Bool)
  | wbRelease (b : Bool)
  | wbRelDelay (b : Bool)
  | rbDrive
  | rbLowDelay
  | rbRelease
  | rbWaitDelay
  | rbSample
deriving DecidableEq, Repr

/-- The states of the byte codec (rule R24): `BYTE_TX(i)` and `BYTE_RX(i)`, where `i` is the register `BITCNT`. -/
inductive ByteSeq where
  | tx
  | rx
deriving DecidableEq, Repr

/-- The states of the selector (rule R24): `S_RESET`, `S_CMD`, and `S_ROM(i)`, where `i` is the register `IDX`. -/
inductive SelSeq where
  | sReset
  | sCmd
  | sRom
deriving DecidableEq, Repr

/-- The states of the running command (rule R24). The spec names no state of its own for the six commands that are one
internal operation (they run in the states of the bit engine, the byte codec or the selector); the first six
constructors after `idle` say which of them is running. `W1_TX(i)` and `W3_TX(i)` take `i` from `IDX`. -/
inductive CmdSeq where
  | idle
  | owReset
  | owWriteBit
  | owReadBit
  | owWriteByte
  | owReadByte
  | select
  | dZero
  | dReset
  | dCmd
  | dRdId
  | dRdCmp
  | dDecide
  | dEcho
  | dCheckCrc
  | dCheckFam
  | rdSelect
  | rdCmd
  | rdTaLo
  | rdTaHi
  | rdData
  | w1Build
  | w1Select
  | w1Tx
  | w1RxCrc
  | w1Cmp
  | w2Select
  | w2Cmd
  | w2Rx3
  | w2CheckEs
  | w2Rx10
  | w2CheckCrc
  | w3Select
  | w3Tx
  | w3Wait
  | w3Rx
  | w3Check
deriving DecidableEq, Repr

/-- `SEQ` (rule R24): "a call stack of fixed depth at most four (command, `select()`, byte, bit)". A level above the
innermost keeps its own state while the lower one runs; `none` is a level that is not running. -/
structure Seq where
  cmd  : CmdSeq
  sel  : Option SelSeq
  byte : Option ByteSeq
  bit  : Option BitSeq
deriving DecidableEq, Repr

/-- The transient registers of rule R10 (b), with the widths of rules R21 to R27, and the argument field of the running
command (rule R57: operands cannot change under a running command). -/
structure Transient where
  acc         : Vector Byte 8
  buf         : Vector Byte 12
  crcRx       : Vector Byte 2
  needsVerify : Bool
  b           : BitVec 6
  idBit       : Bool
  cmpBit      : Bool
  bitCnt      : BitVec 3
  shift       : Byte
  retry       : BitVec 7
  pres        : Bool
  idx         : BitVec 4
  crc8R       : Byte
  crc16R      : BitVec 16
  arg         : BitVec 4
deriving DecidableEq, Repr, Inhabited

/-- The block's side of the line (rules R20, R80) and what the environment has been scripted to answer (rule R4). -/
structure Line where
  /-- `LINE_DRV`: the block drives the line low. -/
  drv     : Bool
  /-- The event trace, newest event first. -/
  trace   : List Event
  /-- The environment's next `Sample` answers, next one first; past its end the answers are free values. -/
  answers : List Bool
deriving DecidableEq, Repr

/-- What comes to the block from outside, one entry a step: host actions (rules R32, R33, R75), hardware reset
(rules R170, R171), and `tick`, a moment in which the block makes its next move and the host none. -/
inductive Input where
  /-- A command line of rule R75: write `c` to `CMD` and wait until `BUSY == 0`. -/
  | command (c : Byte)
  /-- `WR reg, v`: one host register write. -/
  | write (reg v : Byte)
  /-- `RD reg`: one host register read. -/
  | read (reg : Byte)
  /-- The host waits until `BUSY == 0`. -/
  | wait
  /-- The block makes one move. -/
  | tick
  /-- A hardware reset. -/
  | hardwareReset
deriving DecidableEq, Repr

end Sys2Proof.Machine
end

