-- ==== Sys2Proof/Machine/Operands.lean ====
section
/-! DEFINITION. Operand assembly: bit order, byte arrays, the target address pair (rules R21, R43, R67). -/

namespace Sys2Proof.Machine

/-- `zext_8` of one bit (rule R6). -/
def zext8 (v : Bool) : Byte := if v then 1#8 else 0#8

/-- The bits of a byte in wire order, bit 0 first (rule R43). -/
def bitsLsbFirst (v : Byte) : List Bool := (List.range 8).map v.getLsbD

/-- Byte `i` of a register array. Every use stays inside the array; outside it the answer is 0. -/
def byteAt {n : Nat} (v : Vector Byte n) (i : Nat) : Byte := v[i]?.getD 0

/-- A register array with byte `i` replaced. Every use stays inside the array; outside it nothing changes. -/
def setByte {n : Nat} (v : Vector Byte n) (i : Nat) (x : Byte) : Vector Byte n := v.setIfInBounds i x

/-- OR a received bit into position `i` of a byte (rules R91, R103). -/
def orBit (x : Byte) (i : Nat) (v : Bool) : Byte := x ||| (zext8 v <<< i)

/-- OR a bit into bit `b` of an identifier: bit `b & 7` of byte `b >> 3` (rules R21, R66, R108). -/
def orIdBit (acc : Vector Byte 8) (b : Nat) (v : Bool) : Vector Byte 8 :=
  setByte acc (b / 8) (orBit (byteAt acc (b / 8)) (b % 8) v)

/-- `TA = zext_16(row) << 3` (rules R42, R67). -/
def targetAddress (row : Nat) : BitVec 16 := BitVec.ofNat 16 row <<< 3

/-- `TA[7:0]` (rule R67). -/
def taLo (row : Nat) : Byte := (targetAddress row).extractLsb' 0 8

/-- `TA[15:8]` (rule R67). -/
def taHi (row : Nat) : Byte := (targetAddress row).extractLsb' 8 8

/-- The bit operand of `OW_WRITE_BIT`: `arg[0]` (rules R60, R86). -/
def argBit (arg : BitVec 4) : Bool := arg.getLsbD 0

end Sys2Proof.Machine
end

