-- ==== Sys2Proof/Config.lean ====
section
/-! DEFINITION. What one build of the block fixes, and the free values. The opaque constants have no value a proof can
see. -/

namespace Sys2Proof

/-- `EXPECTED_FAMILY` (rule R5, decision D13). -/
def Config.expectedFamily : Byte := 0x2D#8

/-- `T_PDS`, the microseconds from release to the presence sample: OPEN (rule R5, decision D10).
A whole number of them is the model's choice (log 26, DESIGN CHOICE). -/
opaque Config.tPds : Nat

/-- `CMD_COPY`, the first byte of the Phase 3 frame: OPEN (rule R5, decision D19). -/
opaque Config.cmdCopy : Byte

/-- `JITTER_US`, the allowed deviation of a delay in µs: OPEN (rule R5, decision D31). A whole number of them is the model's
choice (log 26, DESIGN CHOICE). -/
opaque Config.jitterUs : Nat

/-- `F_CLK`, the clock of the block: OPEN; "appears in no rule" (rule R5, decision D24). -/
opaque Config.fClk : Nat

/-- The environment's answer to a `Sample` that `Line.answers` does not script, given everything the environment has
observed so far (rules R3, R4): a free value. -/
opaque Config.freeSample : List Machine.Event → Bool

/-- The transient registers after the `n`-th command end or hardware reset, unspecified (rules R29, R31): a free
value. -/
opaque Config.freeTransient : Nat → Machine.Transient

end Sys2Proof
end

