-- ==== Sys2Proof/Machine/State.lean ====
section
/-! DEFINITION. The state of the block, the reasons a step can stop, and the state after reset (10_state.md). -/

namespace Sys2Proof.Machine

/-- Why the machine stops. It never does: every command ends, and "the block therefore has no stuck state of its own"
(rule R165). The failures of rule R140 are register values, not faults. Nothing raises a fault. -/
inductive Fault where
deriving DecidableEq, Repr

/-- Why an instruction has no meaning. -/
inductive Refusal where
  /-- An arm of `exec` whose instruction has no meaning yet; no arm is one. Safe: no run goes through it. -/
  | notModelled (mnemonic : String)
  /-- `READ_ROW` or `WRITE_ROW` with a row above 15, which no command word encodes: "must refuse a row above 15 rather
  than give it a meaning" (rule R55). Raised by `execReadRow` and `execWriteRow`. Safe: no run goes through it. -/
  | rowOutOfRange (row : Nat)
deriving DecidableEq, Repr

/-- The machine: the block's registers, its line, and what comes from outside. -/
structure State where
  /-- `ROM_ID[0..7]`, rule R11. -/
  romId   : Vector Byte 8
  /-- `PAYLOAD[0..7]`, rule R12. -/
  payload : Vector Byte 8
  /-- `DATA_IN`, rule R13. -/
  dataIn  : Byte
  /-- `DATA_OUT`, rule R14. -/
  dataOut : Byte
  /-- `OK`, rule R17. -/
  ok      : Bool
  /-- `ERR`, rule R18. -/
  err     : BitVec 4
  /-- `BUSY`, rule R19. -/
  busy    : Bool
  /-- `SEQ`, rule R24. -/
  seq     : Seq
  /-- The transient registers, rule R10 (b). -/
  tr      : Transient
  /-- `LINE_DRV`, the event trace, the environment's answers: rules R20, R80, R4. -/
  line    : Line
  /-- The model's own: how many free transient values have been taken (log 6). -/
  draws   : Nat
  /-- The model's own: what comes from outside, next entry first (log 2). -/
  inputs  : List Input
  /-- The model's own: the bytes the host has read, oldest first (log 2). -/
  readLog : List Byte
deriving DecidableEq, Repr

/-- `SEQ == IDLE`: no level is running. -/
def Seq.idle : Seq := { cmd := .idle, sel := none, byte := none, bit := none }

/-- The transient registers at `State.reset`: zero, where rule R31 leaves them unspecified (log 5, DESIGN CHOICE,
unsafe). -/
def Transient.zero : Transient :=
  { acc := Vector.replicate 8 0, buf := Vector.replicate 12 0, crcRx := Vector.replicate 2 0, needsVerify := false
    b := 0, idBit := false, cmpBit := false, bitCnt := 0, shift := 0, retry := 0, pres := false, idx := 0
    crc8R := 0, crc16R := 0, arg := 0 }

/-- The machine right after hardware reset (rules R31, R170), nothing having happened and nothing placed. -/
def State.reset : State :=
  { romId := Vector.replicate 8 0, payload := Vector.replicate 8 0, dataIn := 0, dataOut := 0, ok := false, err := 0
    busy := false, seq := Seq.idle, tr := Transient.zero, line := { drv := false, trace := [], answers := [] }
    draws := 0, inputs := [], readLog := [] }

/-- The event trace in the order of occurrence (rule R80). -/
def State.events (s : State) : List Event := s.line.trace.reverse

end Sys2Proof.Machine
end

