-- ==== Sys2Proof/Machine/Flags.lean ====
section
/-! DEFINITION. The failure codes and the status register (rules R16 to R19, R140). -/

namespace Sys2Proof.Machine

/-- The numbers of rule R140. -/
def Failure.code : Failure → BitVec 4
  | .busTimeout => 0x1
  | .noPresence => 0x2
  | .busCollision => 0x3
  | .romCrcInvalid => 0x4
  | .familyMismatch => 0x5
  | .scratchpadStatusInvalid => 0x6
  | .payloadCrcInvalid => 0x7
  | .commitFailed => 0x8
  | .illegalCommand => 0xF

/-- `STATUS` (rule R16): `ERR` in bits 7:4, bits 3:2 read as 0, `OK` in bit 1, `BUSY` in bit 0. -/
def status (s : State) : Byte :=
  s.err ++ 0b00#2 ++ BitVec.ofBool s.ok ++ BitVec.ofBool s.busy

end Sys2Proof.Machine
end

