-- ==== Sys2Proof/Machine/Ops.lean ====
section
/-! DEFINITION. The shared operations: interface events (rule R80), and the two ways a command ends: success, and
failure, which is the block's exception entry (rules R144, R145). -/

namespace Sys2Proof.Machine

/-- `LINE_DRV` after an event (rules R20, R80). -/
def Event.driveAfter : Event → Bool → Bool
  | .drive0, _ => true
  | .release, _ => false
  | .sample _, d => d
  | .delayUs _, d => d
  | .delayMs _, d => d

/-- `emit e` (rule R8): append to the trace and apply the effect on `LINE_DRV`. -/
def emit (e : Event) (l : Line) : Line :=
  { l with drv := e.driveAfter l.drv, trace := e :: l.trace }

/-- Emit a list of events in order. -/
def emits : List Event → Line → Line
  | [], l => l
  | e :: es, l => emits es (emit e l)

/-- The value of a `Sample`: 0 while the block itself drives the line low (rule R89, log 15), else the environment's
answer, the scripted one if there is one and a free value otherwise (rule R4, log 1). -/
def sampleValue (l : Line) : Bool :=
  if l.drv then false
  else
    match l.answers with
    | v :: _ => v
    | [] => Config.freeSample l.trace

/-- `v <- sample()` (rule R8). Each sample takes one scripted answer, if there is one. -/
def sample (l : Line) : Bool × Line :=
  (sampleValue l, emit (.sample (sampleValue l)) { l with answers := l.answers.tail })

/-- The transient registers become unspecified (rules R29, R145, log 6). -/
def forgetTransients (s : State) : State :=
  { s with tr := Config.freeTransient s.draws, draws := s.draws + 1 }

/-- The ending step of a command that succeeds: `OK <- 1; ERR <- 0x0`, `BUSY <- 0`, `SEQ` back to `IDLE`
(rules R17, R19, R24, R32). -/
def endOk (s : State) : State :=
  { s with ok := true, err := 0x0, busy := false, seq := Seq.idle }

/-- `raise F` (rule R144): `OK <- 0`, `ERR` the code of `F`, `BUSY <- 0`, `SEQ <- IDLE`; "nothing is saved anywhere, nothing
is pushed, no mode changes", no event. There is no return from it (rule R147). -/
def raise (f : Failure) (s : State) : State :=
  { s with ok := false, err := f.code, busy := false, seq := Seq.idle }

/-- The end of a running command, with the cause of its failure if it failed. -/
def settle (cause : Option Failure) (s : State) : State :=
  match cause with
  | none => endOk (forgetTransients s)
  | some f => raise f (forgetTransients s)

/-- What a hardware reset leaves (rules R170, R171): the registers at their reset values, the transient registers
unspecified, the line released, no event; what has happened and what is outside the block stays. -/
def hardwareReset (s : State) : State :=
  { State.reset with
    tr := Config.freeTransient s.draws, draws := s.draws + 1
    line := { s.line with drv := false }, inputs := s.inputs, readLog := s.readLog }

end Sys2Proof.Machine
end

