-- ==== Sys2Proof/Machine/BitEngine.lean ====
section
/-! DEFINITION. The bit timing engine (40_bit_timing_engine.md): `reset()`, `writeBit`, `readBit`, and the commands
`OW_RESET`, `OW_WRITE_BIT`, `OW_READ_BIT`. -/

namespace Sys2Proof.Machine

/-- The float-high wait of `reset()` (rule R82): sample, and while the sample was 0 and retries are left, wait 2 µs and
sample again. Answers the last sample. -/
def waitHigh : Nat → Line → Bool × Line
  | 0, l => sample l
  | n + 1, l =>
    let r := sample l
    if r.1 then r else waitHigh n (emit (.delayUs rstRetryUs) r.2)

/-- The pulse, the presence sample and the recovery of `reset()` (rule R82). Answers the presence sample `PRES`. -/
def presencePulse (l : Line) : Bool × Line :=
  let r := sample (emits [.drive0, .delayUs rstLowUs, .release, .delayUs Config.tPds] l)
  (r.1, emit (.delayUs rstRecUs) r.2)

/-- `reset()` (rule R82). The pair (ok, cause) is the optional failure: `none` is (true, None). -/
def reset (l : Line) : Option Failure × Line :=
  let w := waitHigh rstRetryN l
  if w.1 then
    let p := presencePulse w.2
    (if p.1 then some .noPresence else none, p.2)
  else (some .busTimeout, w.2)

/-- The events of a write slot (rules R65, R83). -/
def writeSlot (b : Bool) : List Event :=
  [.drive0, .delayUs (writeLowUs b), .release, .delayUs (writeRelUs b)]

/-- `writeBit(b)` (rule R83). -/
def writeBit (b : Bool) (l : Line) : Line := emits (writeSlot b) l

/-- `readBit()` (rule R84). -/
def readBit (l : Line) : Bool × Line :=
  sample (emits [.drive0, .delayUs readLowUs, .release, .delayUs readWaitUs] l)

/-- `OW_RESET` (rule R85). -/
def execOwReset (s : State) : Host.Outcome State Fault Refusal :=
  .next (settle (reset s.line).1 { s with line := (reset s.line).2 })

/-- `OW_WRITE_BIT b` (rule R86). -/
def execOwWriteBit (bit : Bool) (s : State) : Host.Outcome State Fault Refusal :=
  .next (settle none { s with line := writeBit bit s.line })

/-- `OW_READ_BIT` (rule R87). -/
def execOwReadBit (s : State) : Host.Outcome State Fault Refusal :=
  .next (settle none { s with dataOut := zext8 (readBit s.line).1, line := (readBit s.line).2 })

end Sys2Proof.Machine
end

