-- ==== Sys2Proof/Syntax.lean ====
section
/-! DEFINITION. The instructions: one constructor for each of the 18 rows of `spec/opcode_table.json`. -/

namespace Sys2Proof

/-- The rows of the opcode table.

The first nine are the host commands of rule R61, the next three the words that name no command (rule R62), the last six
the bus command bytes of rule R64. Ignored argument bits (rule R63) are not part of an instruction.
A row number is carried in a type wider than the 4-bit field; `Instr.wellFormed` and the meanings refuse a row above 15
(rule R55). -/
inductive Instr where
  /-- `OW_RESET`, rule R85. -/
  | owReset
  /-- `OW_WRITE_BIT b`, rule R86; `bit` is `arg[0]`. -/
  | owWriteBit (bit : Bool)
  /-- `OW_READ_BIT`, rule R87. -/
  | owReadBit
  /-- `OW_WRITE_BYTE`, rule R92; the byte is in `DATA_IN`. -/
  | owWriteByte
  /-- `OW_READ_BYTE`, rule R93. -/
  | owReadByte
  /-- `DISCOVER`, rules R105 to R114. -/
  | discover
  /-- `SELECT`, rule R116. -/
  | select
  /-- `READ_ROW r`, rule R121. -/
  | readRow (row : Nat)
  /-- `WRITE_ROW r`, rules R122 to R134; the data are in `PAYLOAD`. -/
  | writeRow (row : Nat)
  /-- `ILLEGAL_0`: the words `0x00` to `0x0F`, rule R62. -/
  | illegal0 (word : Byte)
  /-- `ILLEGAL_AB`: the words `0xA0` to `0xBF`, rule R62. -/
  | illegalAB (word : Byte)
  /-- `ILLEGAL_CF`: the words `0xC0` to `0xFF`, rule R62. -/
  | illegalCF (word : Byte)
  /-- `SEARCH_ROM`, bus byte `0xF0` right after a reset pulse, rules R64, R106. -/
  | searchRom
  /-- `MATCH_ROM`, bus byte `0x55` right after a reset pulse, rules R64, R115. -/
  | matchRom
  /-- `READ_MEMORY`, bus byte `0xF0` after `select()`, rules R64, R121. -/
  | readMemory
  /-- `WRITE_SCRATCHPAD`, bus byte `0x0F` after `select()`, rules R64, R123. -/
  | writeScratchpad
  /-- `READ_SCRATCHPAD`, bus byte `0xAA` after `select()`, rules R64, R125. -/
  | readScratchpad
  /-- `COPY`, bus byte `CMD_COPY` after `select()`, rules R64, R128. -/
  | copy
deriving DecidableEq, Repr

/-- The six places of a frame at which the block sends a bus command byte, named by the sequencer state that sends it
(rule R24). "Which is meant follows from position" (decision D30): two bus commands can share a byte. -/
inductive BusPosition where
  /-- `D_CMD`: `DISCOVER`, right after its reset pulse. -/
  | dCmd
  /-- `S_CMD`: `select()`, right after its reset pulse. -/
  | sCmd
  /-- `RD_CMD`: `READ_ROW`, after its select frame. -/
  | rdCmd
  /-- `W1_TX(0)`: `WRITE_ROW` Phase 1, after its select frame. -/
  | w1Tx0
  /-- `W2_CMD`: `WRITE_ROW` Phase 2, after its select frame. -/
  | w2Cmd
  /-- `W3_TX(0)`: `WRITE_ROW` Phase 3, after its select frame. -/
  | w3Tx0
deriving DecidableEq, Repr

/-- Where an instruction's byte is met: written by the host to `CMD` (format `HOST`, rule R60), or sent by the block at
a position of a frame (format `BUS`, rule R64). -/
inductive Layer where
  | host
  | bus (p : BusPosition)
deriving DecidableEq, Repr

/-- The layer of each row of the opcode table. -/
def Instr.layer : Instr → Layer
  | .owReset => .host
  | .owWriteBit _ => .host
  | .owReadBit => .host
  | .owWriteByte => .host
  | .owReadByte => .host
  | .discover => .host
  | .select => .host
  | .readRow _ => .host
  | .writeRow _ => .host
  | .illegal0 _ => .host
  | .illegalAB _ => .host
  | .illegalCF _ => .host
  | .searchRom => .bus .dCmd
  | .matchRom => .bus .sCmd
  | .readMemory => .bus .rdCmd
  | .writeScratchpad => .bus .w1Tx0
  | .readScratchpad => .bus .w2Cmd
  | .copy => .bus .w3Tx0

end Sys2Proof
end

