-- ==== Sys2Proof/WellFormed.lean ====
section
/-! DEFINITION. Which terms of `Instr` some word encodes. -/

namespace Sys2Proof

/-- The number of rows the 4-bit argument can name (rules R5, R42, R55): 0 to 15. -/
def rowCount : Nat := 16

/-- A term is well formed when its operands fit its encoding: a row is at most 15 (rule R55), and an illegal word lies
in its own row of the table (`match` and `mask` of `spec/opcode_table.json`, rule R62). -/
def Instr.wellFormed : Instr → Bool
  | .owReset => true
  | .owWriteBit _ => true
  | .owReadBit => true
  | .owWriteByte => true
  | .owReadByte => true
  | .discover => true
  | .select => true
  | .readRow row => decide (row < rowCount)
  | .writeRow row => decide (row < rowCount)
  | .illegal0 word => word &&& 0xF0#8 == 0x00#8
  | .illegalAB word => word &&& 0xE0#8 == 0xA0#8
  | .illegalCF word => word &&& 0xC0#8 == 0xC0#8
  | .searchRom => true
  | .matchRom => true
  | .readMemory => true
  | .writeScratchpad => true
  | .readScratchpad => true
  | .copy => true

end Sys2Proof
end

