-- ==== Sys2Proof/Decode.lean ====
section
/-! DEFINITION. The decoder of the command word and of the bus command bytes, and the encoder (30_encoding.md). -/

namespace Sys2Proof

/-- Why a byte is not decoded. Every byte on the host layer decodes: the 112 unassigned words have rows of their own. -/
inductive DecodeError where
  /-- No byte was written. -/
  | noWord
  /-- The block sends another byte at this position (rule R64). -/
  | notTheBusCommand (p : BusPosition) (b : Byte)
deriving DecidableEq, Repr

/-- The operation field of a command word, bits 7:4 (rule R60). -/
def opField (w : Byte) : BitVec 4 := w.extractLsb' 4 4

/-- The argument field of a command word, bits 3:0 (rule R60). -/
def argField (w : Byte) : BitVec 4 := w.extractLsb' 0 4

/-- The host opcode map (rules R61, R62): total, since every unassigned word is one of the three illegal rows. Ignored
argument bits are dropped (rule R63). -/
def decodeWord (w : Byte) : Instr :=
  match (opField w).toNat with
  | 0x0 => .illegal0 w
  | 0x1 => .owReset
  | 0x2 => .owWriteBit ((argField w).getLsbD 0)
  | 0x3 => .owReadBit
  | 0x4 => .owWriteByte
  | 0x5 => .owReadByte
  | 0x6 => .discover
  | 0x7 => .select
  | 0x8 => .readRow (argField w).toNat
  | 0x9 => .writeRow (argField w).toNat
  | 0xA => .illegalAB w
  | 0xB => .illegalAB w
  | _ => .illegalCF w

/-- The command byte at the front of a byte list, and the rest: the command word has one length, one byte
(rules R60, R77). -/
def decode : List Byte → Except DecodeError (Instr × List Byte)
  | [] => .error .noWord
  | w :: rest => .ok (decodeWord w, rest)

/-- The bus command bytes (rules R5, R64). -/
def searchRomByte : Byte := 0xF0#8
def matchRomByte : Byte := 0x55#8
def readMemoryByte : Byte := 0xF0#8
def writeScratchpadByte : Byte := 0x0F#8
def readScratchpadByte : Byte := 0xAA#8

/-- The bus command the block sends at a position of a frame (rule R64). -/
def busInstr : BusPosition → Instr
  | .dCmd => .searchRom
  | .sCmd => .matchRom
  | .rdCmd => .readMemory
  | .w1Tx0 => .writeScratchpad
  | .w2Cmd => .readScratchpad
  | .w3Tx0 => .copy

/-- The byte of the bus command the block sends at a position of a frame (rule R64). -/
def busByte : BusPosition → Byte
  | .dCmd => searchRomByte
  | .sCmd => matchRomByte
  | .rdCmd => readMemoryByte
  | .w1Tx0 => writeScratchpadByte
  | .w2Cmd => readScratchpadByte
  | .w3Tx0 => Config.cmdCopy

/-- What a byte sent at a position of a frame stands for. The block itself never decodes a bus byte (30_encoding.md
section 2); this is the reading of decision D30, for an observer of the line. -/
def decodeBus (p : BusPosition) (b : Byte) : Except DecodeError Instr :=
  if b = busByte p then .ok (busInstr p) else .error (.notTheBusCommand p b)

/-- Decoding on a layer. -/
def decodeAt : Layer → Byte → Except DecodeError Instr
  | .host, b => .ok (decodeWord b)
  | .bus p, b => decodeBus p b

/-- A command word from its fields (rule R60). -/
def hostWord (op arg : BitVec 4) : Byte := op ++ arg

/-- The byte of a well-formed instruction from its fields (rules R61, R64, R75). Ignored argument bits are 0 (rule R63).
An ill-formed instruction has no byte: `encode` is the encoder. -/
def byteOf : Instr → Byte
  | .owReset => hostWord 0x1 0x0
  | .owWriteBit bit => hostWord 0x2 (if bit then 0x1 else 0x0)
  | .owReadBit => hostWord 0x3 0x0
  | .owWriteByte => hostWord 0x4 0x0
  | .owReadByte => hostWord 0x5 0x0
  | .discover => hostWord 0x6 0x0
  | .select => hostWord 0x7 0x0
  | .readRow row => hostWord 0x8 (BitVec.ofNat 4 row)
  | .writeRow row => hostWord 0x9 (BitVec.ofNat 4 row)
  | .illegal0 word => word
  | .illegalAB word => word
  | .illegalCF word => word
  | .searchRom => searchRomByte
  | .matchRom => matchRomByte
  | .readMemory => readMemoryByte
  | .writeScratchpad => writeScratchpadByte
  | .readScratchpad => readScratchpadByte
  | .copy => Config.cmdCopy

/-- The encoder: the byte of a well-formed instruction. A term no word encodes is refused, a row above 15 among them
(rule R55). -/
def encode (i : Instr) : Option Byte := if i.wellFormed then some (byteOf i) else none

/-- One row of the opcode table: a word `w` selects the row when `w & mask = value` (rule R61). -/
structure TableRow where
  mnemonic : String
  value    : Byte
  mask     : Byte
deriving DecidableEq, Repr

def TableRow.selects (r : TableRow) (w : Byte) : Bool := w &&& r.mask == r.value

/-- The rows of format `HOST` of `spec/opcode_table.json`, with their `match` and `mask`. -/
def hostTable : List TableRow :=
  [⟨"OW_RESET", 0x10, 0xF0⟩, ⟨"OW_WRITE_BIT", 0x20, 0xF0⟩, ⟨"OW_READ_BIT", 0x30, 0xF0⟩, ⟨"OW_WRITE_BYTE", 0x40, 0xF0⟩,
   ⟨"OW_READ_BYTE", 0x50, 0xF0⟩, ⟨"DISCOVER", 0x60, 0xF0⟩, ⟨"SELECT", 0x70, 0xF0⟩, ⟨"READ_ROW", 0x80, 0xF0⟩,
   ⟨"WRITE_ROW", 0x90, 0xF0⟩, ⟨"ILLEGAL_0", 0x00, 0xF0⟩, ⟨"ILLEGAL_AB", 0xA0, 0xE0⟩, ⟨"ILLEGAL_CF", 0xC0, 0xC0⟩]

/-- The mnemonic of an instruction, as `spec/opcode_table.json` spells it. -/
def Instr.mnemonic : Instr → String
  | .owReset => "OW_RESET"
  | .owWriteBit _ => "OW_WRITE_BIT"
  | .owReadBit => "OW_READ_BIT"
  | .owWriteByte => "OW_WRITE_BYTE"
  | .owReadByte => "OW_READ_BYTE"
  | .discover => "DISCOVER"
  | .select => "SELECT"
  | .readRow _ => "READ_ROW"
  | .writeRow _ => "WRITE_ROW"
  | .illegal0 _ => "ILLEGAL_0"
  | .illegalAB _ => "ILLEGAL_AB"
  | .illegalCF _ => "ILLEGAL_CF"
  | .searchRom => "SEARCH_ROM"
  | .matchRom => "MATCH_ROM"
  | .readMemory => "READ_MEMORY"
  | .writeScratchpad => "WRITE_SCRATCHPAD"
  | .readScratchpad => "READ_SCRATCHPAD"
  | .copy => "COPY"

/-- The instruction the decoder of `CMD` reads from the bits of a table word (log 22): the word is one byte, so a row
of another length has none. The bytes of the bus rows are command words too, and decode as the host writing them
would have it (log 11). -/
def decodeTableWord (nbits w : Nat) : Option Instr :=
  if nbits = 8 ∧ w < 256 then
    match decode [BitVec.ofNat 8 w] with
    | .ok (i, _) => some i
    | .error _ => none
  else none

end Sys2Proof
end

