-- ==== Sys2Proof/Machine/ByteCodec.lean ====
section
/-! DEFINITION. The byte codec (41_byte_codec.md): `writeByte`, `readByte`, runs of bytes to and from a register array,
and the commands `OW_WRITE_BYTE`, `OW_READ_BYTE`. -/

namespace Sys2Proof.Machine

/-- Write slots for a list of bits, in order. -/
def writeBits : List Bool → Line → Line
  | [], l => l
  | b :: bs, l => writeBits bs (writeBit b l)

/-- `writeByte(v)` (rule R90): bit 0 first. -/
def writeByte (v : Byte) (l : Line) : Line := writeBits (bitsLsbFirst v) l

/-- `n` read slots, the first ORed into bit `i` of `x` (rule R91). -/
def readBits : (n i : Nat) → Byte → Line → Byte × Line
  | 0, _, x, l => (x, l)
  | n + 1, i, x, l =>
    let r := readBit l
    readBits n (i + 1) (orBit x i r.1) r.2

/-- `readByte()` (rule R91): the first bit received is bit 0. -/
def readByte (l : Line) : Byte × Line := readBits 8 0 0x00#8 l

/-- `for IDX in i .. i + n - 1: writeByte(v[IDX])`. -/
def writeSpan {k : Nat} (v : Vector Byte k) : (n i : Nat) → Line → Line
  | 0, _, l => l
  | n + 1, i, l => writeSpan v n (i + 1) (writeByte (byteAt v i) l)

/-- `for IDX in i .. i + n - 1: v[IDX] <- readByte()`. -/
def readSpan {k : Nat} : (n i : Nat) → Vector Byte k → Line → Vector Byte k × Line
  | 0, _, v, l => (v, l)
  | n + 1, i, v, l =>
    let r := readByte l
    readSpan n (i + 1) (setByte v i r.1) r.2

/-- `OW_WRITE_BYTE` (rule R92). -/
def execOwWriteByte (s : State) : Host.Outcome State Fault Refusal :=
  .next (settle none { s with line := writeByte s.dataIn s.line })

/-- `OW_READ_BYTE` (rule R93). -/
def execOwReadByte (s : State) : Host.Outcome State Fault Refusal :=
  .next (settle none { s with dataOut := (readByte s.line).1, line := (readByte s.line).2 })

end Sys2Proof.Machine
end

