-- ==== Sys2Proof/Machine/BusCommands.lean ====
section
/-! DEFINITION. The bus command bytes (rule R64): each is one byte sent with `writeByte`. -/

namespace Sys2Proof.Machine

/-- A bus command byte goes out (rules R64, R90): eight write slots, bit 0 first. `SHIFT` holds the byte and `BITCNT` the
last bit's index; no flag and no other register is written. -/
def sendBusByte (v : Byte) (s : State) : State :=
  { s with line := writeByte v s.line, tr := { s.tr with shift := v, bitCnt := 7#3 } }

/-- `SEARCH_ROM` (rules R64, R106). -/
def execSearchRom (s : State) : Host.Outcome State Fault Refusal := .next (sendBusByte searchRomByte s)

/-- `MATCH_ROM` (rules R64, R115). -/
def execMatchRom (s : State) : Host.Outcome State Fault Refusal := .next (sendBusByte matchRomByte s)

/-- `READ_MEMORY` (rules R64, R121). -/
def execReadMemory (s : State) : Host.Outcome State Fault Refusal := .next (sendBusByte readMemoryByte s)

/-- `WRITE_SCRATCHPAD` (rules R64, R123). -/
def execWriteScratchpad (s : State) : Host.Outcome State Fault Refusal := .next (sendBusByte writeScratchpadByte s)

/-- `READ_SCRATCHPAD` (rules R64, R125). -/
def execReadScratchpad (s : State) : Host.Outcome State Fault Refusal := .next (sendBusByte readScratchpadByte s)

/-- `COPY` (rules R64, R128): the byte is the open parameter `CMD_COPY`. -/
def execCopy (s : State) : Host.Outcome State Fault Refusal := .next (sendBusByte Config.cmdCopy s)

end Sys2Proof.Machine
end

