-- ==== Sys2Proof/Machine/Crc.lean ====
section
/-! DEFINITION. The two CRC units and the two validators (42_crc_engine.md): pure functions (rule R102). -/

namespace Sys2Proof.Machine

/-- `CRC8_POLY` (rule R5). -/
def crc8Poly : BitVec 8 := 0x8C#8

/-- `CRC16_POLY` (rule R5). -/
def crc16Poly : BitVec 16 := 0xA001#16

/-- One of the eight iterations of rule R95. -/
def crc8Shift (c : BitVec 8) : BitVec 8 :=
  if c.getLsbD 0 then (c >>> 1) ^^^ crc8Poly else c >>> 1

/-- One of the eight iterations of rule R97. -/
def crc16Shift (c : BitVec 16) : BitVec 16 :=
  if c.getLsbD 0 then (c >>> 1) ^^^ crc16Poly else c >>> 1

/-- `n` iterations of `f`. -/
def iterate {α : Type} (f : α → α) : Nat → α → α
  | 0, x => x
  | n + 1, x => iterate f n (f x)

/-- `crc8_step` (rule R95): one input byte. -/
def crc8Step (c : BitVec 8) (x : Byte) : BitVec 8 := iterate crc8Shift 8 (c ^^^ x)

/-- `crc16_step` (rule R97): one input byte, which lands in bits 7:0. -/
def crc16Step (c : BitVec 16) (x : Byte) : BitVec 16 := iterate crc16Shift 8 (c ^^^ x.setWidth 16)

/-- `crc8(bytes, len)` (rule R96): initial value 0, only `bytes[0..len)` is used. -/
def crc8 (bytes : List Byte) (len : Nat) : BitVec 8 := (bytes.take len).foldl crc8Step 0

/-- `crc16(bytes, len)` (rule R98): initial value 0, no final XOR. -/
def crc16 (bytes : List Byte) (len : Nat) : BitVec 16 := (bytes.take len).foldl crc16Step 0

/-- The inverted CRC pair (rule R74): low byte of the complement, then its high byte. -/
def invertedPair (data : List Byte) (n : Nat) : Byte × Byte :=
  ((~~~(crc16 data n)).extractLsb' 0 8, (~~~(crc16 data n)).extractLsb' 8 8)

/-- `crc16_pair_ok` (rule R100): `rx0` is the first byte received. -/
def crc16PairOk (data : List Byte) (n : Nat) (rx0 rx1 : Byte) : Bool :=
  rx0 == (invertedPair data n).1 && rx1 == (invertedPair data n).2

/-- `rom_crc_ok` (rule R99). -/
def romCrcOk (acc : Vector Byte 8) : Bool := crc8 acc.toList 7 == acc[7]

end Sys2Proof.Machine
end

