-- ==== Sys2Proof/Machine/Discovery.lean ====
section
/-! DEFINITION. The ROM discovery state machine (43_rom_discovery.md): `DISCOVER`. -/

namespace Sys2Proof.Machine

/-- The decision on the two bits of a search iteration (rule R108): the failure it ends with, or the bit found. -/
def searchDecide (idBit cmpBit : Bool) : Except Failure Bool :=
  match idBit, cmpBit with
  | true, true => .error .noPresence
  | false, false => .error .busCollision
  | true, false => .ok true
  | false, true => .ok false

/-- `n` iterations of the search from bit index `b` (rules R105, R107, R108). -/
def searchLoop : (n b : Nat) → Vector Byte 8 → Line → Except Failure (Vector Byte 8) × Line
  | 0, _, acc, l => (.ok acc, l)
  | n + 1, b, acc, l =>
    let r := readBit l
    let c := readBit r.2
    match searchDecide r.1 c.1 with
    | .error f => (.error f, c.2)
    | .ok v => searchLoop n (b + 1) (orIdBit acc b v) (writeBit v c.2)

/-- Step 5 (rule R109): the CRC first, then the family. -/
def validateId (acc : Vector Byte 8) : Except Failure (Vector Byte 8) :=
  if !romCrcOk acc then .error .romCrcInvalid
  else if byteAt acc 0 != Config.expectedFamily then .error .familyMismatch
  else .ok acc

/-- Steps 1 to 5 of `DISCOVER` (rules R105 to R109): the identifier found, or the failure. -/
def discoverRun (l : Line) : Except Failure (Vector Byte 8) × Line :=
  let r := reset l
  match r.1 with
  | some f => (.error f, r.2)
  | none =>
    let q := searchLoop 64 0 (Vector.replicate 8 0) (writeByte searchRomByte r.2)
    match q.1 with
    | .error f => (.error f, q.2)
    | .ok acc => (validateId acc, q.2)

/-- Step 6 (rule R110): `ROM_ID` is written on Found and on no other terminal. -/
def discoverEnd (result : Except Failure (Vector Byte 8)) (s : State) : State :=
  match result with
  | .ok acc => settle none { s with romId := acc }
  | .error f => settle (some f) s

/-- `DISCOVER` (rules R105 to R114). -/
def execDiscover (s : State) : Host.Outcome State Fault Refusal :=
  .next (discoverEnd (discoverRun s.line).1 { s with line := (discoverRun s.line).2 })

end Sys2Proof.Machine
end

