-- ==== Sys2Proof/Machine/Selector.lean ====
section
/-! DEFINITION. The device selector (44_device_selector.md): `select()` and `SELECT`. -/

namespace Sys2Proof.Machine

/-- `select()` (rules R69, R115): the result of `reset()` is discarded (rule R118). -/
def selectDevice (romId : Vector Byte 8) (l : Line) : Line :=
  writeSpan romId 8 0 (writeByte matchRomByte (reset l).2)

/-- `SELECT` (rule R116). -/
def execSelect (s : State) : Host.Outcome State Fault Refusal :=
  .next (settle none { s with line := selectDevice s.romId s.line })

end Sys2Proof.Machine
end

