-- ==== Sys2Proof/Machine/Eeprom.lean ====
section
/-! DEFINITION. The EEPROM transaction sequencer (45_eeprom_transactions.md): `READ_ROW` and `WRITE_ROW`. -/

namespace Sys2Proof.Machine

/-- The read-memory frame (rules R70, R121): the byte at the row's address. -/
def readRowRun (romId : Vector Byte 8) (row : Nat) (l : Line) : Byte × Line :=
  readByte (writeByte (taHi row) (writeByte (taLo row) (writeByte readMemoryByte (selectDevice romId l))))

/-- `READ_ROW r` (rule R121): never fails, whatever the samples were. -/
def execReadRow (row : Nat) (s : State) : Host.Outcome State Fault Refusal :=
  if row < rowCount then
    .next (settle none
      { s with dataOut := (readRowRun s.romId row s.line).1, line := (readRowRun s.romId row s.line).2 })
  else .refused (.rowOutOfRange row)

/-- `n` bytes of `src` copied into `dst` from index `k` on. -/
def copyBytes (src : Vector Byte 8) (dst : Vector Byte 12) (k : Nat) : Nat → Vector Byte 12
  | 0 => dst
  | n + 1 => setByte (copyBytes src dst k n) (k + n) (byteAt src n)

/-- `BUF` as Phase 1 builds it (rule R123): `[0x0F, TA[7:0], TA[15:8], PAYLOAD[0..7]]`; `BUF[11]` is left as it was. -/
def stageBuffer (row : Nat) (payload : Vector Byte 8) (buf : Vector Byte 12) : Vector Byte 12 :=
  copyBytes payload (setByte (setByte (setByte buf 0 writeScratchpadByte) 1 (taLo row)) 2 (taHi row)) 3 8

/-- The comparison of rule R100 on the first `n` bytes of `BUF` and the received pair `CRC_RX`. -/
def bufCrcOk (buf : Vector Byte 12) (n : Nat) (crcRx : Vector Byte 2) : Bool :=
  crc16PairOk buf.toList n (byteAt crcRx 0) (byteAt crcRx 1)

/-- Phase 1 (rules R71, R124) on the built buffer: `NEEDS_VERIFY`, and `CRC_RX` as received. -/
def writePhase1 (romId : Vector Byte 8) (buf : Vector Byte 12) (crcRx : Vector Byte 2) (l : Line) :
    (Bool × Vector Byte 2) × Line :=
  let r := readSpan 2 0 crcRx (writeSpan buf 11 0 (selectDevice romId l))
  ((!bufCrcOk buf 11 r.1, r.1), r.2)

/-- Phase 2 (rules R72, R125 to R127): the buffer as read back, or the failure. -/
def writePhase2 (romId : Vector Byte 8) (needsVerify : Bool) (buf : Vector Byte 12) (crcRx : Vector Byte 2)
    (l : Line) : Except Failure (Vector Byte 12) × Line :=
  let r := readSpan 3 1 (setByte buf 0 readScratchpadByte) (writeByte readScratchpadByte (selectDevice romId l))
  if byteAt r.1 3 != esFullRow then (.error .scratchpadStatusInvalid, r.2)
  else if needsVerify then
    let p := readSpan 8 4 r.1 r.2
    let c := readSpan 2 0 crcRx p.2
    if bufCrcOk p.1 12 c.1 then (.ok p.1, c.2) else (.error .payloadCrcInvalid, c.2)
  else (.ok r.1, r.2)

/-- Phase 3 (rules R73, R128 to R130). -/
def writePhase3 (romId : Vector Byte 8) (buf : Vector Byte 12) (l : Line) : Option Failure × Line :=
  let r := readByte (emit (.delayMs progMs)
    (writeSpan (setByte buf 0 Config.cmdCopy) 4 0 (selectDevice romId l)))
  (if r.1 != commitOk then some .commitFailed else none, r.2)

/-- The three phases of `WRITE_ROW` (rule R122), from the registers `PAYLOAD` and `ROM_ID`. -/
def writeRowRun (row : Nat) (s : State) : Option Failure × Line :=
  let buf := stageBuffer row s.payload s.tr.buf
  let p1 := writePhase1 s.romId buf s.tr.crcRx s.line
  let p2 := writePhase2 s.romId p1.1.1 buf p1.1.2 p1.2
  match p2.1 with
  | .error f => (some f, p2.2)
  | .ok buf2 => writePhase3 s.romId buf2 p2.2

/-- `WRITE_ROW r` (rules R122 to R134). -/
def execWriteRow (row : Nat) (s : State) : Host.Outcome State Fault Refusal :=
  if row < rowCount then
    .next (settle (writeRowRun row s).1 { s with line := (writeRowRun row s).2 })
  else .refused (.rowOutOfRange row)

end Sys2Proof.Machine
end

