-- ==== Sys2Proof/Machine/Illegal.lean ====
section
/-! DEFINITION. The words that name no command (rule R62). -/

namespace Sys2Proof.Machine

/-- What the 112 unassigned words do (rule R62): IllegalCommand, no event, no other register. -/
def illegalCommand (s : State) : State := raise .illegalCommand s

/-- `ILLEGAL_0` (rule R62). The word itself selects nothing more. -/
def execIllegal0 (s : State) : Host.Outcome State Fault Refusal := .next (illegalCommand s)

/-- `ILLEGAL_AB` (rule R62). The word itself selects nothing more. -/
def execIllegalAB (s : State) : Host.Outcome State Fault Refusal := .next (illegalCommand s)

/-- `ILLEGAL_CF` (rule R62). The word itself selects nothing more. -/
def execIllegalCF (s : State) : Host.Outcome State Fault Refusal := .next (illegalCommand s)

end Sys2Proof.Machine
end

