-- ==== Sys2Proof/Machine/Dispatch.lean ====
section
/-! DEFINITION. The meaning of every instruction. -/

namespace Sys2Proof.Machine

/-- One arm per row of the opcode table. -/
def exec (i : Instr) (s : State) : Host.Outcome State Fault Refusal :=
  match i with
  | .owReset => Sys2Proof.Machine.execOwReset s
  | .owWriteBit bit => Sys2Proof.Machine.execOwWriteBit bit s
  | .owReadBit => Sys2Proof.Machine.execOwReadBit s
  | .owWriteByte => Sys2Proof.Machine.execOwWriteByte s
  | .owReadByte => Sys2Proof.Machine.execOwReadByte s
  | .discover => Sys2Proof.Machine.execDiscover s
  | .select => Sys2Proof.Machine.execSelect s
  | .readRow row => Sys2Proof.Machine.execReadRow row s
  | .writeRow row => Sys2Proof.Machine.execWriteRow row s
  | .illegal0 _ => Sys2Proof.Machine.execIllegal0 s
  | .illegalAB _ => Sys2Proof.Machine.execIllegalAB s
  | .illegalCF _ => Sys2Proof.Machine.execIllegalCF s
  | .searchRom => Sys2Proof.Machine.execSearchRom s
  | .matchRom => Sys2Proof.Machine.execMatchRom s
  | .readMemory => Sys2Proof.Machine.execReadMemory s
  | .writeScratchpad => Sys2Proof.Machine.execWriteScratchpad s
  | .readScratchpad => Sys2Proof.Machine.execReadScratchpad s
  | .copy => Sys2Proof.Machine.execCopy s

end Sys2Proof.Machine
end

