-- ==== Sys2Proof/Machine/Sequencer.lean ====
section
/-! DEFINITION. The command sequencer, event by event (10_state.md rule R24; decision D32: "step event by event. Both must
produce the same trace and registers"). One move of the block emits at most one interface event.

A level with nothing below it calls the operation its state names, or does the state's own work; when the operation
below ends, the level moves on. So a level's state is the operation being run while a lower level is present, and the
operation to run next while none is. -/

namespace Sys2Proof.Machine

/-- Move the command level to `q`, nothing running below it. -/
def goCmd (q : CmdSeq) (s : State) : State :=
  { s with seq := { cmd := q, sel := none, byte := none, bit := none } }

/-- Move the selector level to `q`, nothing running below it. -/
def goSel (q : SelSeq) (s : State) : State :=
  { s with seq := { s.seq with sel := some q, byte := none, bit := none } }

/-- Move the bit level to `q`. -/
def goBit (q : BitSeq) (s : State) : State := { s with seq := { s.seq with bit := some q } }

/-- Emit one event. -/
def emitEvent (e : Event) (s : State) : State := { s with line := emit e s.line }

/-- Call `reset()`: `RETRY <- 0` (rule R82). -/
def callReset (s : State) : State := goBit .waitSample { s with tr := { s.tr with retry := 0 } }

/-- Call `writeByte(v)`: `SHIFT <- v`, `BITCNT` from 0 (rule R90). -/
def callWriteByte (v : Byte) (s : State) : State :=
  { s with tr := { s.tr with shift := v, bitCnt := 0 }, seq := { s.seq with byte := some .tx, bit := none } }

/-- Call `readByte()`: `SHIFT <- 0x00`, `BITCNT` from 0 (rule R91). -/
def callReadByte (s : State) : State :=
  { s with tr := { s.tr with shift := 0, bitCnt := 0 }, seq := { s.seq with byte := some .rx, bit := none } }

/-- `select()` has ended: on to the command's next state (rules R116, R121, R122). -/
def selectDone (s : State) : State :=
  match s.seq.cmd with
  | .select => settle none s
  | .rdSelect => goCmd .rdCmd s
  | .w1Select => goCmd .w1Tx { s with tr := { s.tr with idx := 0 } }
  | .w2Select => goCmd .w2Cmd s
  | .w3Select => goCmd .w3Tx { s with tr := { s.tr with idx := 0 } }
  | _ => s

/-- A `writeByte` the command level called has ended (rules R92, R105, R121, R122). `W2_RX3` starts with `IDX` 1, since
`IDX` is the index in `BUF` of the byte it reads next (log 14). -/
def cmdWroteByte (s : State) : State :=
  match s.seq.cmd with
  | .owWriteByte => settle none s
  | .dCmd => goCmd .dRdId s
  | .rdCmd => goCmd .rdTaLo s
  | .rdTaLo => goCmd .rdTaHi s
  | .rdTaHi => goCmd .rdData s
  | .w1Tx =>
    if s.tr.idx.toNat < 10 then goCmd .w1Tx { s with tr := { s.tr with idx := s.tr.idx + 1 } }
    else goCmd .w1RxCrc { s with tr := { s.tr with idx := 0 } }
  | .w2Cmd =>
    goCmd .w2Rx3 { s with tr := { s.tr with buf := setByte s.tr.buf 0 readScratchpadByte, idx := 1 } }
  | .w3Tx =>
    if s.tr.idx.toNat < 3 then goCmd .w3Tx { s with tr := { s.tr with idx := s.tr.idx + 1 } } else goCmd .w3Wait s
  | _ => s

/-- A `writeByte` has ended: in `select()` the next byte of the select frame (rule R115), else the command level. -/
def byteWritten (s : State) : State :=
  match s.seq.sel with
  | some .sReset => s
  | some .sCmd => goSel .sRom { s with tr := { s.tr with idx := 0 } }
  | some .sRom =>
    if s.tr.idx.toNat < 7 then goSel .sRom { s with tr := { s.tr with idx := s.tr.idx + 1 } } else selectDone s
  | none => cmdWroteByte s

/-- A `readByte()` has ended; its result is in `SHIFT` (rules R93, R121, R122). In `W1_RXCRC` and `W2_RX10` the received
pair goes to `CRC_RX[IDX]` with `IDX` 0 and 1, and in `W2_RX3` the three bytes to `BUF[IDX]` with `IDX` 1 to 3
(log 14). -/
def byteRead (s : State) : State :=
  match s.seq.cmd with
  | .owReadByte => settle none { s with dataOut := s.tr.shift }
  | .rdData => settle none { s with dataOut := s.tr.shift }
  | .w1RxCrc =>
    let t := { s with tr := { s.tr with crcRx := setByte s.tr.crcRx s.tr.idx.toNat s.tr.shift } }
    if s.tr.idx.toNat < 1 then goCmd .w1RxCrc { t with tr := { t.tr with idx := t.tr.idx + 1 } } else goCmd .w1Cmp t
  | .w2Rx3 =>
    let t := { s with tr := { s.tr with buf := setByte s.tr.buf s.tr.idx.toNat s.tr.shift } }
    if s.tr.idx.toNat < 3 then goCmd .w2Rx3 { t with tr := { t.tr with idx := t.tr.idx + 1 } }
    else goCmd .w2CheckEs t
  | .w2Rx10 =>
    if 4 ≤ s.tr.idx.toNat then
      let t := { s with tr := { s.tr with buf := setByte s.tr.buf s.tr.idx.toNat s.tr.shift } }
      if s.tr.idx.toNat < 11 then goCmd .w2Rx10 { t with tr := { t.tr with idx := t.tr.idx + 1 } }
      else goCmd .w2Rx10 { t with tr := { t.tr with idx := 0 } }
    else
      let t := { s with tr := { s.tr with crcRx := setByte s.tr.crcRx s.tr.idx.toNat s.tr.shift } }
      if s.tr.idx.toNat < 1 then goCmd .w2Rx10 { t with tr := { t.tr with idx := t.tr.idx + 1 } }
      else goCmd .w2CheckCrc t
  | .w3Rx => goCmd .w3Check s
  | _ => s

/-- A `reset()` has ended: `select()` discards the result (rule R118), `OW_RESET` and `DISCOVER` raise its cause
(rules R85, R106). -/
def resetDone (cause : Option Failure) (s : State) : State :=
  match s.seq.sel with
  | some _ => goSel .sCmd s
  | none =>
    match s.seq.cmd with
    | .owReset => settle cause s
    | .dReset =>
      match cause with
      | some f => settle (some f) s
      | none => goCmd .dCmd s
    | _ => s

/-- A `writeBit` has ended: the next bit of a byte (rule R90), or the command level (rules R86, R107, R111). -/
def bitWritten (s : State) : State :=
  match s.seq.byte with
  | some .tx =>
    if s.tr.bitCnt.toNat < 7 then
      { s with tr := { s.tr with bitCnt := s.tr.bitCnt + 1 }, seq := { s.seq with bit := none } }
    else byteWritten { s with seq := { s.seq with byte := none, bit := none } }
  | some .rx => s
  | none =>
    match s.seq.cmd with
    | .owWriteBit => settle none s
    | .dEcho =>
      if s.tr.b.toNat < 63 then goCmd .dRdId { s with tr := { s.tr with b := s.tr.b + 1 } } else goCmd .dCheckCrc s
    | _ => s

/-- A `readBit()` has ended with `v`: the next bit of a byte (rule R91), or the command level (rules R87, R107). -/
def bitRead (v : Bool) (s : State) : State :=
  match s.seq.byte with
  | some .rx =>
    let t := { s with tr := { s.tr with shift := orBit s.tr.shift s.tr.bitCnt.toNat v } }
    if s.tr.bitCnt.toNat < 7 then
      { t with tr := { t.tr with bitCnt := t.tr.bitCnt + 1 }, seq := { s.seq with bit := none } }
    else byteRead { t with seq := { s.seq with byte := none, bit := none } }
  | some .tx => s
  | none =>
    match s.seq.cmd with
    | .owReadBit => settle none { s with dataOut := zext8 v }
    | .dRdId => goCmd .dRdCmp { s with tr := { s.tr with idBit := v } }
    | .dRdCmp => goCmd .dDecide { s with tr := { s.tr with cmpBit := v } }
    | _ => s

/-- One event of the bit engine (rules R82 to R84). -/
def bitTick (q : BitSeq) (s : State) : State :=
  match q with
  | .waitSample =>
    let r := sample s.line
    let t := { s with line := r.2 }
    if r.1 then goBit .rstDrive t
    else if s.tr.retry.toNat < rstRetryN then goBit .waitDelay t
    else resetDone (some .busTimeout) t
  | .waitDelay =>
    goBit .waitSample (emitEvent (.delayUs rstRetryUs) { s with tr := { s.tr with retry := s.tr.retry + 1 } })
  | .rstDrive => goBit .rstLowDelay (emitEvent .drive0 s)
  | .rstLowDelay => goBit .rstRelease (emitEvent (.delayUs rstLowUs) s)
  | .rstRelease => goBit .rstPdsDelay (emitEvent .release s)
  | .rstPdsDelay => goBit .rstPresence (emitEvent (.delayUs Config.tPds) s)
  | .rstPresence =>
    let r := sample s.line
    goBit .rstRecover { s with line := r.2, tr := { s.tr with pres := r.1 } }
  | .rstRecover =>
    resetDone (if s.tr.pres then some .noPresence else none) (emitEvent (.delayUs rstRecUs) s)
  | .wbDrive b => goBit (.wbLowDelay b) (emitEvent .drive0 s)
  | .wbLowDelay b => goBit (.wbRelease b) (emitEvent (.delayUs (writeLowUs b)) s)
  | .wbRelease b => goBit (.wbRelDelay b) (emitEvent .release s)
  | .wbRelDelay b => bitWritten (emitEvent (.delayUs (writeRelUs b)) s)
  | .rbDrive => goBit .rbLowDelay (emitEvent .drive0 s)
  | .rbLowDelay => goBit .rbRelease (emitEvent (.delayUs readLowUs) s)
  | .rbRelease => goBit .rbWaitDelay (emitEvent .release s)
  | .rbWaitDelay => goBit .rbSample (emitEvent (.delayUs readWaitUs) s)
  | .rbSample =>
    let r := sample s.line
    bitRead r.1 { s with line := r.2 }

/-- The selector level with nothing running below it (rule R115). -/
def selTick (q : SelSeq) (s : State) : State :=
  match q with
  | .sReset => callReset s
  | .sCmd => callWriteByte matchRomByte s
  | .sRom => callWriteByte (byteAt s.romId s.tr.idx.toNat) s

/-- The command level with nothing running below it (rules R85 to R87, R92, R93, R105, R111, R116, R121, R122). -/
def cmdTick (s : State) : State :=
  match s.seq.cmd with
  | .idle => s
  | .owReset => callReset s
  | .owWriteBit => goBit (.wbDrive (argBit s.tr.arg)) s
  | .owReadBit => goBit .rbDrive s
  | .owWriteByte => callWriteByte s.dataIn s
  | .owReadByte => callReadByte s
  | .select => goSel .sReset s
  | .dZero => goCmd .dReset { s with tr := { s.tr with acc := Vector.replicate 8 0, b := 0 } }
  | .dReset => callReset s
  | .dCmd => callWriteByte searchRomByte s
  | .dRdId => goBit .rbDrive s
  | .dRdCmp => goBit .rbDrive s
  | .dDecide =>
    match searchDecide s.tr.idBit s.tr.cmpBit with
    | .error f => settle (some f) s
    | .ok v => goCmd .dEcho { s with tr := { s.tr with acc := orIdBit s.tr.acc s.tr.b.toNat v } }
  | .dEcho => goBit (.wbDrive s.tr.idBit) s
  | .dCheckCrc =>
    let t := { s with tr := { s.tr with crc8R := crc8 s.tr.acc.toList 7 } }
    if romCrcOk s.tr.acc then goCmd .dCheckFam t else settle (some .romCrcInvalid) t
  | .dCheckFam =>
    if byteAt s.tr.acc 0 == Config.expectedFamily then settle none { s with romId := s.tr.acc }
    else settle (some .familyMismatch) s
  | .rdSelect => goSel .sReset s
  | .rdCmd => callWriteByte readMemoryByte s
  | .rdTaLo => callWriteByte (taLo s.tr.arg.toNat) s
  | .rdTaHi => callWriteByte (taHi s.tr.arg.toNat) s
  | .rdData => callReadByte s
  | .w1Build =>
    goCmd .w1Select
      { s with tr := { s.tr with buf := stageBuffer s.tr.arg.toNat s.payload s.tr.buf, needsVerify := false } }
  | .w1Select => goSel .sReset s
  | .w1Tx => callWriteByte (byteAt s.tr.buf s.tr.idx.toNat) s
  | .w1RxCrc => callReadByte s
  | .w1Cmp =>
    goCmd .w2Select
      { s with tr := { s.tr with crc16R := crc16 s.tr.buf.toList 11,
                                 needsVerify := !bufCrcOk s.tr.buf 11 s.tr.crcRx } }
  | .w2Select => goSel .sReset s
  | .w2Cmd => callWriteByte readScratchpadByte s
  | .w2Rx3 => callReadByte s
  | .w2CheckEs =>
    if byteAt s.tr.buf 3 != esFullRow then settle (some .scratchpadStatusInvalid) s
    else if s.tr.needsVerify then goCmd .w2Rx10 { s with tr := { s.tr with idx := 4 } }
    else goCmd .w3Select { s with tr := { s.tr with buf := setByte s.tr.buf 0 Config.cmdCopy } }
  | .w2Rx10 => callReadByte s
  | .w2CheckCrc =>
    let t := { s with tr := { s.tr with crc16R := crc16 s.tr.buf.toList 12 } }
    if bufCrcOk s.tr.buf 12 s.tr.crcRx then
      goCmd .w3Select { t with tr := { t.tr with buf := setByte s.tr.buf 0 Config.cmdCopy } }
    else settle (some .payloadCrcInvalid) t
  | .w3Select => goSel .sReset s
  | .w3Tx => callWriteByte (byteAt s.tr.buf s.tr.idx.toNat) s
  | .w3Wait => goCmd .w3Rx (emitEvent (.delayMs progMs) s)
  | .w3Rx => callReadByte s
  | .w3Check => settle (if s.tr.shift != commitOk then some .commitFailed else none) s

/-- One move of the block (rule R24): the innermost running level acts. An idle block does nothing. -/
def tick (s : State) : State :=
  match s.seq.bit with
  | some q => bitTick q s
  | none =>
    match s.seq.byte with
    | some .tx => goBit (.wbDrive (s.tr.shift.getLsbD s.tr.bitCnt.toNat)) s
    | some .rx => goBit .rbDrive s
    | none =>
      match s.seq.sel with
      | some q => selTick q s
      | none => cmdTick s

/-- `n` moves of the block. -/
def ticks : Nat → State → State
  | 0, s => s
  | n + 1, s => ticks n (tick s)

/-- The state in which a command starts (rule R24), or `none` for a word that names no command (rule R62). The last six
rows are not command words. -/
def firstState : Instr → Option CmdSeq
  | .owReset => some .owReset
  | .owWriteBit _ => some .owWriteBit
  | .owReadBit => some .owReadBit
  | .owWriteByte => some .owWriteByte
  | .owReadByte => some .owReadByte
  | .discover => some .dZero
  | .select => some .select
  | .readRow _ => some .rdSelect
  | .writeRow _ => some .w1Build
  | .illegal0 _ => none
  | .illegalAB _ => none
  | .illegalCF _ => none
  | .searchRom => none
  | .matchRom => none
  | .readMemory => none
  | .writeScratchpad => none
  | .readScratchpad => none
  | .copy => none

/-- A command is accepted (rules R15, R32, R62): the word is decoded once, `BUSY <- 1`, the argument field is kept for
the command, the byte itself is not stored. An unassigned word ends at once. -/
def accept (c : Byte) (s : State) : State :=
  match firstState (decodeWord c) with
  | none => raise .illegalCommand s
  | some q => goCmd q { s with busy := true, tr := { s.tr with arg := argField c } }

end Sys2Proof.Machine
end

