-- ==== Sys2Proof/Machine/HostPort.lean ====
section
/-! DEFINITION. The host register space (10_state.md rules R15, R16, R32, R33), the board's port (rule R162), and the
assembler lines of rules R75 and R76. -/

namespace Sys2Proof.Machine

/-- What a host read of register `reg` returns (rule R33); no side effect (rule R54). -/
def readReg (reg : Byte) (s : State) : Byte :=
  let n := reg.toNat
  if n = 0x01 then status s
  else if n = 0x02 then s.dataIn
  else if n = 0x03 then s.dataOut
  else if 0x08 ≤ n ∧ n ≤ 0x0F then byteAt s.payload (n - 0x08)
  else if 0x10 ≤ n ∧ n ≤ 0x17 then byteAt s.romId (n - 0x10)
  else 0x00

/-- A host write of `v` to register `reg` (rules R32, R33): ignored while `BUSY == 1`, and ignored for a register that is
read-only or reserved; a write to `CMD` starts a command. -/
def writeReg (reg v : Byte) (s : State) : State :=
  let n := reg.toNat
  if s.busy then s
  else if n = 0x00 then accept v s
  else if n = 0x02 then { s with dataIn := v }
  else if 0x08 ≤ n ∧ n ≤ 0x0F then { s with payload := setByte s.payload (n - 0x08) v }
  else s

/-- The host reads a register and keeps the byte (rule R33). -/
def hostRead (reg : Byte) (s : State) : State := { s with readLog := s.readLog ++ [readReg reg s] }

/-- `ow_drive_low` of rule R162: equals `LINE_DRV`. -/
def owDriveLow (s : State) : Bool := s.line.drv

/-- One line of a program, in the syntax of rules R75 and R76. -/
inductive AsmLine where
  | command (i : Instr)
  | wr (reg v : Byte)
  | rd (reg : Byte)
  | ldPayload (bytes : Vector Byte 8)
  | owWriteByteOf (v : Byte)
  | rdRom
  | rdStatus
deriving DecidableEq, Repr

/-- The instructions rule R75 has a line for: the nine host commands. -/
def hasLine : Instr → Bool
  | .owReset => true
  | .owWriteBit _ => true
  | .owReadBit => true
  | .owWriteByte => true
  | .owReadByte => true
  | .discover => true
  | .select => true
  | .readRow _ => true
  | .writeRow _ => true
  | .illegal0 _ => false
  | .illegalAB _ => false
  | .illegalCF _ => false
  | .searchRom => false
  | .matchRom => false
  | .readMemory => false
  | .writeScratchpad => false
  | .readScratchpad => false
  | .copy => false

/-- Why a line stands for no host action. -/
inductive AsmError where
  /-- Rule R75 has no line for this instruction: a row above 15 (rule R55), a word that names no command, a bus command
  byte. That such a line is refused and not assembled is the model's choice (log 25). -/
  | noSuchLine (i : Instr)
deriving DecidableEq, Repr

/-- The command line of an instruction (rule R75). One that rule R75 does not have is refused (log 25, DESIGN CHOICE, as
rule R55 wants for a row above 15). -/
def commandLine (i : Instr) : Except AsmError (List Input) :=
  match encode i with
  | some c => if hasLine i then .ok [.command c] else .error (.noSuchLine i)
  | none => .error (.noSuchLine i)

/-- The host actions a line stands for (rules R75, R76). -/
def expandLine : AsmLine → Except AsmError (List Input)
  | .command i => commandLine i
  | .wr reg v => .ok [.write reg v]
  | .rd reg => .ok [.read reg]
  | .ldPayload bytes => .ok ((List.range 8).map fun i => .write (BitVec.ofNat 8 (0x08 + i)) (byteAt bytes i))
  | .owWriteByteOf v => .ok [.write 0x02#8 v, .command (byteOf .owWriteByte)]
  | .rdRom => .ok ((List.range 8).map fun i => .read (BitVec.ofNat 8 (0x10 + i)))
  | .rdStatus => .ok [.read 0x01#8]

/-- The host actions of a program (rule R178: complete when the last one is); refused at its first refused line. -/
def assemble : List AsmLine → Except AsmError (List Input)
  | [] => .ok []
  | line :: lines =>
    match expandLine line with
    | .error e => .error e
    | .ok actions =>
      match assemble lines with
      | .error e => .error e
      | .ok rest => .ok (actions ++ rest)

end Sys2Proof.Machine
end

