-- ==== Sys2Proof/Machine/Step.lean ====
section
/-! DEFINITION. One step of the machine: the next input from outside, or the block's own next move. -/

namespace Sys2Proof.Machine

/-- One step.

A command line written while the block is idle runs the whole command at once (rule R32: "A model may execute a whole
command as one atomic step", decision D32); a register write to `CMD` only starts it, and the block's moves then come one
at a time. A command line while the block is busy is ignored (rule R32), and its wait is kept (rule R75). With no input
left the block moves on by itself; idle, it waits (rule R164). -/
def step (s : State) : Host.Outcome State Fault Refusal :=
  match s.inputs with
  | [] => .next (tick s)
  | .command c :: rest =>
    if s.busy then .next { s with inputs := .wait :: rest }
    else exec (decodeWord c) { s with inputs := rest }
  | .write reg v :: rest => .next (writeReg reg v { s with inputs := rest })
  | .read reg :: rest => .next (hostRead reg { s with inputs := rest })
  | .wait :: rest => if s.busy then .next (tick s) else .next { s with inputs := rest }
  | .tick :: rest => .next (tick { s with inputs := rest })
  | .hardwareReset :: rest => .next (hardwareReset { s with inputs := rest })

/-- The state with the command word `w` placed as the host's next command line, and the block idle so that it is accepted
(log 4). The block has no program memory (rule R57): this stands for the host writing `CMD`. -/
def State.withFetchWord (s : State) (nbits w : Nat) : State :=
  { s with inputs := .command (BitVec.ofNat 8 (w % 2 ^ nbits)) :: s.inputs, busy := false, seq := Seq.idle }

end Sys2Proof.Machine
end

