-- ==== Sys2Proof/Safety.lean ====
section
/-! DEFINITION. The terms claims are stated in: event lists of the bus operations, durations, the line discipline, what a
conforming device would answer, the invariant of the machine, and runs of the sequencer. -/

namespace Sys2Proof.Machine

/-! ## Event lists (the shorthand of 95_test_vectors.md) -/

/-- The events of a read slot that sampled `v` (rules R65, R84). -/
def readSlot (v : Bool) : List Event :=
  [.drive0, .delayUs readLowUs, .release, .delayUs readWaitUs, .sample v]

/-- One slot of the bit engine after its `reset()` (rules R83, R84): what an observer can count. -/
inductive Slot where
  /-- A write slot of this bit. -/
  | write (b : Bool)
  /-- A read slot that sampled this bit. -/
  | read (v : Bool)
deriving DecidableEq, Repr

def Slot.events : Slot → List Event
  | .write b => writeSlot b
  | .read v => readSlot v

def Slot.isWrite : Slot → Bool
  | .write _ => true
  | .read _ => false

def Slot.isRead : Slot → Bool
  | .write _ => false
  | .read _ => true

/-- The eight write slots of a byte (rule R90). -/
def byteWriteSlots (v : Byte) : List Event := (bitsLsbFirst v).flatMap writeSlot

/-- The eight read slots of a byte (rule R91). -/
def byteReadSlots (v : Byte) : List Event := (bitsLsbFirst v).flatMap readSlot

/-- `k` samples of 0, each followed by a 2 µs wait (rule R82). -/
def lowWaits (k : Nat) : List Event := (List.replicate k [Event.sample false, .delayUs rstRetryUs]).flatten

/-- The events of a `reset()` whose line was high after `k` waits and whose presence sample was `p` (rules R65, R82). -/
def resetEvents (k : Nat) (p : Bool) : List Event :=
  lowWaits k ++ [.sample true, .drive0, .delayUs rstLowUs, .release, .delayUs Config.tPds, .sample p, .delayUs rstRecUs]

/-- The events of a `reset()` that timed out (rules R65, R82). -/
def timeoutEvents : List Event := lowWaits rstRetryN ++ [.sample false]

/-- All that a `reset()` can emit (rule R82): the timeout, or at most 125 waits, the pulse and the presence sample. -/
def IsResetTrace (es : List Event) : Prop := es = timeoutEvents ∨ ∃ k p, k ≤ rstRetryN ∧ es = resetEvents k p

/-- The select frame after its `reset()` (rule R69). -/
def selectBytes (romId : Vector Byte 8) : List Event :=
  byteWriteSlots matchRomByte ++ romId.toList.flatMap byteWriteSlots

/-- One completed search iteration that found the bit `v` (rules R107, R108). -/
def searchIteration (v : Bool) : List Event := readSlot v ++ readSlot (!v) ++ writeSlot v

/-- The first `n` bits of an identifier in wire order (rule R41). -/
def idBits (id : Vector Byte 8) (n : Nat) : List Bool := (id.toList.flatMap bitsLsbFirst).take n

/-- The events after `e` that `s'` has and `s` has not. -/
def addsEvents (s s' : State) (es : List Event) : Prop := s'.events = s.events ++ es

/-- What a command reports when it ends (rules R17, R18, R19, R24): the boolean, the code, `BUSY` and `SEQ`. -/
def Reports (t : State) (cause : Option Failure) : Prop :=
  t.ok = cause.isNone ∧ t.err = (cause.map Failure.code).getD 0x0 ∧ t.busy = false ∧ t.seq = Seq.idle

/-- What no command writes: the registers only the host writes (rules R12, R13), and the host's own side. -/
def HostSideKept (s t : State) : Prop :=
  t.payload = s.payload ∧ t.dataIn = s.dataIn ∧ t.inputs = s.inputs ∧ t.readLog = s.readLog

/-- The codes each host command can end with when it fails (rules R62, R149). The bus rows are no host commands. -/
def failureCodes : Instr → List (BitVec 4)
  | .owReset => [0x1, 0x2]
  | .owWriteBit _ => []
  | .owReadBit => []
  | .owWriteByte => []
  | .owReadByte => []
  | .discover => [0x1, 0x2, 0x3, 0x4, 0x5]
  | .select => []
  | .readRow _ => []
  | .writeRow _ => [0x6, 0x7, 0x8]
  | .illegal0 _ => [0xF]
  | .illegalAB _ => [0xF]
  | .illegalCF _ => [0xF]
  | .searchRom => []
  | .matchRom => []
  | .readMemory => []
  | .writeScratchpad => []
  | .readScratchpad => []
  | .copy => []

/-- Phase 1 of `WRITE_ROW` after its `reset()` (rule R71), the received pair being `c0`, `c1`. -/
def phase1Events (romId : Vector Byte 8) (staged : List Byte) (c0 c1 : Byte) : List Event :=
  selectBytes romId ++ staged.flatMap byteWriteSlots ++ byteReadSlots c0 ++ byteReadSlots c1

/-- Phase 2 of `WRITE_ROW` after its `reset()` (rule R72), the bytes read being `bs`. -/
def phase2Events (romId : Vector Byte 8) (bs : List Byte) : List Event :=
  selectBytes romId ++ byteWriteSlots readScratchpadByte ++ bs.flatMap byteReadSlots

/-- Phase 3 of `WRITE_ROW` after its `reset()` (rule R73), the commit byte being `ack`. -/
def phase3Events (romId : Vector Byte 8) (a0 a1 es ack : Byte) : List Event :=
  selectBytes romId ++ byteWriteSlots Config.cmdCopy ++ byteWriteSlots a0 ++ byteWriteSlots a1 ++ byteWriteSlots es
    ++ [.delayMs progMs] ++ byteReadSlots ack

/-! ## Time (rules R161, R175, R177) -/

/-- The time a delay event asks for, in µs. Every other event takes no modelled time (rule R175). -/
def Event.us : Event → Nat
  | .drive0 => 0
  | .release => 0
  | .sample _ => 0
  | .delayUs n => n
  | .delayMs n => 1000 * n

/-- The nominal duration of a trace: the sum of its delays (rule R177). -/
def duration (es : List Event) : Nat := (es.map Event.us).sum

/-- The identifier of the worked examples of 95_test_vectors.md, `2D 01 02 03 04 05 06 57`. -/
def workedId : Vector Byte 8 := #v[0x2D#8, 0x01#8, 0x02#8, 0x03#8, 0x04#8, 0x05#8, 0x06#8, 0x57#8]

/-- The payload of the worked examples, 1 to 8. -/
def workedPayload : Vector Byte 8 := #v[0x01#8, 0x02#8, 0x03#8, 0x04#8, 0x05#8, 0x06#8, 0x07#8, 0x08#8]

/-- Whether an event is a delay. -/
def Event.isDelay : Event → Bool
  | .drive0 => false
  | .release => false
  | .sample _ => false
  | .delayUs _ => true
  | .delayMs _ => true

/-- The real time `t`, in µs, an event may take: a delay its nominal time within `JITTER_US`, any other event none
(rules R161, R175). The spec gives no resolution of a delay (N23): that real time, like `JITTER_US`, comes in whole
microseconds is the model's choice (log 26, DESIGN CHOICE). -/
def Event.admits (e : Event) (t : Nat) : Prop :=
  if e.isDelay then t ≤ e.us + Config.jitterUs ∧ e.us ≤ t + Config.jitterUs else t = 0

/-- A real time that differs from a nominal one by at most `JITTER_US` for each of so many delays (rules R161, R175),
in whole microseconds (log 26). -/
def TimeWithin (nominal delays : Nat) (ts : List Nat) : Prop :=
  ts.sum ≤ nominal + Config.jitterUs * delays ∧ nominal ≤ ts.sum + Config.jitterUs * delays

/-- The delays the block ever requests (rule R161). -/
def Event.requested : Event → Bool
  | .drive0 => true
  | .release => true
  | .sample _ => true
  | .delayUs n => n ∈ [2, 5, 10, 13, 40, 55, 65, 410, 550, Config.tPds]
  | .delayMs n => n == 15

/-! ## The line (rules R80, R81, R89) -/

/-- `LINE_DRV` after a list of events. -/
def driveAfter : List Event → Bool → Bool
  | [], d => d
  | e :: es, d => driveAfter es (e.driveAfter d)

/-- No `Sample` of the list falls while the block drives low (rule R89). -/
def noSampleWhileDriving : List Event → Bool → Bool
  | [], _ => true
  | .sample v :: es, d => !d && noSampleWhileDriving es ((Event.sample v).driveAfter d)
  | .drive0 :: es, d => noSampleWhileDriving es (Event.drive0.driveAfter d)
  | .release :: es, d => noSampleWhileDriving es (Event.release.driveAfter d)
  | .delayUs n :: es, d => noSampleWhileDriving es ((Event.delayUs n).driveAfter d)
  | .delayMs n :: es, d => noSampleWhileDriving es ((Event.delayMs n).driveAfter d)

/-- Between which events of the bit engine the block drives low: inside the `L(n)` parts of rule R65 (rule R81). -/
def BitSeq.driving : BitSeq → Bool
  | .waitSample => false
  | .waitDelay => false
  | .rstDrive => false
  | .rstLowDelay => true
  | .rstRelease => true
  | .rstPdsDelay => false
  | .rstPresence => false
  | .rstRecover => false
  | .wbDrive _ => false
  | .wbLowDelay _ => true
  | .wbRelease _ => true
  | .wbRelDelay _ => false
  | .rbDrive => false
  | .rbLowDelay => true
  | .rbRelease => true
  | .rbWaitDelay => false
  | .rbSample => false

/-! ## What a conforming device would answer (rule R47): hypotheses of claims, never a rule of the block -/

/-- The samples of a `reset()` on a high line with a device present. -/
def presenceAnswers : List Bool := [true, false]

/-- The samples of a search of one device: each identifier bit, then its complement. -/
def searchAnswers (bits : List Bool) : List Bool := bits.flatMap fun v => [v, !v]

/-- The samples of the bytes of a list, each bit 0 first. -/
def byteAnswers (vs : List Byte) : List Bool := vs.flatMap bitsLsbFirst

/-- The bytes `WRITE_ROW row` stages (rule R123). -/
def stagedBytes (row : Nat) (payload : Vector Byte 8) : List Byte :=
  [writeScratchpadByte, taLo row, taHi row] ++ payload.toList

/-- What a device answers to `WRITE_ROW row` when it stages, echoes and programs the row: the inverted CRC of the 11 bytes
sent, the echoed address and the status byte `0x07`, and `0xAA`. -/
def writeAnswers (row : Nat) (payload : Vector Byte 8) : List Bool :=
  presenceAnswers
    ++ byteAnswers [(invertedPair (stagedBytes row payload) 11).1, (invertedPair (stagedBytes row payload) 11).2]
    ++ presenceAnswers ++ byteAnswers [taLo row, taHi row, esFullRow]
    ++ presenceAnswers ++ byteAnswers [commitOk]

/-- What a device holding `v` at the row's address answers to `READ_ROW`. -/
def readAnswers (v : Byte) : List Bool := presenceAnswers ++ byteAnswers [v]

/-! ## The invariant of the machine -/

/-- The codes `ERR` ever holds (rule R140). -/
def legalCodes : List (BitVec 4) := [0x0, 0x1, 0x2, 0x3, 0x4, 0x5, 0x6, 0x7, 0x8, 0xF]

/-- `ROM_ID` is all zero (never Found since reset), or its CRC and its family are right (rule R11). -/
def romIdValid (romId : Vector Byte 8) : Prop :=
  romId = Vector.replicate 8 0 ∨ (romCrcOk romId = true ∧ byteAt romId 0 = Config.expectedFamily)

/-- What holds in every state a run reaches. -/
structure BlockInv (s : State) : Prop where
  /-- `SEQ == IDLE` exactly when `BUSY == 0` (rule R24). -/
  idle_iff : s.busy = false ↔ s.seq.cmd = .idle
  /-- An idle sequencer has no level running (rule R24). -/
  idle_levels : s.seq.cmd = .idle → s.seq = Seq.idle
  /-- `LINE_DRV` is 1 exactly inside the low part of a slot or a reset pulse (rules R20, R81). -/
  drive : s.line.drv = (s.seq.bit.map BitSeq.driving).getD false
  /-- `OK == 1` implies `ERR == 0x0` (rule R18). -/
  report : s.ok = true → s.err = 0x0
  /-- `ERR` holds a code of rule R140. -/
  code : s.err ∈ legalCodes
  /-- The invariant of rule R11. -/
  rom : romIdValid s.romId
  /-- The family check comes after the CRC check (rule R109). -/
  crc_checked : s.seq.cmd = .dCheckFam → romCrcOk s.tr.acc = true

/-! ## Runs -/

/-- `k` steps in a row, stopping at the first refusal. -/
def stepsFrom : Nat → State → Host.Outcome State Fault Refusal
  | 0, s => .next s
  | k + 1, s =>
    match step s with
    | .next t => stepsFrom k t
    | .fault r => .fault r
    | .refused r => .refused r

/-- At most `k` moves of the block lead from `s` to `t`, and the block is busy before the last of them. -/
def RunsIn (k : Nat) (s t : State) : Prop :=
  ∃ n, n ≤ k ∧ ticks n s = t ∧ ∀ m, m < n → (ticks m s).busy = true

end Sys2Proof.Machine
end

