-- ==== Sys2Proof/Certificates/Slice0/Obligations.lean ====
section
/-! DEFINITION. The statements about the model. Each docstring names the rules of `spec/` it rests on. -/

open Sys2Proof Sys2Proof.Machine

/-! ## Encoding -/

/-- Words written out bit by bit from rule R61 (host layer) and rule R64 (bus layer) decode to what they stand for. -/
def Obligations.WordsWrittenFromTheTablesDecode : Prop :=
  decodeWord 0b00010000#8 = .owReset ∧ decodeWord 0b00101110#8 = .owWriteBit false ∧
  decodeWord 0b00101111#8 = .owWriteBit true ∧ decodeWord 0b00110000#8 = .owReadBit ∧
  decodeWord 0b01000000#8 = .owWriteByte ∧ decodeWord 0b01010000#8 = .owReadByte ∧
  decodeWord 0b01100000#8 = .discover ∧ decodeWord 0b01110000#8 = .select ∧
  decodeWord 0b10000011#8 = .readRow 3 ∧ decodeWord 0b10001111#8 = .readRow 15 ∧
  decodeWord 0b10010011#8 = .writeRow 3 ∧ decodeWord 0b00001100#8 = .illegal0 0x0C#8 ∧
  decodeWord 0b10100011#8 = .illegalAB 0xA3#8 ∧ decodeWord 0b11111111#8 = .illegalCF 0xFF#8 ∧
  decodeBus .dCmd 0b11110000#8 = .ok .searchRom ∧ decodeBus .sCmd 0b01010101#8 = .ok .matchRom ∧
  decodeBus .rdCmd 0b11110000#8 = .ok .readMemory ∧ decodeBus .w1Tx0 0b00001111#8 = .ok .writeScratchpad ∧
  decodeBus .w2Cmd 0b10101010#8 = .ok .readScratchpad

/-- Rule R61: every command word selects exactly one row of the table by `match` and `mask`, the decoder gives that
row's instruction, and the operand is `arg[0]` for `OW_WRITE_BIT` and `arg` for the two row commands. -/
def Obligations.EveryCommandWordSelectsOneRow : Prop :=
  ∀ w : Byte,
    (hostTable.filter fun r => r.selects w).map TableRow.mnemonic = [(decodeWord w).mnemonic] ∧
    (opField w = 0x2 → decodeWord w = .owWriteBit (w.getLsbD 0)) ∧
    (opField w = 0x8 → decodeWord w = .readRow (w.toNat % 16)) ∧
    (opField w = 0x9 → decodeWord w = .writeRow (w.toNat % 16))

/-- Decode and encode agree (rules R61 to R64): a well-formed instruction has a byte, and that byte, met on its own
layer, is read as that instruction, with every operand; an ill-formed term, a row above 15 among them, has none. -/
def Obligations.DecodeOfEncodeIsTheInstruction : Prop :=
  ∀ i : Instr,
    (i.wellFormed = true → ∃ b, encode i = some b ∧ decodeAt i.layer b = .ok i) ∧
    (i.wellFormed = false → encode i = none)

/-- Rule R63: argument bits the table ignores select nothing, and a disassembled word has them 0. -/
def Obligations.IgnoredArgumentBitsSelectTheSameCommand : Prop :=
  ∀ w v : Byte, opField w = opField v →
    (opField w ∈ [0x1#4, 0x3#4, 0x4#4, 0x5#4, 0x6#4, 0x7#4] →
      decodeWord w = decodeWord v ∧ encode (decodeWord w) = some (opField w ++ 0#4)) ∧
    (opField w = 0x2#4 → w.getLsbD 0 = v.getLsbD 0 →
      decodeWord w = decodeWord v ∧ encode (decodeWord w) = some (opField w ++ 0#3 ++ BitVec.ofBool (w.getLsbD 0)))

/-! ## Step and the host's side -/

/-- A step runs the decoded instruction (rules R15, R32, R75). An idle block whose next input is a command line executes
the instruction the written byte decodes to, the input being taken; a busy block ignores the byte and the host waits.
The placed word of `withFetchWord` is run by the very next step. A step with no input left, a step whose input leaves
the moment to the block, and a step in which the host waits on a busy block are the next move of the sequencer; a wait
on an idle block ends. The whole command in one step, the forms of the inputs, the wait kept and the placing of a word
are the model's choices (log 3, 2, 17, 4). -/
def Obligations.StepRunsTheDecodedCommand : Prop :=
  ∀ (s : State) (c : Byte) (rest : List Input),
    (s.inputs = .command c :: rest → s.busy = false → step s = exec (decodeWord c) { s with inputs := rest }) ∧
    (s.inputs = .command c :: rest → s.busy = true → step s = .next { s with inputs := .wait :: rest }) ∧
    (∀ (w : Nat) (i : Instr), decodeTableWord 8 w = some i →
      step (s.withFetchWord 8 w) = exec i { s with busy := false, seq := Seq.idle }) ∧
    (s.inputs = [] → step s = .next (tick s)) ∧
    (s.inputs = .tick :: rest → step s = .next (tick { s with inputs := rest })) ∧
    (s.inputs = .wait :: rest → s.busy = true → step s = .next (tick s)) ∧
    (s.inputs = .wait :: rest → s.busy = false → step s = .next { s with inputs := rest })

/-- While `BUSY == 1` every host write is ignored and changes nothing, and a host read returns the current register
(rule R32), busy or idle; an idle block takes the write of any register (`HostRegisterMap` has what each write does,
rule R33), and one of a byte to `CMD` is accepted (rule R15). -/
def Obligations.BusyBlockIgnoresHostWrites : Prop :=
  ∀ (s : State) (reg v : Byte) (rest : List Input),
    (s.inputs = .write reg v :: rest → s.busy = true → step s = .next { s with inputs := rest }) ∧
    (s.inputs = .write reg v :: rest → s.busy = false → step s = .next (writeReg reg v { s with inputs := rest })) ∧
    (s.inputs = .write 0x00#8 v :: rest → s.busy = false → step s = .next (accept v { s with inputs := rest })) ∧
    (s.inputs = .read reg :: rest →
      step s = .next { s with inputs := rest, readLog := s.readLog ++ [readReg reg s] })

/-- The host register map (rule R33): what each register number reads as, whether the block is busy or idle (rules R19,
R32), and what a write to it changes while the block is idle. -/
def Obligations.HostRegisterMap : Prop :=
  ∀ (s : State) (v : Byte),
    readReg 0x00#8 s = 0x00#8 ∧ readReg 0x01#8 s = status s ∧ readReg 0x02#8 s = s.dataIn ∧
    readReg 0x03#8 s = s.dataOut ∧
    (∀ i : Fin 8, readReg (BitVec.ofNat 8 (0x08 + i)) s = s.payload[i] ∧
      readReg (BitVec.ofNat 8 (0x10 + i)) s = s.romId[i]) ∧
    (∀ reg : Byte, 0x04#8 ≤ reg ∧ reg ≤ 0x07#8 ∨ 0x18#8 ≤ reg → readReg reg s = 0x00#8) ∧
    (s.busy = false →
      writeReg 0x00#8 v s = accept v s ∧ writeReg 0x02#8 v s = { s with dataIn := v } ∧
      (∀ i : Fin 8, writeReg (BitVec.ofNat 8 (0x08 + i)) v s = { s with payload := s.payload.set i v }) ∧
      (∀ reg : Byte, 0x04#8 ≤ reg ∧ reg ≤ 0x07#8 ∨ 0x18#8 ≤ reg → writeReg reg v s = s) ∧
      (∀ reg : Byte, reg = 0x01#8 ∨ reg = 0x03#8 ∨ 0x10#8 ≤ reg ∧ reg ≤ 0x17#8 → writeReg reg v s = s))

/-- The pseudo-instructions of rule R76, from a block that is idle: `LDPAYLOAD` loads the eight payload bytes and
nothing else changes; `OW_WRITE_BYTE v` runs `OW_WRITE_BYTE` with `DATA_IN` loaded; `RDROM` and `RDSTATUS` give the host
the register values and change nothing. -/
def Obligations.PseudoInstructionsDoWhatTheyExpandTo : Prop :=
  ∀ (s : State) (bytes : Vector Byte 8) (v : Byte) (rest : List Input), s.busy = false →
    (∃ actions, expandLine (.ldPayload bytes) = .ok actions ∧ (s.inputs = actions ++ rest →
      stepsFrom 8 s = .next { s with payload := bytes, inputs := rest })) ∧
    (∃ actions, expandLine (.owWriteByteOf v) = .ok actions ∧ (s.inputs = actions ++ rest →
      stepsFrom 2 s = exec .owWriteByte { s with dataIn := v, inputs := rest })) ∧
    (∃ actions, expandLine .rdRom = .ok actions ∧ (s.inputs = actions ++ rest →
      stepsFrom 8 s = .next { s with readLog := s.readLog ++ s.romId.toList, inputs := rest })) ∧
    (∃ actions, expandLine .rdStatus = .ok actions ∧ (s.inputs = actions ++ rest →
      stepsFrom 1 s = .next { s with readLog := s.readLog ++ [status s], inputs := rest }))

/-- Rule R75: what each line of its table stands for, the encoding being written to `CMD`; a line the table does not
have (a row above 15, a word that names no command, a bus command) stands for nothing and is refused, which is the
model's choice (log 25). -/
def Obligations.AssemblerLinesOfTheTable : Prop :=
  expandLine (.command .owReset) = .ok [.command 0x10#8] ∧
  (∀ b : Bool, expandLine (.command (.owWriteBit b)) = .ok [.command (if b then 0x21#8 else 0x20#8)]) ∧
  expandLine (.command .owReadBit) = .ok [.command 0x30#8] ∧
  expandLine (.command .owWriteByte) = .ok [.command 0x40#8] ∧
  expandLine (.command .owReadByte) = .ok [.command 0x50#8] ∧
  expandLine (.command .discover) = .ok [.command 0x60#8] ∧
  expandLine (.command .select) = .ok [.command 0x70#8] ∧
  (∀ row : Nat, row < 16 →
    expandLine (.command (.readRow row)) = .ok [.command (0x80#8 ||| BitVec.ofNat 8 row)] ∧
    expandLine (.command (.writeRow row)) = .ok [.command (0x90#8 ||| BitVec.ofNat 8 row)]) ∧
  (∀ row : Nat, 16 ≤ row →
    expandLine (.command (.readRow row)) = .error (.noSuchLine (.readRow row)) ∧
    expandLine (.command (.writeRow row)) = .error (.noSuchLine (.writeRow row))) ∧
  (∀ w : Byte, expandLine (.command (.illegal0 w)) = .error (.noSuchLine (.illegal0 w)) ∧
    expandLine (.command (.illegalAB w)) = .error (.noSuchLine (.illegalAB w)) ∧
    expandLine (.command (.illegalCF w)) = .error (.noSuchLine (.illegalCF w))) ∧
  (∀ i : Instr, i.layer ≠ .host → expandLine (.command i) = .error (.noSuchLine i)) ∧
  (∀ reg v : Byte, expandLine (.wr reg v) = .ok [.write reg v] ∧ expandLine (.rd reg) = .ok [.read reg])

/-- Rule R164: with nothing coming from outside, an idle block stays exactly as it is. The premise is the invariant,
which rules out a `SEQ` that contradicts `BUSY`. -/
def Obligations.IdleBlockStaysAsItIs : Prop :=
  ∀ s : State, BlockInv s → s.busy = false → s.inputs = [] → step s = .next s

/-- `STATUS` (rule R16), register `0x01`: `BUSY` in bit 0, `OK` in bit 1, bits 3:2 read as 0, `ERR` in bits 7:4; a host
write is ignored; all zero after reset. -/
def Obligations.StatusRegisterBits : Prop :=
  ∀ (s : State) (v : Byte),
    (status s).getLsbD 0 = s.busy ∧ (status s).getLsbD 1 = s.ok ∧ (status s).extractLsb' 2 2 = 0#2 ∧
    (status s).extractLsb' 4 4 = s.err ∧ readReg 0x01#8 s = status s ∧ writeReg 0x01#8 v s = s ∧
    status State.reset = 0x00#8

/-- Rule R31: the persistent registers right after reset. -/
def Obligations.ResetRegisterValues : Prop :=
  (∀ i : Fin 8, State.reset.romId[i] = 0x00#8 ∧ State.reset.payload[i] = 0x00#8) ∧
  State.reset.dataIn = 0x00#8 ∧ State.reset.dataOut = 0x00#8 ∧ State.reset.ok = false ∧ State.reset.err = 0x0#4 ∧
  State.reset.busy = false ∧ State.reset.line.drv = false ∧ State.reset.seq = Seq.idle

/-- Rules R170 and R171: a hardware reset, at any moment of a run, puts every persistent register at its reset value and
releases the line, emits no event, runs no delay and takes no sample; what has happened stays. That the reset comes as
an input, and that the inputs still to come and the environment's answers stay, are the model's choices (log 16). -/
def Obligations.HardwareResetRestoresRegisters : Prop :=
  ∀ (s : State) (rest : List Input), s.inputs = .hardwareReset :: rest →
    ∃ t, step s = .next t ∧ t.romId = State.reset.romId ∧ t.payload = State.reset.payload ∧ t.dataIn = 0x00#8 ∧
      t.dataOut = 0x00#8 ∧ t.ok = false ∧ t.err = 0x0#4 ∧ t.busy = false ∧ t.seq = Seq.idle ∧ t.line.drv = false ∧
      t.events = s.events ∧ t.inputs = rest ∧ t.line.answers = s.line.answers

/-! ## Failures -/

/-- Rule R144: what `raise` does to the report, and that it emits nothing and keeps the data registers; rule R140: the
codes. That `raise` itself keeps the transient registers, which rule R145 leaves unspecified, is the model's division of
work: a running command makes them free before it (log 6), a word that names no command leaves them (log 24). -/
def Obligations.RaiseWritesTheReportAndNothingElse : Prop :=
  (∀ (f : Failure) (s : State),
    Reports (raise f s) (some f) ∧ (raise f s).events = s.events ∧ (raise f s).line = s.line ∧
    (raise f s).romId = s.romId ∧ (raise f s).dataOut = s.dataOut ∧ (raise f s).tr = s.tr ∧
    HostSideKept s (raise f s)) ∧
  Failure.code .busTimeout = 0x1 ∧ Failure.code .noPresence = 0x2 ∧ Failure.code .busCollision = 0x3 ∧
  Failure.code .romCrcInvalid = 0x4 ∧ Failure.code .familyMismatch = 0x5 ∧
  Failure.code .scratchpadStatusInvalid = 0x6 ∧ Failure.code .payloadCrcInvalid = 0x7 ∧
  Failure.code .commitFailed = 0x8 ∧ Failure.code .illegalCommand = 0xF

/-- Rule R62: a word whose `op` is `0x0` or `0xA` to `0xF` names no command: the three rows complete with
IllegalCommand, no event and no other register changed, and accepting such a word does the same. That the transient
registers stay as well is the model's reading (log 24). -/
def Obligations.UnassignedWordsAreIllegalCommands : Prop :=
  ∀ (s : State) (w : Byte),
    (∃ t, exec (.illegal0 w) s = .next t ∧ exec (.illegalAB w) s = .next t ∧ exec (.illegalCF w) s = .next t ∧
      t = { s with ok := false, err := 0xF#4, busy := false, seq := Seq.idle } ∧ t.events = s.events) ∧
    (opField w = 0x0#4 ∨ 0xA#4 ≤ opField w →
      exec (decodeWord w) s = .next { s with ok := false, err := 0xF#4, busy := false, seq := Seq.idle } ∧
      accept w s = { s with ok := false, err := 0xF#4, busy := false, seq := Seq.idle })

/-! ## Bit timing engine -/

/-- Rules R83 and R86: the bit of `OW_WRITE_BIT` is `arg[0]`, `arg[3:1]` being ignored; it emits the slot of its bit and
nothing else, and succeeds. -/
def Obligations.WriteBitEmitsItsSlot : Prop :=
  (∀ w : Byte, opField w = 0x2#4 → decodeWord w = .owWriteBit (w.getLsbD 0)) ∧
  ∀ (s : State) (b : Bool), ∃ t, exec (.owWriteBit b) s = .next t ∧
    addsEvents s t (if b then [.drive0, .delayUs 10, .release, .delayUs 55]
      else [.drive0, .delayUs 65, .release, .delayUs 5]) ∧
    Reports t none ∧ t.line.drv = false ∧ t.line.answers = s.line.answers ∧ t.romId = s.romId ∧
    t.dataOut = s.dataOut ∧ HostSideKept s t

/-- Rules R84 and R87: `OW_READ_BIT` samples 53 µs after its slot's start and returns the sample, which is the
environment's scripted answer when there is one. -/
def Obligations.ReadBitReturnsTheSample : Prop :=
  ∀ s : State, ∃ (v : Bool) (t : State), exec .owReadBit s = .next t ∧
    addsEvents s t [.drive0, .delayUs 13, .release, .delayUs 40, .sample v] ∧
    t.dataOut = (if v then 0x01#8 else 0x00#8) ∧ Reports t none ∧ t.line.drv = false ∧
    (∀ (a : Bool) (rest : List Bool), s.line.answers = a :: rest → v = a ∧ t.line.answers = rest) ∧
    t.romId = s.romId ∧ HostSideKept s t

/-- Rules R82 and R85: `OW_RESET` from a released line (rule R20: it is released whenever the block is idle), which is
low for `k` samples and then high, waits 2 µs `k` times, pulses for 550 µs, samples presence once, waits 410 µs, and
reports NoPresence exactly when that sample was 1. -/
def Obligations.ResetPulseAfterTheLineFloatsHigh : Prop :=
  ∀ (s : State) (k : Nat) (p : Bool) (rest : List Bool), k ≤ 125 → s.line.drv = false →
    s.line.answers = List.replicate k false ++ true :: p :: rest →
    ∃ t, exec .owReset s = .next t ∧
      addsEvents s t ((List.replicate k [Event.sample false, .delayUs 2]).flatten ++
        [.sample true, .drive0, .delayUs 550, .release, .delayUs Config.tPds, .sample p, .delayUs 410]) ∧
      Reports t (if p then some .noPresence else none) ∧ t.line.drv = false ∧ t.line.answers = rest ∧
      t.romId = s.romId ∧ t.dataOut = s.dataOut ∧ HostSideKept s t

/-- Rule R82: a line that is low at all 126 samples gives BusTimeout after exactly 125 waits, with no pulse and no
recovery wait. -/
def Obligations.BusTimeoutAfter125Waits : Prop :=
  ∀ (s : State) (rest : List Bool), s.line.answers = List.replicate 126 false ++ rest →
    ∃ t, exec .owReset s = .next t ∧
      addsEvents s t ((List.replicate 125 [Event.sample false, .delayUs 2]).flatten ++ [.sample false]) ∧
      Reports t (some .busTimeout) ∧ t.line.drv = s.line.drv ∧ t.line.answers = rest ∧
      t.romId = s.romId ∧ t.dataOut = s.dataOut ∧ HostSideKept s t

/-- Rule R85: whatever the samples are, `OW_RESET` ends with BusTimeout when the line never sampled high in the wait
loop, with NoPresence when the presence sample was 1, and else with success; it writes no data register. -/
def Obligations.OwResetFollowsItsRule : Prop :=
  ∀ s : State, ∃ (t : State) (es : List Event), exec .owReset s = .next t ∧ addsEvents s t es ∧
    ((es = timeoutEvents ∧ Reports t (some .busTimeout) ∧ t.line.drv = s.line.drv) ∨
     (∃ (k : Nat) (p : Bool), k ≤ 125 ∧ es = resetEvents k p ∧ Reports t (if p then some .noPresence else none) ∧
       t.line.drv = false)) ∧
    t.romId = s.romId ∧ t.dataOut = s.dataOut ∧ HostSideKept s t

/-! ## Byte codec -/

/-- Rules R90 and R92: `OW_WRITE_BYTE` sends the eight bits of `DATA_IN`, bit 0 first, and succeeds. -/
def Obligations.WriteByteSendsDataInLowBitFirst : Prop :=
  ∀ s : State, ∃ t, exec .owWriteByte s = .next t ∧
    addsEvents s t ((List.range 8).flatMap fun i =>
      if s.dataIn.getLsbD i then [.drive0, .delayUs 10, .release, .delayUs 55]
      else [.drive0, .delayUs 65, .release, .delayUs 5]) ∧
    Reports t none ∧ t.line.drv = false ∧ t.line.answers = s.line.answers ∧ t.romId = s.romId ∧
    t.dataOut = s.dataOut ∧ HostSideKept s t

/-- Rules R91 and R93: whatever the line gives, `OW_READ_BYTE` makes eight read slots, the `i`-th sample becomes bit `i`
of `DATA_OUT`, and the command succeeds; the samples are the scripted answers when there are eight. -/
def Obligations.ReadByteAssemblesLowBitFirst : Prop :=
  ∀ s : State, ∃ (bs : List Bool) (t : State), exec .owReadByte s = .next t ∧ bs.length = 8 ∧
    addsEvents s t (bs.flatMap fun v => [.drive0, .delayUs 13, .release, .delayUs 40, .sample v]) ∧
    (∀ i : Nat, i < 8 → t.dataOut.getLsbD i = bs.getD i false) ∧
    (∀ (as rest : List Bool), as.length = 8 → s.line.answers = as ++ rest → bs = as ∧ t.line.answers = rest) ∧
    Reports t none ∧ t.line.drv = false ∧ t.romId = s.romId ∧ HostSideKept s t

/-- Durations of the bus operations (rule R177): a byte written takes 5 µs less for each bit that is 1, a byte read 424
µs, a `reset()` 2 µs more for each wait. -/
def Obligations.BusOperationDurations : Prop :=
  (∀ v : Byte, duration (byteWriteSlots v) + 5 * (bitsLsbFirst v).count true = 560) ∧
  (∀ v : Byte, duration (byteReadSlots v) = 424) ∧
  (∀ (k : Nat) (p : Bool), duration (resetEvents k p) = 960 + Config.tPds + 2 * k) ∧
  duration timeoutEvents = 250

/-- Durations of rule R177 for `SELECT`, `READ_ROW 3`, a Found `DISCOVER` and `WRITE_ROW 3` with payload 1 to 8, with
identifier `2D 01 02 03 04 05 06 57` and no wait, without and with the Phase 2 verify. The commit phase is 5 µs shorter
for each 1 bit of `CMD_COPY`: 23 509 µs and `T_PDS` for four of them, as in the table. -/
def Obligations.DurationsOfTheWorkedCommands : Prop :=
  ∀ (p1 p2 p3 : Bool) (v c0 c1 a0 a1 k0 k1 ack : Byte),
    duration (resetEvents 0 p1 ++ selectBytes workedId) = 5890 + Config.tPds ∧
    duration (resetEvents 0 p1 ++ selectBytes workedId ++ byteWriteSlots 0xF0#8 ++ byteWriteSlots (taLo 3)
      ++ byteWriteSlots (taHi 3) ++ byteReadSlots v) = 7964 + Config.tPds ∧
    duration (resetEvents 0 false ++ byteWriteSlots 0xF0#8 ++ (idBits workedId 64).flatMap searchIteration)
      = 12674 + Config.tPds ∧
    duration (resetEvents 0 p1 ++ phase1Events workedId (stagedBytes 3 workedPayload) c0 c1) = 12803 + Config.tPds ∧
    duration (resetEvents 0 p2 ++ phase2Events workedId [a0, a1, 0x07#8]) = 7702 + Config.tPds ∧
    duration (resetEvents 0 p3 ++ phase2Events workedId ([a0, a1, 0x07#8] ++ workedPayload.toList ++ [k0, k1]))
      = 7702 + Config.tPds + 4240 ∧
    duration (resetEvents 0 p3 ++ phase3Events workedId 0x18#8 0x00#8 0x07#8 ack)
      + 5 * (bitsLsbFirst Config.cmdCopy).count true = 23529 + Config.tPds

/-- Rules R161, R175, R177: when every delay a command requests takes its nominal time within `JITTER_US` and nothing
else takes time, the real time of the command differs from the nominal duration of the events it adds by at most
`JITTER_US` for each of its delays. For a bit there are 2 of them, for a byte 16, for `OW_RESET` 125 when it times out
and else 3 and one for each wait; a `WRITE_ROW` that succeeds takes no less than its 15 ms but for one `JITTER_US`. That
nothing else takes time is a premise (log 18), and that real time comes in whole microseconds is the model's choice
(log 26). -/
def Obligations.RealTimeStaysWithinTheJitterOfItsDelays : Prop :=
  ∀ (s t : State) (es : List Event) (ts : List Nat), addsEvents s t es → List.Forall₂ Event.admits es ts →
    (∀ i : Instr, exec i s = .next t → TimeWithin (duration es) (es.countP Event.isDelay) ts) ∧
    (∀ b : Bool, exec (.owWriteBit b) s = .next t → TimeWithin (if b then 65 else 70) 2 ts) ∧
    (exec .owReadBit s = .next t → TimeWithin 53 2 ts) ∧
    (exec .owWriteByte s = .next t → TimeWithin (560 - 5 * (bitsLsbFirst s.dataIn).count true) 16 ts) ∧
    (exec .owReadByte s = .next t → TimeWithin 424 16 ts) ∧
    (exec .owReset s = .next t →
      if t.err = 0x1#4 then TimeWithin 250 125 ts
      else ∃ k, k ≤ 125 ∧ TimeWithin (960 + Config.tPds + 2 * k) (k + 3) ts) ∧
    (∀ row : Nat, exec (.writeRow row) s = .next t → t.ok = true → 15000 ≤ ts.sum + Config.jitterUs)

/-! ## CRC engine -/

/-- Rules R96, R98, R102: both functions use `bytes[0..len)` alone, step once a byte in index order from the value 0,
and give 0 on a list of zeros. -/
def Obligations.CrcUsesTheCountedBytesInOrder : Prop :=
  (∀ (d e : List Byte) (x : Byte), crc8 (d ++ e) d.length = crc8 d d.length ∧
    crc16 (d ++ e) d.length = crc16 d d.length ∧
    crc8 (d ++ [x]) (d.length + 1) = crc8Step (crc8 d d.length) x ∧
    crc16 (d ++ [x]) (d.length + 1) = crc16Step (crc16 d d.length) x) ∧
  (∀ n : Nat, crc8 (List.replicate n 0x00#8) n = 0x00#8 ∧ crc16 (List.replicate n 0x00#8) n = 0x0000#16)

/-- Rule R101 (a), (b): a list followed by its own CRC has CRC 0. -/
def Obligations.CrcOfDataAndItsCrcIsZero : Prop :=
  ∀ d : List Byte,
    crc8 (d ++ [crc8 d d.length]) (d.length + 1) = 0x00#8 ∧
    crc16 (d ++ [(crc16 d d.length).extractLsb' 0 8, (crc16 d d.length).extractLsb' 8 8]) (d.length + 2) = 0x0000#16

/-- Rule R101 (c): a list followed by its inverted CRC pair has the CRC-16 residue `0xB001`. -/
def Obligations.CrcOfDataAndInvertedPairIsB001 : Prop :=
  ∀ d : List Byte,
    crc16 (d ++ [(invertedPair d d.length).1, (invertedPair d d.length).2]) (d.length + 2) = 0xB001#16

/-- The worked examples of rules R95, R97, R96, R98, R99, R100. -/
def Obligations.CrcWorkedExamples : Prop :=
  crc8Step 0x00#8 0x2D#8 = 0xDE#8 ∧ crc16Step 0x0000#16 0x0F#8 = 0x0440#16 ∧
  crc8 [0x2D#8, 0x01#8, 0x02#8, 0x03#8, 0x04#8, 0x05#8, 0x06#8] 7 = 0x57#8 ∧
  crc16 [0x0F#8, 0x18#8, 0x00#8, 0x01#8, 0x02#8, 0x03#8, 0x04#8, 0x05#8, 0x06#8, 0x07#8, 0x08#8] 11 = 0xAF40#16 ∧
  romCrcOk #v[0x2D#8, 0x01#8, 0x02#8, 0x03#8, 0x04#8, 0x05#8, 0x06#8, 0x57#8] = true ∧
  romCrcOk #v[0x2D#8, 0x01#8, 0x02#8, 0x03#8, 0x04#8, 0x05#8, 0x06#8, 0x56#8] = false ∧
  crc16PairOk [0x0F#8, 0x18#8, 0x00#8, 0x01#8, 0x02#8, 0x03#8, 0x04#8, 0x05#8, 0x06#8, 0x07#8, 0x08#8] 11
    0xBF#8 0x50#8 = true ∧
  crc16PairOk [0x0F#8, 0x18#8, 0x00#8, 0x01#8, 0x02#8, 0x03#8, 0x04#8, 0x05#8, 0x06#8, 0x07#8, 0x08#8] 11
    0x50#8 0xBF#8 = false

/-! ## ROM discovery -/

/-- Rules R105, R107, R109, R110: when one device with identifier `id` answers all 64 iterations, `DISCOVER` from a
released line emits the full search frame, checks the CRC and then the family, and writes `ROM_ID` on Found only. The
family is the literal `0x2D` (log 10). -/
def Obligations.SearchOfOneDevice : Prop :=
  ∀ (s : State) (id : Vector Byte 8) (rest : List Bool), s.line.drv = false →
    s.line.answers = presenceAnswers ++ searchAnswers (idBits id 64) ++ rest →
    ∃ t, exec .discover s = .next t ∧
      addsEvents s t (resetEvents 0 false ++ byteWriteSlots 0xF0#8 ++ (idBits id 64).flatMap searchIteration) ∧
      t.line.answers = rest ∧ t.line.drv = false ∧
      (romCrcOk id = false → Reports t (some .romCrcInvalid) ∧ t.romId = s.romId) ∧
      (romCrcOk id = true → id[0] ≠ 0x2D#8 → Reports t (some .familyMismatch) ∧ t.romId = s.romId) ∧
      (romCrcOk id = true → id[0] = 0x2D#8 → Reports t none ∧ t.romId = id) ∧
      t.dataOut = s.dataOut ∧ HostSideKept s t

/-- Rules R107, R108: from a released line, after any number of completed iterations below 64, two equal bits end the
search inside their iteration: (1,1) with NoPresence, (0,0) with BusCollision, no echo, `ROM_ID` untouched. -/
def Obligations.SearchEndsAtTheFirstEqualPair : Prop :=
  ∀ (s : State) (found : List Bool) (v : Bool) (rest : List Bool), found.length < 64 → s.line.drv = false →
    s.line.answers = presenceAnswers ++ searchAnswers found ++ v :: v :: rest →
    ∃ t, exec .discover s = .next t ∧
      addsEvents s t (resetEvents 0 false ++ byteWriteSlots 0xF0#8 ++ found.flatMap searchIteration
        ++ readSlot v ++ readSlot v) ∧
      Reports t (some (if v then .noPresence else .busCollision)) ∧ t.romId = s.romId ∧ t.line.drv = false ∧
      t.line.answers = rest ∧ t.dataOut = s.dataOut ∧ HostSideKept s t

/-- Rule R106: from a released line, a `reset()` that returns false ends `DISCOVER` with its cause and nothing more is
emitted; one that returns true is followed by the eight write slots of `0xF0`. -/
def Obligations.DiscoverAfterItsReset : Prop :=
  ∀ (s : State) (k : Nat) (rest : List Bool), k ≤ 125 → s.line.drv = false →
    (s.line.answers = List.replicate 126 false ++ rest →
      ∃ t, exec .discover s = .next t ∧ addsEvents s t timeoutEvents ∧ Reports t (some .busTimeout) ∧
        t.romId = s.romId ∧ t.line.answers = rest) ∧
    (s.line.answers = List.replicate k false ++ true :: true :: rest →
      ∃ t, exec .discover s = .next t ∧ addsEvents s t (resetEvents k true) ∧ Reports t (some .noPresence) ∧
        t.romId = s.romId ∧ t.line.answers = rest) ∧
    (s.line.answers = List.replicate k false ++ true :: false :: rest →
      ∃ t es, exec .discover s = .next t ∧ addsEvents s t (resetEvents k false ++ byteWriteSlots 0xF0#8 ++ es))

/-- Rules R106 to R110, R113: whatever the samples are, `DISCOVER` ends in one of four ways: its reset fails; two equal
bits end the search after fewer than 64 full iterations; or it has made 64 iterations, and the identifier whose bits it
echoed fails the CRC, fails the family, or is Found and stored. The family is the literal `0x2D` (log 10). -/
def Obligations.DiscoverFollowsItsRules : Prop :=
  ∀ s : State, ∃ (t : State) (es : List Event), exec .discover s = .next t ∧ addsEvents s t es ∧
    ((es = timeoutEvents ∧ Reports t (some .busTimeout) ∧ t.romId = s.romId) ∨
     (∃ k, k ≤ 125 ∧ es = resetEvents k true ∧ Reports t (some .noPresence) ∧ t.romId = s.romId) ∨
     (∃ (k : Nat) (found : List Bool) (v : Bool), k ≤ 125 ∧ found.length < 64 ∧
       es = resetEvents k false ++ byteWriteSlots 0xF0#8 ++ found.flatMap searchIteration ++ readSlot v ++ readSlot v ∧
       Reports t (some (if v then .noPresence else .busCollision)) ∧ t.romId = s.romId) ∨
     (∃ (k : Nat) (id : Vector Byte 8), k ≤ 125 ∧
       es = resetEvents k false ++ byteWriteSlots 0xF0#8 ++ (idBits id 64).flatMap searchIteration ∧
       (crc8 id.toList 7 ≠ id[7] → Reports t (some .romCrcInvalid) ∧ t.romId = s.romId) ∧
       (crc8 id.toList 7 = id[7] → id[0] ≠ 0x2D#8 → Reports t (some .familyMismatch) ∧ t.romId = s.romId) ∧
       (crc8 id.toList 7 = id[7] → id[0] = 0x2D#8 → Reports t none ∧ t.romId = id))) ∧
    t.dataOut = s.dataOut ∧ HostSideKept s t

/-- Rule R112: what `DISCOVER` emits is at most one `reset()`, with at most one pulse, and then write slots and read slots
alone, at most 8 + 64 of the first and at most 2 · 64 of the second; so it drives the line low at most 201 times. -/
def Obligations.DiscoverSlotBound : Prop :=
  ∀ s : State, ∃ (t : State) (r : List Event) (slots : List Slot), exec .discover s = .next t ∧
    addsEvents s t (r ++ slots.flatMap Slot.events) ∧ IsResetTrace r ∧ r.count .drive0 ≤ 1 ∧
    slots.countP Slot.isWrite ≤ 72 ∧ slots.countP Slot.isRead ≤ 128 ∧
    (r ++ slots.flatMap Slot.events).count .drive0 ≤ 201

/-! ## Device selector -/

/-- Rules R115, R116, R118: whatever its `reset()` returned, `SELECT` sends `0x55` and the eight bytes of `ROM_ID` in
order, and succeeds. -/
def Obligations.SelectAddressesTheStoredIdentifier : Prop :=
  ∀ s : State, ∃ (t : State) (r : List Event), exec .select s = .next t ∧
    addsEvents s t (r ++ byteWriteSlots 0x55#8 ++ s.romId.toList.flatMap byteWriteSlots) ∧
    (r = timeoutEvents ∨ ∃ k p, k ≤ 125 ∧ r = resetEvents k p) ∧ Reports t none ∧ t.line.drv = false ∧
    t.romId = s.romId ∧ t.dataOut = s.dataOut ∧ HostSideKept s t

/-! ## EEPROM transactions -/

/-- Rules R42, R67: the target address of each of the 16 rows, and its two bytes. -/
def Obligations.TargetAddressOfARow : Prop :=
  ∀ row : Nat, row < 16 →
    (targetAddress row).toNat = row * 8 ∧ (taLo row).toNat = row * 8 ∧ taHi row = 0x00#8 ∧
    (targetAddress row).extractLsb' 0 3 = 0#3

/-- Rules R70, R121: from a released line, `READ_ROW` sends the read-memory frame of its row and returns the byte read,
whatever the presence sample was. -/
def Obligations.ReadRowSendsItsFrame : Prop :=
  ∀ (s : State) (row k : Nat) (p : Bool) (v : Byte) (rest : List Bool), row < 16 → k ≤ 125 → s.line.drv = false →
    s.line.answers = List.replicate k false ++ true :: p :: (byteAnswers [v] ++ rest) →
    ∃ t, exec (.readRow row) s = .next t ∧
      addsEvents s t (resetEvents k p ++ selectBytes s.romId ++ byteWriteSlots 0xF0#8
        ++ byteWriteSlots (BitVec.ofNat 8 (row * 8)) ++ byteWriteSlots 0x00#8 ++ byteReadSlots v) ∧
      t.dataOut = v ∧ Reports t none ∧ t.line.drv = false ∧ t.line.answers = rest ∧ t.romId = s.romId ∧
      HostSideKept s t

/-- Rules R118, R121, R149: whatever the samples are, `READ_ROW` makes a `reset()` whose result it ignores, sends the
frame of its row, returns the byte of its read slots, and succeeds. -/
def Obligations.ReadRowNeverFails : Prop :=
  ∀ (s : State) (row : Nat), row < 16 →
    ∃ (t : State) (r : List Event), exec (.readRow row) s = .next t ∧ IsResetTrace r ∧
      addsEvents s t (r ++ selectBytes s.romId ++ byteWriteSlots 0xF0#8 ++ byteWriteSlots (taLo row)
        ++ byteWriteSlots (taHi row) ++ byteReadSlots t.dataOut) ∧
      Reports t none ∧ t.line.drv = false ∧ t.romId = s.romId ∧ HostSideKept s t

/-- Rule R55: a row above 15 is refused everywhere: by the meanings of both row commands, by the check of terms, by the
encoder and by the assembler. -/
def Obligations.RowsAbove15AreRefused : Prop :=
  ∀ (s : State) (row : Nat), 16 ≤ row →
    exec (.readRow row) s = .refused (.rowOutOfRange row) ∧ exec (.writeRow row) s = .refused (.rowOutOfRange row) ∧
    (Instr.readRow row).wellFormed = false ∧ (Instr.writeRow row).wellFormed = false ∧
    encode (.readRow row) = none ∧ encode (.writeRow row) = none ∧
    expandLine (.command (.readRow row)) = .error (.noSuchLine (.readRow row)) ∧
    expandLine (.command (.writeRow row)) = .error (.noSuchLine (.writeRow row))

/-- Rule R123: the eleven bytes of the Phase 1 buffer; the twelfth is left as it was. -/
def Obligations.StagedBufferBytes : Prop :=
  ∀ (row : Nat) (payload : Vector Byte 8) (buf : Vector Byte 12),
    (stageBuffer row payload buf).toList = [0x0F#8, taLo row, taHi row] ++ payload.toList ++ [buf[11]]

/-- Rule R126: from a released line that is high at each reset, a Phase 2 status byte other than `0x07` ends `WRITE_ROW`
with ScratchpadStatusInvalid after the third byte, whatever the Phase 1 pair was, and there is no Phase 3.
`WriteRowFollowsItsThreePhases` has every other line. -/
def Obligations.WriteRowFailsOnABadStatusByte : Prop :=
  ∀ (s : State) (row : Nat) (p1 p2 : Bool) (c0 c1 a0 a1 es : Byte) (rest : List Bool), row < 16 → es ≠ 0x07#8 →
    s.line.drv = false →
    s.line.answers = [true, p1] ++ byteAnswers [c0, c1] ++ [true, p2] ++ byteAnswers [a0, a1, es] ++ rest →
    ∃ t, exec (.writeRow row) s = .next t ∧
      addsEvents s t (resetEvents 0 p1 ++ phase1Events s.romId (stagedBytes row s.payload) c0 c1
        ++ resetEvents 0 p2 ++ phase2Events s.romId [a0, a1, es]) ∧
      Reports t (some .scratchpadStatusInvalid) ∧ t.line.drv = false ∧ t.line.answers = rest ∧ t.romId = s.romId ∧
      t.dataOut = s.dataOut ∧ HostSideKept s t

/-- Rules R124, R128 to R131: from a released line that is high at each reset, with a right Phase 1 pair and status
`0x07`, `WRITE_ROW` reads no payload back, commits with the echoed bytes, and succeeds exactly when the commit byte is
`0xAA`. -/
def Obligations.WriteRowWithoutVerify : Prop :=
  ∀ (s : State) (row : Nat) (p1 p2 p3 : Bool) (a0 a1 ack : Byte) (rest : List Bool), row < 16 →
    s.line.drv = false →
    s.line.answers = [true, p1]
        ++ byteAnswers [(invertedPair (stagedBytes row s.payload) 11).1, (invertedPair (stagedBytes row s.payload) 11).2]
        ++ [true, p2] ++ byteAnswers [a0, a1, 0x07#8] ++ [true, p3] ++ byteAnswers [ack] ++ rest →
    ∃ t, exec (.writeRow row) s = .next t ∧
      addsEvents s t (resetEvents 0 p1 ++ phase1Events s.romId (stagedBytes row s.payload)
          (invertedPair (stagedBytes row s.payload) 11).1 (invertedPair (stagedBytes row s.payload) 11).2
        ++ resetEvents 0 p2 ++ phase2Events s.romId [a0, a1, 0x07#8]
        ++ resetEvents 0 p3 ++ phase3Events s.romId a0 a1 0x07#8 ack) ∧
      Reports t (if ack = 0xAA#8 then none else some .commitFailed) ∧ t.line.drv = false ∧ t.line.answers = rest ∧
      t.romId = s.romId ∧ t.dataOut = s.dataOut ∧ HostSideKept s t

/-- Rules R127, R130, R131: from a released line that is high at each reset, with a wrong Phase 1 pair and status
`0x07`, `WRITE_ROW` reads back the payload and a pair; a right pair over `0xAA`, address, status and payload lets it
commit, a wrong one ends it with PayloadCrcInvalid and no Phase 3. -/
def Obligations.WriteRowWithVerify : Prop :=
  ∀ (s : State) (row : Nat) (p1 p2 : Bool) (c0 c1 a0 a1 k0 k1 : Byte) (ds : Vector Byte 8) (rest : List Bool),
    row < 16 → (c0, c1) ≠ invertedPair (stagedBytes row s.payload) 11 → s.line.drv = false →
    s.line.answers = [true, p1] ++ byteAnswers [c0, c1] ++ [true, p2]
        ++ byteAnswers ([a0, a1, 0x07#8] ++ ds.toList ++ [k0, k1]) ++ rest →
    ((k0, k1) ≠ invertedPair ([0xAA#8, a0, a1, 0x07#8] ++ ds.toList) 12 →
      ∃ t, exec (.writeRow row) s = .next t ∧
        addsEvents s t (resetEvents 0 p1 ++ phase1Events s.romId (stagedBytes row s.payload) c0 c1
          ++ resetEvents 0 p2 ++ phase2Events s.romId ([a0, a1, 0x07#8] ++ ds.toList ++ [k0, k1])) ∧
        Reports t (some .payloadCrcInvalid) ∧ t.line.answers = rest ∧ t.romId = s.romId ∧ t.dataOut = s.dataOut ∧
        HostSideKept s t) ∧
    ((k0, k1) = invertedPair ([0xAA#8, a0, a1, 0x07#8] ++ ds.toList) 12 →
      ∀ (p3 : Bool) (ack : Byte) (rest' : List Bool), rest = [true, p3] ++ byteAnswers [ack] ++ rest' →
      ∃ t, exec (.writeRow row) s = .next t ∧
        addsEvents s t (resetEvents 0 p1 ++ phase1Events s.romId (stagedBytes row s.payload) c0 c1
          ++ resetEvents 0 p2 ++ phase2Events s.romId ([a0, a1, 0x07#8] ++ ds.toList ++ [k0, k1])
          ++ resetEvents 0 p3 ++ phase3Events s.romId a0 a1 0x07#8 ack) ∧
        Reports t (if ack = 0xAA#8 then none else some .commitFailed) ∧ t.line.answers = rest' ∧
        t.romId = s.romId ∧ t.dataOut = s.dataOut ∧ HostSideKept s t)

/-- Rules R122 to R133: whatever the samples are, `WRITE_ROW` ends in one of four ways. `r1`, `r2`, `r3` are what its
three resets emit, their results ignored; `c0`, `c1` is the Phase 1 pair, `a0`, `a1`, `es` the three bytes of Phase 2,
`ds` and `k0`, `k1` the read-back payload and its pair, `ack` the commit byte. -/
def Obligations.WriteRowFollowsItsThreePhases : Prop :=
  ∀ (s : State) (row : Nat), row < 16 →
    ∃ (t : State) (r1 r2 r3 : List Event) (c0 c1 a0 a1 es k0 k1 ack : Byte) (ds : Vector Byte 8),
      exec (.writeRow row) s = .next t ∧ IsResetTrace r1 ∧ IsResetTrace r2 ∧ IsResetTrace r3 ∧
      ((es ≠ 0x07#8 ∧ Reports t (some .scratchpadStatusInvalid) ∧
          addsEvents s t (r1 ++ phase1Events s.romId (stagedBytes row s.payload) c0 c1 ++ r2
            ++ phase2Events s.romId [a0, a1, es])) ∨
       (es = 0x07#8 ∧ (c0, c1) ≠ invertedPair (stagedBytes row s.payload) 11 ∧
          (k0, k1) ≠ invertedPair ([0xAA#8, a0, a1, es] ++ ds.toList) 12 ∧ Reports t (some .payloadCrcInvalid) ∧
          addsEvents s t (r1 ++ phase1Events s.romId (stagedBytes row s.payload) c0 c1 ++ r2
            ++ phase2Events s.romId ([a0, a1, es] ++ ds.toList ++ [k0, k1]))) ∨
       (es = 0x07#8 ∧ (c0, c1) = invertedPair (stagedBytes row s.payload) 11 ∧
          Reports t (if ack = 0xAA#8 then none else some .commitFailed) ∧
          addsEvents s t (r1 ++ phase1Events s.romId (stagedBytes row s.payload) c0 c1 ++ r2
            ++ phase2Events s.romId [a0, a1, es] ++ r3 ++ phase3Events s.romId a0 a1 es ack)) ∨
       (es = 0x07#8 ∧ (c0, c1) ≠ invertedPair (stagedBytes row s.payload) 11 ∧
          (k0, k1) = invertedPair ([0xAA#8, a0, a1, es] ++ ds.toList) 12 ∧
          Reports t (if ack = 0xAA#8 then none else some .commitFailed) ∧
          addsEvents s t (r1 ++ phase1Events s.romId (stagedBytes row s.payload) c0 c1 ++ r2
            ++ phase2Events s.romId ([a0, a1, es] ++ ds.toList ++ [k0, k1]) ++ r3
            ++ phase3Events s.romId a0 a1 es ack))) ∧
      t.line.drv = false ∧ t.romId = s.romId ∧ t.dataOut = s.dataOut ∧ HostSideKept s t

/-- The end-to-end scenario (rules R51, R54 (d), R134 (h)): from a released line, against a device that stages, echoes,
programs and reads back, writing a row twice succeeds twice with the same trace, and reading the row then returns its
first byte. -/
def Obligations.WriteTwiceThenReadBack : Prop :=
  ∀ (s : State) (row : Nat) (rest : List Bool), row < 16 → s.line.drv = false →
    s.line.answers = writeAnswers row s.payload ++ writeAnswers row s.payload ++ readAnswers s.payload[0] ++ rest →
    ∃ t1 t2 t3 es, exec (.writeRow row) s = .next t1 ∧ exec (.writeRow row) t1 = .next t2 ∧
      exec (.readRow row) t2 = .next t3 ∧ addsEvents s t1 es ∧ addsEvents t1 t2 es ∧
      Reports t1 none ∧ Reports t2 none ∧ Reports t3 none ∧ t3.dataOut = s.payload[0] ∧ t3.romId = s.romId ∧
      t3.line.answers = rest

/-! ## Bus command bytes -/

/-- Rule R64, with the bus rows as instructions of their own (log 11): each of the six bus command bytes goes out as
eight write slots, bit 0 first, and changes no flag and no register the host sees. -/
def Obligations.BusCommandBytesGoOut : Prop :=
  ∀ (s : State) (i : Instr) (b : Byte),
    (i, b) ∈ [(Instr.searchRom, 0xF0#8), (.matchRom, 0x55#8), (.readMemory, 0xF0#8), (.writeScratchpad, 0x0F#8),
      (.readScratchpad, 0xAA#8), (.copy, Config.cmdCopy)] →
    encode i = some b ∧
    ∃ t, exec i s = .next t ∧ addsEvents s t (byteWriteSlots b) ∧ t.line.drv = false ∧
      t.line.answers = s.line.answers ∧ t.ok = s.ok ∧ t.err = s.err ∧ t.busy = s.busy ∧ t.seq = s.seq ∧
      t.romId = s.romId ∧ t.dataOut = s.dataOut ∧ HostSideKept s t

/-! ## All commands -/

/-- Rule R149: which command can end with which failure. -/
def Obligations.CommandsRaiseOnlyTheirFailures : Prop :=
  ∀ (i : Instr) (s t : State), i.layer = .host → exec i s = .next t →
    t.busy = false ∧ t.seq = Seq.idle ∧ (t.ok = true → t.err = 0x0#4) ∧
    (t.ok = false → t.err ∈ failureCodes i ∧ t.err ≠ 0x0#4)

/-- Rule R145: a command that fails leaves the data registers as they were, and a released line released; what it
emitted before stays. -/
def Obligations.FailureKeepsTheDataRegisters : Prop :=
  ∀ (i : Instr) (s t : State), i.layer = .host → exec i s = .next t → t.ok = false →
    t.romId = s.romId ∧ t.payload = s.payload ∧ t.dataIn = s.dataIn ∧ t.dataOut = s.dataOut ∧
    (s.line.drv = false → t.line.drv = false) ∧ ∃ es, addsEvents s t es

/-- Rules R11 to R14, R28: which command writes which register; the environment's answers are taken in order. -/
def Obligations.CommandFrame : Prop :=
  ∀ (i : Instr) (s t : State), exec i s = .next t →
    HostSideKept s t ∧ (t.romId = s.romId ∨ i = .discover ∧ t.ok = true) ∧
    (t.dataOut = s.dataOut ∨ i = .owReadBit ∨ i = .owReadByte ∨ ∃ row, i = .readRow row) ∧
    (∃ es, addsEvents s t es) ∧ (∃ n, t.line.answers = s.line.answers.drop n) ∧
    (s.line.drv = false → t.line.drv = false)

/-- Rule R29: no command reads a transient register before it has written it, so what one holds when a command starts
changes nothing. -/
def Obligations.TransientsDoNotInfluenceCommands : Prop :=
  ∀ (i : Instr) (s : State) (tr : Transient), (firstState i).isSome = true →
    exec i { s with tr := tr } = exec i s

/-! ## Invariants of every step -/

/-- The invariant holds at reset. -/
def Obligations.ResetStateMeetsTheInvariant : Prop := BlockInv State.reset

/-- Every step keeps the invariant (rules R11, R18, R20, R24, R81): whatever the host does, and wherever the block is in
a command. -/
def Obligations.EveryStepKeepsTheInvariant : Prop :=
  ∀ s t : State, BlockInv s → step s = .next t → BlockInv t

/-- Rules R20, R80, R89: every step only appends events; `LINE_DRV` follows `Drive0` and `Release` and, but for a
hardware reset, nothing else; and no `Sample` is taken while the block drives the line low. Were one taken, it would
read 0 (rule R89, log 15). -/
def Obligations.EveryStepObeysTheLineDiscipline : Prop :=
  (∀ s t : State, BlockInv s → step s = .next t →
    ∃ es, addsEvents s t es ∧ noSampleWhileDriving es s.line.drv = true ∧
      ((∀ rest, s.inputs ≠ .hardwareReset :: rest) → t.line.drv = driveAfter es s.line.drv)) ∧
  (∀ l : Line, l.drv = true → (sample l).1 = false ∧ (sample l).2.trace = .sample false :: l.trace)

/-- Rule R161: the only delays the block ever requests. -/
def Obligations.OnlyListedDelaysAreRequested : Prop :=
  ∀ s t : State, step s = .next t → ∃ es, addsEvents s t es ∧ ∀ e ∈ es, e.requested = true

/-- Rule R165: no step emits more events than the longest path, a `WRITE_ROW` with three 125-wait resets and the long
Phase 2: 3 · (257 + 72 · 4) + 16 · 32 + 16 · 40 + 1. -/
def Obligations.EveryStepEmitsBoundedEvents : Prop :=
  ∀ s t : State, step s = .next t → ∃ es, addsEvents s t es ∧ es.length ≤ 2788

/-! ## The sequencer -/

/-- Decision D32, both of whose granularities are in the model (log 3): a write of an assigned word to `CMD` leaves the
block busy, and the command then runs event by event until `BUSY` falls, ending in exactly the state the whole command
gives in one step, the same trace and the same registers, the free transient ones included (log 6); it ends after a
bounded number of moves, and `BUSY` is 1 before each of them (rules R19, R32, R165, R174). -/
def Obligations.SequencerRefinesEveryCommand : Prop :=
  ∀ (c : Byte) (s : State),
    (0x1#4 ≤ opField c ∧ opField c ≤ 0x9#4 → (accept c s).busy = true) ∧
    ∃ t, exec (decodeWord c) s = .next t ∧ t.busy = false ∧ RunsIn 4096 (accept c s) t

/-- Rules R19, R32, R145: accepting an assigned command word sets `BUSY` and leaves `OK`, `ERR`, `DATA_OUT`, `ROM_ID`,
the line and the host's registers as they were; and while the command runs, so does every move of the block that leaves
it busy, but for the line. -/
def Obligations.BusyBlockShowsTheOldResults : Prop :=
  (∀ (c : Byte) (s : State), 0x1#4 ≤ opField c ∧ opField c ≤ 0x9#4 →
    (accept c s).busy = true ∧ (accept c s).ok = s.ok ∧ (accept c s).err = s.err ∧ (accept c s).dataOut = s.dataOut ∧
    (accept c s).romId = s.romId ∧ (accept c s).line = s.line ∧ HostSideKept s (accept c s)) ∧
  (∀ s : State, (tick s).busy = true →
    (tick s).ok = s.ok ∧ (tick s).err = s.err ∧ (tick s).dataOut = s.dataOut ∧ (tick s).romId = s.romId ∧
    HostSideKept s (tick s))

/-- Rules R64, R106, R115, R121, R122, R125, R128: at its position of a frame the sequencer sends the bus command of that
position, and goes on to the next state. The bus rows as instructions, and what they leave in `SHIFT` and `BITCNT`, are
the model's reading (log 11); that `IDX` counts the bytes of `W2_RX3`, from 1, is the model's choice (log 14). -/
def Obligations.BusCommandsAtTheirPositions : Prop :=
  ∀ s : State, s.busy = true → s.seq.byte = none → s.seq.bit = none →
    (s.seq.cmd = .dCmd → s.seq.sel = none →
      ∃ t, exec .searchRom s = .next t ∧ RunsIn 41 s (goCmd .dRdId t)) ∧
    (s.seq.sel = some .sCmd →
      ∃ t, exec .matchRom s = .next t ∧ RunsIn 41 s (goSel .sRom { t with tr := { t.tr with idx := 0 } })) ∧
    (s.seq.cmd = .rdCmd → s.seq.sel = none →
      ∃ t, exec .readMemory s = .next t ∧ RunsIn 41 s (goCmd .rdTaLo t)) ∧
    (s.seq.cmd = .w1Tx → s.seq.sel = none → s.tr.idx = 0 → s.tr.buf[0] = writeScratchpadByte →
      ∃ t, exec .writeScratchpad s = .next t ∧ RunsIn 41 s (goCmd .w1Tx { t with tr := { t.tr with idx := 1 } })) ∧
    (s.seq.cmd = .w2Cmd → s.seq.sel = none →
      ∃ t, exec .readScratchpad s = .next t ∧
        RunsIn 41 s (goCmd .w2Rx3 { t with tr := { t.tr with buf := t.tr.buf.set 0 0xAA#8, idx := 1 } })) ∧
    (s.seq.cmd = .w3Tx → s.seq.sel = none → s.tr.idx = 0 → s.tr.buf[0] = Config.cmdCopy →
      ∃ t, exec .copy s = .next t ∧ RunsIn 41 s (goCmd .w3Tx { t with tr := { t.tr with idx := 1 } }))

/-- Rule R111: the moves of the discovery sequencer that emit nothing: `D_ZERO`, `D_DECIDE`, `D_CHECK_CRC`,
`D_CHECK_FAM`. The family is the literal `0x2D` (log 10). -/
def Obligations.DiscoveryDecisionMoves : Prop :=
  ∀ s : State, s.seq.sel = none → s.seq.byte = none → s.seq.bit = none →
    (s.seq.cmd = .dZero → (tick s).seq.cmd = .dReset ∧ (tick s).tr.acc = Vector.replicate 8 0x00#8 ∧
      (tick s).tr.b = 0#6 ∧ (tick s).line = s.line) ∧
    (s.seq.cmd = .dDecide → s.tr.idBit = s.tr.cmpBit →
      Reports (tick s) (some (if s.tr.idBit then .noPresence else .busCollision)) ∧ (tick s).romId = s.romId ∧
      (tick s).line = s.line) ∧
    (s.seq.cmd = .dDecide → s.tr.idBit ≠ s.tr.cmpBit →
      (tick s).seq.cmd = .dEcho ∧ (tick s).tr.acc = orIdBit s.tr.acc s.tr.b.toNat s.tr.idBit ∧
      (tick s).line = s.line) ∧
    (s.seq.cmd = .dCheckCrc → romCrcOk s.tr.acc = true →
      (tick s).seq.cmd = .dCheckFam ∧ (tick s).tr.acc = s.tr.acc ∧ (tick s).line = s.line) ∧
    (s.seq.cmd = .dCheckCrc → romCrcOk s.tr.acc = false →
      Reports (tick s) (some .romCrcInvalid) ∧ (tick s).romId = s.romId ∧ (tick s).line = s.line) ∧
    (s.seq.cmd = .dCheckFam → s.tr.acc[0] = 0x2D#8 →
      Reports (tick s) none ∧ (tick s).romId = s.tr.acc ∧ (tick s).line = s.line) ∧
    (s.seq.cmd = .dCheckFam → s.tr.acc[0] ≠ 0x2D#8 →
      Reports (tick s) (some .familyMismatch) ∧ (tick s).romId = s.romId ∧ (tick s).line = s.line)
end

