-- ==== Sys2Proof/Laws/State.lean ====
section
/-! SUPPORT. What each named update of the state does to each field: one lemma a field, true by `rfl`. -/

namespace Sys2Proof.Machine

variable (s : State) (l : Line)

/-! ## `endOk` -/

@[simp] theorem endOk_romId : (endOk s).romId = s.romId := rfl
@[simp] theorem endOk_payload : (endOk s).payload = s.payload := rfl
@[simp] theorem endOk_dataIn : (endOk s).dataIn = s.dataIn := rfl
@[simp] theorem endOk_dataOut : (endOk s).dataOut = s.dataOut := rfl
@[simp] theorem endOk_ok : (endOk s).ok = true := rfl
@[simp] theorem endOk_err : (endOk s).err = 0x0 := rfl
@[simp] theorem endOk_busy : (endOk s).busy = false := rfl
@[simp] theorem endOk_seq : (endOk s).seq = Seq.idle := rfl
@[simp] theorem endOk_tr : (endOk s).tr = s.tr := rfl
@[simp] theorem endOk_line : (endOk s).line = s.line := rfl
@[simp] theorem endOk_draws : (endOk s).draws = s.draws := rfl
@[simp] theorem endOk_inputs : (endOk s).inputs = s.inputs := rfl
@[simp] theorem endOk_readLog : (endOk s).readLog = s.readLog := rfl

/-! ## `raise` -/

@[simp] theorem raise_romId (f : Failure) : (raise f s).romId = s.romId := rfl
@[simp] theorem raise_payload (f : Failure) : (raise f s).payload = s.payload := rfl
@[simp] theorem raise_dataIn (f : Failure) : (raise f s).dataIn = s.dataIn := rfl
@[simp] theorem raise_dataOut (f : Failure) : (raise f s).dataOut = s.dataOut := rfl
@[simp] theorem raise_ok (f : Failure) : (raise f s).ok = false := rfl
@[simp] theorem raise_err (f : Failure) : (raise f s).err = f.code := rfl
@[simp] theorem raise_busy (f : Failure) : (raise f s).busy = false := rfl
@[simp] theorem raise_seq (f : Failure) : (raise f s).seq = Seq.idle := rfl
@[simp] theorem raise_tr (f : Failure) : (raise f s).tr = s.tr := rfl
@[simp] theorem raise_line (f : Failure) : (raise f s).line = s.line := rfl
@[simp] theorem raise_draws (f : Failure) : (raise f s).draws = s.draws := rfl
@[simp] theorem raise_inputs (f : Failure) : (raise f s).inputs = s.inputs := rfl
@[simp] theorem raise_readLog (f : Failure) : (raise f s).readLog = s.readLog := rfl

/-! ## `forgetTransients` -/

@[simp] theorem forgetTransients_romId : (forgetTransients s).romId = s.romId := rfl
@[simp] theorem forgetTransients_payload : (forgetTransients s).payload = s.payload := rfl
@[simp] theorem forgetTransients_dataIn : (forgetTransients s).dataIn = s.dataIn := rfl
@[simp] theorem forgetTransients_dataOut : (forgetTransients s).dataOut = s.dataOut := rfl
@[simp] theorem forgetTransients_ok : (forgetTransients s).ok = s.ok := rfl
@[simp] theorem forgetTransients_err : (forgetTransients s).err = s.err := rfl
@[simp] theorem forgetTransients_busy : (forgetTransients s).busy = s.busy := rfl
@[simp] theorem forgetTransients_seq : (forgetTransients s).seq = s.seq := rfl
@[simp] theorem forgetTransients_tr : (forgetTransients s).tr = Config.freeTransient s.draws := rfl
@[simp] theorem forgetTransients_line : (forgetTransients s).line = s.line := rfl
@[simp] theorem forgetTransients_draws : (forgetTransients s).draws = s.draws + 1 := rfl
@[simp] theorem forgetTransients_inputs : (forgetTransients s).inputs = s.inputs := rfl
@[simp] theorem forgetTransients_readLog : (forgetTransients s).readLog = s.readLog := rfl

/-! ## `settle_none` -/

@[simp] theorem settle_none_ok : (settle none s).ok = true := rfl
@[simp] theorem settle_none_err : (settle none s).err = 0x0 := rfl

/-! ## `settle_some` -/

@[simp] theorem settle_some_ok (f : Failure) : (settle (some f) s).ok = false := rfl
@[simp] theorem settle_some_err (f : Failure) : (settle (some f) s).err = f.code := rfl

/-! ## `hardwareReset` -/

@[simp] theorem hardwareReset_romId : (hardwareReset s).romId = Vector.replicate 8 0 := rfl
@[simp] theorem hardwareReset_payload : (hardwareReset s).payload = Vector.replicate 8 0 := rfl
@[simp] theorem hardwareReset_dataIn : (hardwareReset s).dataIn = 0 := rfl
@[simp] theorem hardwareReset_dataOut : (hardwareReset s).dataOut = 0 := rfl
@[simp] theorem hardwareReset_ok : (hardwareReset s).ok = false := rfl
@[simp] theorem hardwareReset_err : (hardwareReset s).err = 0 := rfl
@[simp] theorem hardwareReset_busy : (hardwareReset s).busy = false := rfl
@[simp] theorem hardwareReset_seq : (hardwareReset s).seq = Seq.idle := rfl
@[simp] theorem hardwareReset_tr : (hardwareReset s).tr = Config.freeTransient s.draws := rfl
@[simp] theorem hardwareReset_line : (hardwareReset s).line = { s.line with drv := false } := rfl
@[simp] theorem hardwareReset_draws : (hardwareReset s).draws = s.draws + 1 := rfl
@[simp] theorem hardwareReset_inputs : (hardwareReset s).inputs = s.inputs := rfl
@[simp] theorem hardwareReset_readLog : (hardwareReset s).readLog = s.readLog := rfl

/-! ## `goCmd` -/

@[simp] theorem goCmd_romId (q : CmdSeq) : (goCmd q s).romId = s.romId := rfl
@[simp] theorem goCmd_payload (q : CmdSeq) : (goCmd q s).payload = s.payload := rfl
@[simp] theorem goCmd_dataIn (q : CmdSeq) : (goCmd q s).dataIn = s.dataIn := rfl
@[simp] theorem goCmd_dataOut (q : CmdSeq) : (goCmd q s).dataOut = s.dataOut := rfl
@[simp] theorem goCmd_ok (q : CmdSeq) : (goCmd q s).ok = s.ok := rfl
@[simp] theorem goCmd_err (q : CmdSeq) : (goCmd q s).err = s.err := rfl
@[simp] theorem goCmd_busy (q : CmdSeq) : (goCmd q s).busy = s.busy := rfl
@[simp] theorem goCmd_seq (q : CmdSeq) : (goCmd q s).seq = { cmd := q, sel := none, byte := none, bit := none } := rfl
@[simp] theorem goCmd_tr (q : CmdSeq) : (goCmd q s).tr = s.tr := rfl
@[simp] theorem goCmd_line (q : CmdSeq) : (goCmd q s).line = s.line := rfl
@[simp] theorem goCmd_draws (q : CmdSeq) : (goCmd q s).draws = s.draws := rfl
@[simp] theorem goCmd_inputs (q : CmdSeq) : (goCmd q s).inputs = s.inputs := rfl
@[simp] theorem goCmd_readLog (q : CmdSeq) : (goCmd q s).readLog = s.readLog := rfl

/-! ## `goSel` -/

@[simp] theorem goSel_romId (q : SelSeq) : (goSel q s).romId = s.romId := rfl
@[simp] theorem goSel_payload (q : SelSeq) : (goSel q s).payload = s.payload := rfl
@[simp] theorem goSel_dataIn (q : SelSeq) : (goSel q s).dataIn = s.dataIn := rfl
@[simp] theorem goSel_dataOut (q : SelSeq) : (goSel q s).dataOut = s.dataOut := rfl
@[simp] theorem goSel_ok (q : SelSeq) : (goSel q s).ok = s.ok := rfl
@[simp] theorem goSel_err (q : SelSeq) : (goSel q s).err = s.err := rfl
@[simp] theorem goSel_busy (q : SelSeq) : (goSel q s).busy = s.busy := rfl
@[simp] theorem goSel_seq (q : SelSeq) : (goSel q s).seq = { s.seq with sel := some q, byte := none, bit := none } := rfl
@[simp] theorem goSel_tr (q : SelSeq) : (goSel q s).tr = s.tr := rfl
@[simp] theorem goSel_line (q : SelSeq) : (goSel q s).line = s.line := rfl
@[simp] theorem goSel_draws (q : SelSeq) : (goSel q s).draws = s.draws := rfl
@[simp] theorem goSel_inputs (q : SelSeq) : (goSel q s).inputs = s.inputs := rfl
@[simp] theorem goSel_readLog (q : SelSeq) : (goSel q s).readLog = s.readLog := rfl

/-! ## `goBit` -/

@[simp] theorem goBit_romId (q : BitSeq) : (goBit q s).romId = s.romId := rfl
@[simp] theorem goBit_payload (q : BitSeq) : (goBit q s).payload = s.payload := rfl
@[simp] theorem goBit_dataIn (q : BitSeq) : (goBit q s).dataIn = s.dataIn := rfl
@[simp] theorem goBit_dataOut (q : BitSeq) : (goBit q s).dataOut = s.dataOut := rfl
@[simp] theorem goBit_ok (q : BitSeq) : (goBit q s).ok = s.ok := rfl
@[simp] theorem goBit_err (q : BitSeq) : (goBit q s).err = s.err := rfl
@[simp] theorem goBit_busy (q : BitSeq) : (goBit q s).busy = s.busy := rfl
@[simp] theorem goBit_seq (q : BitSeq) : (goBit q s).seq = { s.seq with bit := some q } := rfl
@[simp] theorem goBit_tr (q : BitSeq) : (goBit q s).tr = s.tr := rfl
@[simp] theorem goBit_line (q : BitSeq) : (goBit q s).line = s.line := rfl
@[simp] theorem goBit_draws (q : BitSeq) : (goBit q s).draws = s.draws := rfl
@[simp] theorem goBit_inputs (q : BitSeq) : (goBit q s).inputs = s.inputs := rfl
@[simp] theorem goBit_readLog (q : BitSeq) : (goBit q s).readLog = s.readLog := rfl

/-! ## `emitEvent` -/

@[simp] theorem emitEvent_romId (e : Event) : (emitEvent e s).romId = s.romId := rfl
@[simp] theorem emitEvent_payload (e : Event) : (emitEvent e s).payload = s.payload := rfl
@[simp] theorem emitEvent_dataIn (e : Event) : (emitEvent e s).dataIn = s.dataIn := rfl
@[simp] theorem emitEvent_dataOut (e : Event) : (emitEvent e s).dataOut = s.dataOut := rfl
@[simp] theorem emitEvent_ok (e : Event) : (emitEvent e s).ok = s.ok := rfl
@[simp] theorem emitEvent_err (e : Event) : (emitEvent e s).err = s.err := rfl
@[simp] theorem emitEvent_busy (e : Event) : (emitEvent e s).busy = s.busy := rfl
@[simp] theorem emitEvent_seq (e : Event) : (emitEvent e s).seq = s.seq := rfl
@[simp] theorem emitEvent_tr (e : Event) : (emitEvent e s).tr = s.tr := rfl
@[simp] theorem emitEvent_line (e : Event) : (emitEvent e s).line = emit e s.line := rfl
@[simp] theorem emitEvent_draws (e : Event) : (emitEvent e s).draws = s.draws := rfl
@[simp] theorem emitEvent_inputs (e : Event) : (emitEvent e s).inputs = s.inputs := rfl
@[simp] theorem emitEvent_readLog (e : Event) : (emitEvent e s).readLog = s.readLog := rfl

/-! ## `callReset` -/

@[simp] theorem callReset_romId : (callReset s).romId = s.romId := rfl
@[simp] theorem callReset_payload : (callReset s).payload = s.payload := rfl
@[simp] theorem callReset_dataIn : (callReset s).dataIn = s.dataIn := rfl
@[simp] theorem callReset_dataOut : (callReset s).dataOut = s.dataOut := rfl
@[simp] theorem callReset_ok : (callReset s).ok = s.ok := rfl
@[simp] theorem callReset_err : (callReset s).err = s.err := rfl
@[simp] theorem callReset_busy : (callReset s).busy = s.busy := rfl
@[simp] theorem callReset_seq : (callReset s).seq = { s.seq with bit := some .waitSample } := rfl
@[simp] theorem callReset_tr : (callReset s).tr = { s.tr with retry := 0 } := rfl
@[simp] theorem callReset_line : (callReset s).line = s.line := rfl
@[simp] theorem callReset_draws : (callReset s).draws = s.draws := rfl
@[simp] theorem callReset_inputs : (callReset s).inputs = s.inputs := rfl
@[simp] theorem callReset_readLog : (callReset s).readLog = s.readLog := rfl

/-! ## `callWriteByte` -/

@[simp] theorem callWriteByte_romId (v : Byte) : (callWriteByte v s).romId = s.romId := rfl
@[simp] theorem callWriteByte_payload (v : Byte) : (callWriteByte v s).payload = s.payload := rfl
@[simp] theorem callWriteByte_dataIn (v : Byte) : (callWriteByte v s).dataIn = s.dataIn := rfl
@[simp] theorem callWriteByte_dataOut (v : Byte) : (callWriteByte v s).dataOut = s.dataOut := rfl
@[simp] theorem callWriteByte_ok (v : Byte) : (callWriteByte v s).ok = s.ok := rfl
@[simp] theorem callWriteByte_err (v : Byte) : (callWriteByte v s).err = s.err := rfl
@[simp] theorem callWriteByte_busy (v : Byte) : (callWriteByte v s).busy = s.busy := rfl
@[simp] theorem callWriteByte_seq (v : Byte) : (callWriteByte v s).seq = { s.seq with byte := some .tx, bit := none } := rfl
@[simp] theorem callWriteByte_tr (v : Byte) : (callWriteByte v s).tr = { s.tr with shift := v, bitCnt := 0 } := rfl
@[simp] theorem callWriteByte_line (v : Byte) : (callWriteByte v s).line = s.line := rfl
@[simp] theorem callWriteByte_draws (v : Byte) : (callWriteByte v s).draws = s.draws := rfl
@[simp] theorem callWriteByte_inputs (v : Byte) : (callWriteByte v s).inputs = s.inputs := rfl
@[simp] theorem callWriteByte_readLog (v : Byte) : (callWriteByte v s).readLog = s.readLog := rfl

/-! ## `callReadByte` -/

@[simp] theorem callReadByte_romId : (callReadByte s).romId = s.romId := rfl
@[simp] theorem callReadByte_payload : (callReadByte s).payload = s.payload := rfl
@[simp] theorem callReadByte_dataIn : (callReadByte s).dataIn = s.dataIn := rfl
@[simp] theorem callReadByte_dataOut : (callReadByte s).dataOut = s.dataOut := rfl
@[simp] theorem callReadByte_ok : (callReadByte s).ok = s.ok := rfl
@[simp] theorem callReadByte_err : (callReadByte s).err = s.err := rfl
@[simp] theorem callReadByte_busy : (callReadByte s).busy = s.busy := rfl
@[simp] theorem callReadByte_seq : (callReadByte s).seq = { s.seq with byte := some .rx, bit := none } := rfl
@[simp] theorem callReadByte_tr : (callReadByte s).tr = { s.tr with shift := 0, bitCnt := 0 } := rfl
@[simp] theorem callReadByte_line : (callReadByte s).line = s.line := rfl
@[simp] theorem callReadByte_draws : (callReadByte s).draws = s.draws := rfl
@[simp] theorem callReadByte_inputs : (callReadByte s).inputs = s.inputs := rfl
@[simp] theorem callReadByte_readLog : (callReadByte s).readLog = s.readLog := rfl

/-! ## `sendBusByte` -/

@[simp] theorem sendBusByte_romId (v : Byte) : (sendBusByte v s).romId = s.romId := rfl
@[simp] theorem sendBusByte_payload (v : Byte) : (sendBusByte v s).payload = s.payload := rfl
@[simp] theorem sendBusByte_dataIn (v : Byte) : (sendBusByte v s).dataIn = s.dataIn := rfl
@[simp] theorem sendBusByte_dataOut (v : Byte) : (sendBusByte v s).dataOut = s.dataOut := rfl
@[simp] theorem sendBusByte_ok (v : Byte) : (sendBusByte v s).ok = s.ok := rfl
@[simp] theorem sendBusByte_err (v : Byte) : (sendBusByte v s).err = s.err := rfl
@[simp] theorem sendBusByte_busy (v : Byte) : (sendBusByte v s).busy = s.busy := rfl
@[simp] theorem sendBusByte_seq (v : Byte) : (sendBusByte v s).seq = s.seq := rfl
@[simp] theorem sendBusByte_tr (v : Byte) : (sendBusByte v s).tr = { s.tr with shift := v, bitCnt := 7#3 } := rfl
@[simp] theorem sendBusByte_line (v : Byte) : (sendBusByte v s).line = writeByte v s.line := rfl
@[simp] theorem sendBusByte_draws (v : Byte) : (sendBusByte v s).draws = s.draws := rfl
@[simp] theorem sendBusByte_inputs (v : Byte) : (sendBusByte v s).inputs = s.inputs := rfl
@[simp] theorem sendBusByte_readLog (v : Byte) : (sendBusByte v s).readLog = s.readLog := rfl

/-! ## `hostRead` -/

@[simp] theorem hostRead_romId (reg : Byte) : (hostRead reg s).romId = s.romId := rfl
@[simp] theorem hostRead_payload (reg : Byte) : (hostRead reg s).payload = s.payload := rfl
@[simp] theorem hostRead_dataIn (reg : Byte) : (hostRead reg s).dataIn = s.dataIn := rfl
@[simp] theorem hostRead_dataOut (reg : Byte) : (hostRead reg s).dataOut = s.dataOut := rfl
@[simp] theorem hostRead_ok (reg : Byte) : (hostRead reg s).ok = s.ok := rfl
@[simp] theorem hostRead_err (reg : Byte) : (hostRead reg s).err = s.err := rfl
@[simp] theorem hostRead_busy (reg : Byte) : (hostRead reg s).busy = s.busy := rfl
@[simp] theorem hostRead_seq (reg : Byte) : (hostRead reg s).seq = s.seq := rfl
@[simp] theorem hostRead_tr (reg : Byte) : (hostRead reg s).tr = s.tr := rfl
@[simp] theorem hostRead_line (reg : Byte) : (hostRead reg s).line = s.line := rfl
@[simp] theorem hostRead_draws (reg : Byte) : (hostRead reg s).draws = s.draws := rfl
@[simp] theorem hostRead_inputs (reg : Byte) : (hostRead reg s).inputs = s.inputs := rfl
@[simp] theorem hostRead_readLog (reg : Byte) : (hostRead reg s).readLog = s.readLog ++ [readReg reg s] := rfl

/-! ## `emit` -/

@[simp] theorem emit_drv (e : Event) : (emit e l).drv = e.driveAfter l.drv := rfl
@[simp] theorem emit_trace (e : Event) : (emit e l).trace = e :: l.trace := rfl
@[simp] theorem emit_answers (e : Event) : (emit e l).answers = l.answers := rfl


/-! ## `settle`, whichever way the command ended -/

@[simp] theorem settle_romId (c : Option Failure) : (settle c s).romId = s.romId := by cases c <;> rfl
@[simp] theorem settle_payload (c : Option Failure) : (settle c s).payload = s.payload := by cases c <;> rfl
@[simp] theorem settle_dataIn (c : Option Failure) : (settle c s).dataIn = s.dataIn := by cases c <;> rfl
@[simp] theorem settle_dataOut (c : Option Failure) : (settle c s).dataOut = s.dataOut := by cases c <;> rfl
@[simp] theorem settle_busy (c : Option Failure) : (settle c s).busy = false := by cases c <;> rfl
@[simp] theorem settle_seq (c : Option Failure) : (settle c s).seq = Seq.idle := by cases c <;> rfl
@[simp] theorem settle_tr (c : Option Failure) : (settle c s).tr = Config.freeTransient s.draws := by cases c <;> rfl
@[simp] theorem settle_line (c : Option Failure) : (settle c s).line = s.line := by cases c <;> rfl
@[simp] theorem settle_draws (c : Option Failure) : (settle c s).draws = s.draws + 1 := by cases c <;> rfl
@[simp] theorem settle_inputs (c : Option Failure) : (settle c s).inputs = s.inputs := by cases c <;> rfl
@[simp] theorem settle_readLog (c : Option Failure) : (settle c s).readLog = s.readLog := by cases c <;> rfl

/-- `ERR` after a command ends, whichever way. -/
theorem settle_err (c : Option Failure) : (settle c s).err = (c.map Failure.code).getD 0x0 := by
  cases c <;> rfl

/-- `OK` after a command ends, whichever way. -/
theorem settle_ok (c : Option Failure) : (settle c s).ok = c.isNone := by
  cases c <;> rfl

end Sys2Proof.Machine
end

