-- ==== Sys2Proof/Laws/Line.lean ====
section
/-! SUPPORT. One specification lemma for each operation on the line: what it emits, what it answers, what it leaves. -/

namespace Sys2Proof.Machine

/-! ## Lists of events -/

@[simp] theorem driveAfter_nil (d : Bool) : driveAfter [] d = d := rfl
@[simp] theorem driveAfter_cons (e : Event) (es : List Event) (d : Bool) :
    driveAfter (e :: es) d = driveAfter es (e.driveAfter d) := rfl

theorem driveAfter_append (es fs : List Event) (d : Bool) :
    driveAfter (es ++ fs) d = driveAfter fs (driveAfter es d) := by
  induction es generalizing d with
  | nil => rfl
  | cons e es ih => simp [ih]

theorem noSample_append (es fs : List Event) (d : Bool) :
    noSampleWhileDriving (es ++ fs) d
      = (noSampleWhileDriving es d && noSampleWhileDriving fs (driveAfter es d)) := by
  induction es generalizing d with
  | nil => simp [noSampleWhileDriving]
  | cons e es ih => cases e <;> simp [noSampleWhileDriving, ih, Bool.and_assoc]

theorem duration_append (es fs : List Event) : duration (es ++ fs) = duration es + duration fs := by
  simp [duration]

/-! ## `emits`, `sample` -/

/-- `emits` appends its events and applies their effect on `LINE_DRV`. -/
theorem emits_eq (es : List Event) (l : Line) :
    emits es l = { drv := driveAfter es l.drv, trace := es.reverse ++ l.trace, answers := l.answers } := by
  induction es generalizing l with
  | nil => rfl
  | cons e es ih => simp [emits, ih]

/-- `sample` emits one `Sample` event with its answer, and takes one scripted answer if there is one. -/
theorem sample_line (l : Line) :
    (sample l).2 = { drv := l.drv, trace := .sample (sample l).1 :: l.trace, answers := l.answers.tail } := by
  simp [sample, emit, Event.driveAfter]

/-- While the block drives the line low, a sample is 0 (rule R89). -/
theorem sampleValue_driving (l : Line) (h : l.drv = true) : sampleValue l = false := if_pos h

/-- On a released line the sample is the scripted answer (rule R4). -/
theorem sampleValue_scripted (l : Line) (hd : l.drv = false) (v : Bool) (rest : List Bool) (h : l.answers = v :: rest) :
    sampleValue l = v := by
  simp [sampleValue, hd, h]

/-- A scripted 0 is sampled whether the block drives or not. -/
theorem sampleValue_scripted_low (l : Line) (rest : List Bool) (h : l.answers = false :: rest) :
    sampleValue l = false := by
  cases hd : l.drv <;> simp [sampleValue, hd, h]

/-- A scripted answer is the one given, on a released line. -/
theorem sample_scripted (l : Line) (hd : l.drv = false) (v : Bool) (rest : List Bool) (h : l.answers = v :: rest) :
    sample l = (v, { drv := false, trace := .sample v :: l.trace, answers := rest }) := by
  simp [sample, sampleValue_scripted l hd v rest h, h, hd, emit, Event.driveAfter]

/-- A scripted 0 is the one given, on any line. -/
theorem sample_scripted_low (l : Line) (rest : List Bool) (h : l.answers = false :: rest) :
    sample l = (false, { drv := l.drv, trace := .sample false :: l.trace, answers := rest }) := by
  simp [sample, sampleValue_scripted_low l rest h, h, emit, Event.driveAfter]

/-! ## Bit operations -/

/-- `writeBit` emits one write slot and ends with the line released (rule R83). -/
theorem writeBit_eq (b : Bool) (l : Line) :
    writeBit b l = { drv := false, trace := (writeSlot b).reverse ++ l.trace, answers := l.answers } := by
  simp [writeBit, emits_eq, writeSlot, Event.driveAfter]

/-- `readBit` emits one read slot with its result and ends with the line released (rule R84). -/
theorem readBit_line (l : Line) :
    (readBit l).2
      = { drv := false, trace := (readSlot (readBit l).1).reverse ++ l.trace, answers := l.answers.tail } := by
  simp [readBit, sample_line, emits_eq, readSlot, Event.driveAfter]

/-- The same, with the sample named. -/
theorem readBit_cases (l : Line) :
    ∃ v, readBit l = (v, { drv := false, trace := (readSlot v).reverse ++ l.trace, answers := l.answers.tail }) :=
  ⟨(readBit l).1, by rw [← readBit_line]⟩

theorem readBit_scripted (l : Line) (v : Bool) (rest : List Bool) (h : l.answers = v :: rest) :
    readBit l = (v, { drv := false, trace := (readSlot v).reverse ++ l.trace, answers := rest }) := by
  have hs := sample_scripted (emits [.drive0, .delayUs readLowUs, .release, .delayUs readWaitUs] l)
    (by simp [emits_eq, Event.driveAfter]) v rest (by simp [emits_eq, h])
  rw [readBit, hs]
  simp [emits_eq, readSlot]

/-- The presence sample falls on a released line (rule R82). -/
theorem presencePulse_scripted (l : Line) (p : Bool) (rest : List Bool) (h : l.answers = p :: rest) :
    presencePulse l = (p, { drv := false
                            trace := [.delayUs rstRecUs, .sample p, .delayUs Config.tPds, .release, .delayUs rstLowUs,
                              .drive0] ++ l.trace
                            answers := rest }) := by
  have hs := sample_scripted (emits [.drive0, .delayUs rstLowUs, .release, .delayUs Config.tPds] l)
    (by simp [emits_eq, Event.driveAfter]) p rest (by simp [emits_eq, h])
  rw [presencePulse, hs]
  simp [emits_eq, emit, Event.driveAfter]

theorem driveAfter_writeSlot (b d : Bool) : driveAfter (writeSlot b) d = false := rfl
theorem driveAfter_readSlot (v d : Bool) : driveAfter (readSlot v) d = false := rfl

/-! ## `reset()` -/

@[simp] theorem lowWaits_zero : lowWaits 0 = [] := rfl
theorem lowWaits_succ (k : Nat) :
    lowWaits (k + 1) = [.sample false, .delayUs rstRetryUs] ++ lowWaits k := by
  simp [lowWaits, List.replicate_succ]

theorem duration_lowWaits (k : Nat) : duration (lowWaits k) = 2 * k := by
  induction k with
  | zero => rfl
  | succ k ih => rw [lowWaits_succ, duration_append, ih]; simp [duration, Event.us, rstRetryUs]; omega

/-- Stated for any `n` in place of `T_PDS`: arithmetic over the opaque constant itself is slow. -/
theorem duration_presencePulse (n : Nat) (p : Bool) :
    duration [.sample true, .drive0, .delayUs rstLowUs, .release, .delayUs n, .sample p, .delayUs rstRecUs]
      = 960 + n := by
  simp [duration, Event.us, rstLowUs, rstRecUs]; omega

theorem duration_readSlot (v : Bool) : duration (readSlot v) = 53 := rfl

theorem driveAfter_lowWaits (k : Nat) (d : Bool) : driveAfter (lowWaits k) d = d := by
  induction k with
  | zero => rfl
  | succ k ih => simp [lowWaits_succ, Event.driveAfter, ih]

/-- The float-high wait: after `k` waits the line is high, or it is low at every sample (rule R82). -/
theorem waitHigh_cases (n : Nat) (l : Line) :
    ∃ k, k ≤ n ∧ (waitHigh n l).2.drv = l.drv ∧
      (((waitHigh n l).1 = true ∧ (waitHigh n l).2.trace = (lowWaits k ++ [Event.sample true]).reverse ++ l.trace) ∨
       ((waitHigh n l).1 = false ∧ k = n
          ∧ (waitHigh n l).2.trace = (lowWaits n ++ [Event.sample false]).reverse ++ l.trace)) := by
  induction n generalizing l with
  | zero =>
    refine ⟨0, Nat.le_refl 0, ?_⟩
    cases h : (sample l).1 <;> simp [waitHigh, sample_line, h]
  | succ n ih =>
    cases h : (sample l).1 with
    | true => exact ⟨0, Nat.zero_le _, by simp [waitHigh, sample_line, h]⟩
    | false =>
      obtain ⟨k, hk, hd, hc⟩ := ih (emit (.delayUs rstRetryUs) (sample l).2)
      refine ⟨k + 1, Nat.succ_le_succ hk, ?_, ?_⟩
      · simpa [waitHigh, h, sample_line, Event.driveAfter] using hd
      · simpa [waitHigh, h, sample_line, lowWaits_succ, Event.driveAfter] using hc

/-- `reset()` (rule R82): a pulse with its presence sample after at most 125 waits, or a timeout with no pulse. -/
theorem reset_cases (l : Line) :
    (∃ k p, k ≤ rstRetryN ∧ (reset l).1 = (if p then some .noPresence else none)
        ∧ (reset l).2.drv = false ∧ (reset l).2.trace = (resetEvents k p).reverse ++ l.trace) ∨
    ((reset l).1 = some .busTimeout ∧ (reset l).2.drv = l.drv
        ∧ (reset l).2.trace = timeoutEvents.reverse ++ l.trace) := by
  obtain ⟨k, hk, hd, (⟨hv, ht⟩ | ⟨hv, -, ht⟩)⟩ := waitHigh_cases rstRetryN l
  · refine .inl ⟨k, (presencePulse (waitHigh rstRetryN l).2).1, hk, ?_⟩
    simp [reset, hv, presencePulse, sample_line, emits_eq, Event.driveAfter, ht, resetEvents]
  · exact .inr (by simp [reset, hv, hd, ht, timeoutEvents])

/-- The float-high wait on scripted answers: `k` samples of 0, then 1. -/
theorem waitHigh_scripted (n k : Nat) (hk : k ≤ n) (l : Line) (hd : l.drv = false) (rest : List Bool)
    (h : l.answers = List.replicate k false ++ true :: rest) :
    waitHigh n l
      = (true, { drv := false, trace := (lowWaits k ++ [Event.sample true]).reverse ++ l.trace, answers := rest }) := by
  induction k generalizing n l with
  | zero =>
    have hs := sample_scripted l hd true rest (by simpa using h)
    cases n <;> simp [waitHigh, hs]
  | succ k ih =>
    obtain ⟨n, rfl⟩ : ∃ m, n = m + 1 := ⟨n - 1, by omega⟩
    have hs := sample_scripted l hd false (List.replicate k false ++ true :: rest)
      (by simpa [List.replicate_succ] using h)
    simp only [waitHigh, hs, Bool.false_eq_true, if_false]
    rw [ih n (by omega)]
    · simp [lowWaits_succ, emit]
    · simp [emit, Event.driveAfter]
    · simp [emit]

/-- `reset()` from a released line, on scripted answers: `k` samples of 0, a 1, then the presence sample `p` (rule R82). -/
theorem reset_scripted (k : Nat) (hk : k ≤ rstRetryN) (p : Bool) (l : Line) (hd : l.drv = false) (rest : List Bool)
    (h : l.answers = List.replicate k false ++ true :: p :: rest) :
    reset l = (if p then some .noPresence else none,
      { drv := false, trace := (resetEvents k p).reverse ++ l.trace, answers := rest }) := by
  rw [reset, waitHigh_scripted _ k hk l hd (p :: rest) h]
  dsimp only
  rw [presencePulse_scripted _ p rest rfl]
  simp [resetEvents]

/-- `reset()` with the line high at once. -/
theorem reset_scripted_high (p : Bool) (l : Line) (hd : l.drv = false) (rest : List Bool) (h : l.answers = true :: p :: rest) :
    reset l = (if p then some .noPresence else none,
      { drv := false, trace := (resetEvents 0 p).reverse ++ l.trace, answers := rest }) :=
  reset_scripted 0 (Nat.zero_le _) p l hd rest h

/-- The float-high wait on scripted answers that are all 0. -/
theorem waitHigh_scripted_low (n : Nat) (l : Line) (rest : List Bool)
    (h : l.answers = List.replicate (n + 1) false ++ rest) :
    waitHigh n l
      = (false, { drv := l.drv, trace := (lowWaits n ++ [Event.sample false]).reverse ++ l.trace, answers := rest }) := by
  induction n generalizing l with
  | zero => simp [waitHigh, sample_scripted_low l rest (by simpa using h)]
  | succ n ih =>
    have hs := sample_scripted_low l (List.replicate (n + 1) false ++ rest)
      (by rw [h, List.replicate_succ, List.cons_append])
    simp only [waitHigh, hs, Bool.false_eq_true, if_false]
    rw [ih]
    · simp [lowWaits_succ, emit, Event.driveAfter]
    · simp [emit]

/-- `reset()` on a line that samples 0 all 126 times (rule R82). -/
theorem reset_scripted_low (l : Line) (rest : List Bool)
    (h : l.answers = List.replicate (rstRetryN + 1) false ++ rest) :
    reset l
      = (some .busTimeout, { drv := l.drv, trace := timeoutEvents.reverse ++ l.trace, answers := rest }) := by
  simp [reset, waitHigh_scripted_low rstRetryN l rest h, timeoutEvents]

/-! ## Bytes -/

theorem writeBits_eq (bs : List Bool) (l : Line) (h : bs ≠ []) :
    writeBits bs l = { drv := false, trace := (bs.flatMap writeSlot).reverse ++ l.trace, answers := l.answers } := by
  induction bs generalizing l with
  | nil => exact absurd rfl h
  | cons b bs ih =>
    cases bs with
    | nil => simp [writeBits, writeBit_eq]
    | cons c cs => rw [writeBits, ih _ (by simp)]; simp [writeBit_eq]

theorem bitsLsbFirst_eq (v : Byte) : bitsLsbFirst v = [v.getLsbD 0, v.getLsbD 1, v.getLsbD 2, v.getLsbD 3,
    v.getLsbD 4, v.getLsbD 5, v.getLsbD 6, v.getLsbD 7] := rfl

@[simp] theorem bitsLsbFirst_length (v : Byte) : (bitsLsbFirst v).length = 8 := rfl

/-- `writeByte` emits the eight write slots of the byte (rule R90). -/
theorem writeByte_eq (v : Byte) (l : Line) :
    writeByte v l = { drv := false, trace := (byteWriteSlots v).reverse ++ l.trace, answers := l.answers } :=
  writeBits_eq _ l (by simp [bitsLsbFirst_eq])

/-- Bits ORed into positions `i`, `i + 1`, … of a byte (rule R91). -/
def orBits : Nat → Byte → List Bool → Byte
  | _, x, [] => x
  | i, x, b :: bs => orBits (i + 1) (orBit x i b) bs

/-- What one `SHIFT <- SHIFT | (zext_8(r) << BITCNT)` does to bit `j` (rule R91). -/
theorem getLsbD_orBit (x : Byte) (i j : Nat) (r : Bool) (hj : j < 8) :
    (orBit x i r).getLsbD j = (x.getLsbD j || (decide (j = i) && r)) := by
  cases r
  · simp [orBit, zext8]
  · rcases Nat.lt_trichotomy j i with h | h | h
    · simp [orBit, zext8, hj, h, Nat.ne_of_lt h]
    · simp [orBit, zext8, h, h ▸ hj]
    · have h1 : ¬ j < i := Nat.not_lt_of_lt h
      have h2 : j - i ≠ 0 := Nat.sub_ne_zero_of_lt h
      simp [orBit, zext8, hj, h1, h2, Nat.ne_of_gt h]

/-- Received bits land in the positions from `i` on, in order of arrival, and every other bit stays (rules R43, R91). -/
theorem getLsbD_orBits (bs : List Bool) (i : Nat) (x : Byte) (j : Nat) (hj : j < 8) :
    (orBits i x bs).getLsbD j = (x.getLsbD j || (decide (i ≤ j) && bs.getD (j - i) false)) := by
  induction bs generalizing i x with
  | nil => simp [orBits]
  | cons r bs ih =>
    rw [orBits, ih, getLsbD_orBit x i j r hj]
    rcases Nat.lt_trichotomy j i with h | rfl | h
    · simp [Nat.ne_of_lt h, Nat.not_le_of_lt h, Nat.not_le_of_lt (Nat.lt_succ_of_lt h)]
    · simp
    · obtain ⟨d, rfl⟩ : ∃ d, j = i + 1 + d := ⟨j - (i + 1), by omega⟩
      simp [show i + 1 + d ≠ i by omega, show i ≤ i + 1 + d by omega, show i + 1 + d - i = d + 1 by omega]

/-- ORing a byte's bits into their positions gives the byte (rule R91). -/
theorem orBits_bitsLsbFirst (v : Byte) : orBits 0 0x00#8 (bitsLsbFirst v) = v := by
  apply BitVec.eq_of_getLsbD_eq
  intro j hj
  rw [getLsbD_orBits _ _ _ _ hj]
  simp [bitsLsbFirst, hj]

/-- The bits of a byte built from eight received bits are those bits (rule R43). -/
theorem bitsLsbFirst_orBits_of_length (bs : List Bool) (h : bs.length = 8) :
    bitsLsbFirst (orBits 0 0x00#8 bs) = bs := by
  apply List.ext_getElem
  · rw [bitsLsbFirst_length, h]
  · intro j h1 h2
    simp [bitsLsbFirst, getLsbD_orBits bs 0 0x00#8 j (h ▸ h2), h2]

/-- `readBits` emits the read slots of the bits it ORs in. -/
theorem readBits_cases (n i : Nat) (x : Byte) (l : Line) :
    ∃ bs : List Bool, bs.length = n ∧ readBits n i x l = (orBits i x bs,
      { drv := driveAfter (bs.flatMap readSlot) l.drv, trace := (bs.flatMap readSlot).reverse ++ l.trace
        answers := l.answers.drop n }) := by
  induction n generalizing i x l with
  | zero => exact ⟨[], rfl, rfl⟩
  | succ n ih =>
    obtain ⟨bs, hl, h⟩ := ih (i + 1) (orBit x i (readBit l).1) (readBit l).2
    refine ⟨(readBit l).1 :: bs, by simp [hl], ?_⟩
    rw [readBits, h]
    simp [readBit_line, orBits, driveAfter_append, driveAfter_readSlot]

/-- `readBits` on scripted answers. -/
theorem readBits_scripted (bs : List Bool) (i : Nat) (x : Byte) (l : Line) (rest : List Bool)
    (h : l.answers = bs ++ rest) :
    readBits bs.length i x l = (orBits i x bs,
      { drv := driveAfter (bs.flatMap readSlot) l.drv, trace := (bs.flatMap readSlot).reverse ++ l.trace
        answers := rest }) := by
  induction bs generalizing i x l with
  | nil => simp at h; simp [readBits, orBits, ← h]
  | cons b bs ih =>
    simp only [List.length_cons, readBits, readBit_scripted l b (bs ++ rest) h]
    rw [ih _ _ _ rfl]
    simp [orBits, driveAfter_append, driveAfter_readSlot]

@[simp] theorem Slot.events_write (b : Bool) : (Slot.write b).events = writeSlot b := rfl
@[simp] theorem Slot.events_read (v : Bool) : (Slot.read v).events = readSlot v := rfl

/-- The slots of a byte written, and of a completed search iteration (rules R90, R107). -/
theorem byteWriteSlots_eq_events (v : Byte) :
    byteWriteSlots v = ((bitsLsbFirst v).map Slot.write).flatMap Slot.events := by
  simp [byteWriteSlots, List.flatMap_map]

theorem searchIteration_eq_events (v : Bool) :
    searchIteration v = [Slot.read v, .read (!v), .write v].flatMap Slot.events := by
  simp [searchIteration]

theorem driveAfter_byteReadSlots (v : Byte) (d : Bool) : driveAfter (byteReadSlots v) d = false := by
  simp [byteReadSlots, bitsLsbFirst_eq, driveAfter_append, driveAfter_readSlot]

theorem driveAfter_byteWriteSlots (v : Byte) (d : Bool) : driveAfter (byteWriteSlots v) d = false := by
  simp [byteWriteSlots, bitsLsbFirst_eq, driveAfter_append, driveAfter_writeSlot]

/-- `readByte` emits the eight read slots of its result and takes eight scripted answers (rule R91). -/
theorem readByte_line (l : Line) :
    (readByte l).2 = { drv := false, trace := (byteReadSlots (readByte l).1).reverse ++ l.trace
                       answers := l.answers.drop 8 } := by
  obtain ⟨bs, hl, h⟩ := readBits_cases 8 0 0x00#8 l
  have hb : byteReadSlots (orBits 0 0x00#8 bs) = bs.flatMap readSlot := by
    rw [byteReadSlots, bitsLsbFirst_orBits_of_length bs hl]
  simp [readByte, h, hb, ← driveAfter_byteReadSlots (orBits 0 0x00#8 bs) l.drv]

/-- The same, with the byte named. -/
theorem readByte_cases (l : Line) :
    ∃ v, readByte l
      = (v, { drv := false, trace := (byteReadSlots v).reverse ++ l.trace, answers := l.answers.drop 8 }) :=
  ⟨(readByte l).1, by rw [← readByte_line]⟩

/-- `readByte` on scripted answers that are the bits of `v` (rule R91). -/
theorem readByte_scripted (v : Byte) (l : Line) (rest : List Bool) (h : l.answers = bitsLsbFirst v ++ rest) :
    readByte l
      = (v, { drv := false, trace := (byteReadSlots v).reverse ++ l.trace, answers := rest }) := by
  have hs := readBits_scripted (bitsLsbFirst v) 0 0x00#8 l rest h
  rw [bitsLsbFirst_length, orBits_bitsLsbFirst] at hs
  rw [readByte, hs, ← byteReadSlots, driveAfter_byteReadSlots]

/-- `readByte` on any eight scripted answers: bit `i` of the result is the `i`-th of them (rule R43). -/
theorem readByte_scripted_bits (bs : List Bool) (hl : bs.length = 8) (l : Line) (rest : List Bool)
    (h : l.answers = bs ++ rest) :
    (readByte l).1 = orBits 0 0x00#8 bs ∧ bitsLsbFirst (readByte l).1 = bs := by
  have hb := bitsLsbFirst_orBits_of_length bs hl
  have hs := readByte_scripted (orBits 0 0x00#8 bs) l rest (by rw [hb, h])
  exact ⟨by rw [hs], by rw [hs, hb]⟩

/-! ## Runs of bytes -/

/-- `writeSpan` sends bytes `i` to `i + n - 1` of the array. -/
theorem writeSpan_eq {k : Nat} (v : Vector Byte k) (n i : Nat) (l : Line) (hd : l.drv = false) :
    writeSpan v n i l
      = { drv := false
          trace := ((List.range' i n).flatMap fun j => byteWriteSlots (byteAt v j)).reverse ++ l.trace
          answers := l.answers } := by
  induction n generalizing i l with
  | zero => simp [writeSpan, ← hd]
  | succ n ih =>
    rw [writeSpan, ih _ _ (by simp [writeByte_eq])]
    simp [writeByte_eq, List.range'_succ]

/-- The bytes of a list as the array of `writeSpan`. -/
theorem range'_byteAt {k : Nat} (v : Vector Byte k) :
    (List.range' 0 k).map (byteAt v) = v.toList := by
  apply List.ext_getElem
  · simp
  · intro i h1 h2
    simp at h1
    simp [byteAt, h1]

/-- Sending a whole array sends its bytes in index order (rule R44). -/
theorem writeSpan_all {k : Nat} (v : Vector Byte k) (l : Line) (hd : l.drv = false) :
    writeSpan v k 0 l
      = { drv := false, trace := (v.toList.flatMap byteWriteSlots).reverse ++ l.trace, answers := l.answers } := by
  rw [writeSpan_eq v k 0 l hd, ← range'_byteAt v, List.flatMap_map]

/-- The events of `select()` after its `reset()` (rules R69, R115). -/
theorem selectDevice_eq (romId : Vector Byte 8) (l : Line) :
    selectDevice romId l
      = { drv := false, trace := (selectBytes romId).reverse ++ (reset l).2.trace, answers := (reset l).2.answers } := by
  rw [selectDevice, writeSpan_all _ _ (by simp [writeByte_eq])]
  simp [writeByte_eq, selectBytes]

@[simp] theorem selectDevice_drv (romId : Vector Byte 8) (l : Line) : (selectDevice romId l).drv = false := by
  simp [selectDevice_eq]

end Sys2Proof.Machine
end

