-- ==== Sys2Proof/Laws/Commands.lean ====
section
/-! SUPPORT. Register arrays, the ROM search, and the three phases of a row write: one specification lemma each. -/

namespace Sys2Proof.Machine

/-! ## Register arrays -/

theorem byteAt_setByte {k : Nat} (v : Vector Byte k) (i j : Nat) (x : Byte) (hi : i < k) :
    byteAt (setByte v i x) j = if i = j then x else byteAt v j := by
  unfold byteAt setByte
  by_cases h : i = j
  · subst h; simp [hi]
  · simp [h]

@[simp] theorem byteAt_setByte_self {k : Nat} (v : Vector Byte k) (i : Nat) (x : Byte) (hi : i < k) :
    byteAt (setByte v i x) i = x := by
  simp [byteAt_setByte v i i x hi]

theorem setByte_setByte {k : Nat} (v : Vector Byte k) (i : Nat) (x y : Byte) :
    setByte (setByte v i x) i y = setByte v i y := by
  ext j h
  by_cases e : i = j <;> simp [setByte, e]

theorem setByte_byteAt {k : Nat} (v : Vector Byte k) (i : Nat) : setByte v i (byteAt v i) = v := by
  ext j h
  by_cases e : i = j
  · subst e; simp [setByte, byteAt, h]
  · simp [setByte, e]

/-- Two arrays with the same bytes are the same. -/
theorem ext_byteAt {k : Nat} (v w : Vector Byte k) (h : ∀ i, i < k → byteAt v i = byteAt w i) : v = w := by
  ext i hi
  have := h i hi
  simp only [byteAt, Vector.getElem?_eq_getElem hi, Option.getD_some] at this
  rw [this]

/-! ## The search -/

@[simp] theorem tail_tail_eq_drop (as : List Bool) : as.tail.tail = as.drop 2 := by
  cases as <;> simp

/-- Identifier bits ORed into positions `b`, `b + 1`, … (rule R108). -/
def orIdBits : Nat → Vector Byte 8 → List Bool → Vector Byte 8
  | _, acc, [] => acc
  | b, acc, v :: vs => orIdBits (b + 1) (orIdBit acc b v) vs

/-- The bits of one byte land in that byte, bit 0 first (rules R21, R41). -/
theorem orIdBits_byte (j i : Nat) (hj : j < 8) (acc : Vector Byte 8) (bs : List Bool) (h : i + bs.length ≤ 8) :
    orIdBits (8 * j + i) acc bs = setByte acc j (orBits i (byteAt acc j) bs) := by
  induction bs generalizing i acc with
  | nil => simp [orIdBits, orBits, setByte_byteAt]
  | cons b bs ih =>
    simp only [List.length_cons] at h
    have hd : (8 * j + i) / 8 = j := by omega
    have hm : (8 * j + i) % 8 = i := by omega
    rw [orIdBits, Nat.add_assoc, ih (i + 1) _ (by omega)]
    simp [orIdBit, hd, hm, orBits, byteAt_setByte_self _ _ _ hj, setByte_setByte]

theorem orIdBits_append (b : Nat) (acc : Vector Byte 8) (vs ws : List Bool) :
    orIdBits b acc (vs ++ ws) = orIdBits (b + vs.length) (orIdBits b acc vs) ws := by
  induction vs generalizing b acc with
  | nil => rfl
  | cons v vs ih => simp [orIdBits, ih, Nat.add_comm, Nat.add_left_comm]

theorem orIdBits_bytes (j : Nat) (vs : List Byte) (acc : Vector Byte 8) (h : j + vs.length ≤ 8)
    (hz : ∀ i, j ≤ i → byteAt acc i = 0) (i : Nat) (hi : i < 8) :
    byteAt (orIdBits (8 * j) acc (vs.flatMap bitsLsbFirst)) i
      = if j ≤ i ∧ i < j + vs.length then vs.getD (i - j) 0 else byteAt acc i := by
  induction vs generalizing j acc with
  | nil =>
    have : ¬ (j ≤ i ∧ i < j) := by omega
    simp [orIdBits, this]
  | cons v vs ih =>
    simp only [List.length_cons] at h
    have hb := orIdBits_byte j 0 (by omega) acc (bitsLsbFirst v) (by simp)
    rw [hz j (Nat.le_refl j)] at hb
    erw [orBits_bitsLsbFirst] at hb
    rw [List.flatMap_cons, orIdBits_append, bitsLsbFirst_length, ← Nat.mul_succ, ← Nat.add_zero (8 * j), hb,
      ih (j + 1) _ (by omega)]
    · rw [byteAt_setByte _ _ _ _ (by omega)]
      simp only [List.length_cons]
      by_cases e : j = i
      · subst e
        simp
      · by_cases g : j + 1 ≤ i ∧ i < j + 1 + vs.length
        · have g' : j ≤ i ∧ i < j + (vs.length + 1) := by omega
          obtain ⟨m, hm⟩ : ∃ m, i - j = m + 1 := ⟨i - j - 1, by omega⟩
          have hm' : i - (j + 1) = m := by omega
          simp [g, g', hm, hm']
        · rw [if_neg g, if_neg (show ¬ (j ≤ i ∧ i < j + (vs.length + 1)) by omega), if_neg e]
    · intro i' hi'
      rw [byteAt_setByte _ _ _ _ (by omega)]
      have : ¬ j = i' := by omega
      simp [this, hz i' (by omega)]

theorem idBits_all (id : Vector Byte 8) : idBits id 64 = id.toList.flatMap bitsLsbFirst := by
  apply List.take_of_length_le
  simp [List.length_flatMap]

/-- ORing all 64 bits of an identifier into a zero accumulator gives the identifier (rules R41, R105). -/
theorem orIdBits_idBits (id : Vector Byte 8) : orIdBits 0 (Vector.replicate 8 0) (idBits id 64) = id := by
  apply ext_byteAt
  intro i hi
  rw [idBits_all]
  have hz : ∀ i, 0 ≤ i → byteAt (Vector.replicate 8 (0 : Byte)) i = 0 := by
    intro i _
    simp only [byteAt, Vector.getElem?_replicate]
    split <;> rfl
  have h := orIdBits_bytes 0 id.toList (Vector.replicate 8 0) (by simp) hz i hi
  simp only [Nat.mul_zero] at h
  rw [h]
  simp [hi, byteAt]

@[simp] theorem idBits_length (id : Vector Byte 8) : (idBits id 64).length = 64 := by
  simp [idBits_all, List.length_flatMap]

/-- The search (rules R107, R108): it completes its iterations, or ends in the first one whose two bits are equal. -/
theorem searchLoop_cases (n b : Nat) (acc : Vector Byte 8) (l : Line) (hd : l.drv = false) :
    ∃ found : List Bool,
      (found.length = n ∧ searchLoop n b acc l = (.ok (orIdBits b acc found),
          { drv := false, trace := (found.flatMap searchIteration).reverse ++ l.trace
            answers := l.answers.drop (2 * n) })) ∨
      (found.length < n ∧ ∃ v, searchLoop n b acc l
        = (.error (if v then .noPresence else .busCollision),
          { drv := false
            trace := (found.flatMap searchIteration ++ readSlot v ++ readSlot v).reverse ++ l.trace
            answers := l.answers.drop (2 * (found.length + 1)) })) := by
  induction n generalizing b acc l with
  | zero => exact ⟨[], .inl ⟨rfl, by simp [searchLoop, orIdBits, ← hd]⟩⟩
  | succ n ih =>
    obtain ⟨v1, h1⟩ := readBit_cases l
    obtain ⟨v2, h2⟩ := readBit_cases
      { drv := false, trace := (readSlot v1).reverse ++ l.trace, answers := l.answers.tail }
    by_cases e : v1 = v2
    · refine ⟨[], .inr ⟨by simp, v1, ?_⟩⟩
      subst e
      cases v1 <;> simp only [searchLoop, h1, h2, searchDecide] <;> simp
    · have e2 : v2 = !v1 := by revert e; cases v1 <;> cases v2 <;> simp
      subst e2
      obtain ⟨found, hc⟩ := ih (b + 1) (orIdBit acc b v1)
        { drv := false, trace := (searchIteration v1).reverse ++ l.trace, answers := l.answers.drop 2 } rfl
      refine ⟨v1 :: found, ?_⟩
      have hs : searchLoop (n + 1) b acc l = searchLoop n (b + 1) (orIdBit acc b v1)
          { drv := false, trace := (searchIteration v1).reverse ++ l.trace, answers := l.answers.drop 2 } := by
        cases v1 <;> simp only [searchLoop, h1, h2, searchDecide, writeBit_eq, searchIteration, Bool.not_true,
          Bool.not_false] <;> simp
      rw [hs]
      rcases hc with ⟨hl, hr⟩ | ⟨hl, v, hr⟩
      · exact .inl ⟨by simp [hl], by rw [hr]; simp [orIdBits, Nat.mul_succ, Nat.add_comm]⟩
      · exact .inr ⟨by simp [hl], v, by
          rw [hr]
          simp only [List.drop_drop, List.length_cons]
          rw [show 2 + 2 * (found.length + 1) = 2 * (found.length + 1 + 1) by omega]
          simp⟩

/-- The search against one device: all iterations complete (rule R107). -/
theorem searchLoop_scripted (vs : List Bool) (n b : Nat) (acc : Vector Byte 8) (l : Line) (rest : List Bool)
    (hd : l.drv = false) (h : l.answers = searchAnswers vs ++ rest) :
    searchLoop (vs.length + n) b acc l
      = searchLoop n (b + vs.length) (orIdBits b acc vs)
          { drv := false, trace := (vs.flatMap searchIteration).reverse ++ l.trace, answers := rest } := by
  induction vs generalizing b acc l with
  | nil =>
    simp [searchAnswers] at h
    simp [orIdBits, ← h, ← hd]
  | cons v vs ih =>
    have h' : l.answers = v :: (!v) :: (searchAnswers vs ++ rest) := by simpa [searchAnswers] using h
    have hn : (v :: vs).length + n = (vs.length + n) + 1 := by simp; omega
    have hi := ih (b + 1) (orIdBit acc b v)
      { drv := false, trace := (searchIteration v).reverse ++ l.trace, answers := searchAnswers vs ++ rest } rfl rfl
    have hb : b + (v :: vs).length = b + 1 + vs.length := by simp; omega
    rw [hn, searchLoop, hb]
    have h2 := readBit_scripted { drv := false, trace := (readSlot v).reverse ++ l.trace
                                  answers := (!v) :: (searchAnswers vs ++ rest) } (!v) _ rfl
    simp only [readBit_scripted l v _ h', h2]
    cases v <;> simp only [searchDecide, writeBit_eq, Bool.not_true, Bool.not_false] <;>
      simpa [orIdBits, searchIteration] using hi

/-! ## Runs of bytes read -/

/-- Bytes stored from index `i` on. -/
def setBytes {k : Nat} : Vector Byte k → Nat → List Byte → Vector Byte k
  | v, _, [] => v
  | v, i, b :: bs => setBytes (setByte v i b) (i + 1) bs

/-- `readSpan` stores the bytes it reads and emits their read slots. -/
theorem readSpan_cases {k : Nat} (n i : Nat) (v : Vector Byte k) (l : Line) (hd : l.drv = false) :
    ∃ bs : List Byte, bs.length = n ∧ readSpan n i v l = (setBytes v i bs,
      { drv := false, trace := (bs.flatMap byteReadSlots).reverse ++ l.trace, answers := l.answers.drop (8 * n) }) := by
  induction n generalizing i v l with
  | zero => exact ⟨[], rfl, by simp [readSpan, setBytes, ← hd]⟩
  | succ n ih =>
    obtain ⟨b, hb⟩ := readByte_cases l
    obtain ⟨bs, hl, h⟩ := ih (i + 1) (setByte v i b)
      { drv := false, trace := (byteReadSlots b).reverse ++ l.trace, answers := l.answers.drop 8 } rfl
    refine ⟨b :: bs, by simp [hl], ?_⟩
    simp only [readSpan, hb]
    rw [h]
    simp [setBytes, Nat.mul_succ, Nat.add_comm]

/-- `readSpan` on scripted answers. -/
theorem readSpan_scripted {k : Nat} (bs : List Byte) (i : Nat) (v : Vector Byte k) (l : Line) (rest : List Bool)
    (hd : l.drv = false) (h : l.answers = byteAnswers bs ++ rest) :
    readSpan bs.length i v l = (setBytes v i bs,
      { drv := false, trace := (bs.flatMap byteReadSlots).reverse ++ l.trace, answers := rest }) := by
  induction bs generalizing i v l with
  | nil =>
    simp [byteAnswers] at h
    simp [readSpan, setBytes, ← hd, ← h]
  | cons b bs ih =>
    have h' : l.answers = bitsLsbFirst b ++ (byteAnswers bs ++ rest) := by simpa [byteAnswers] using h
    simp only [List.length_cons, readSpan, readByte_scripted b l _ h']
    rw [ih _ _ _ rfl rfl]
    simp [setBytes]

/-! ## `WRITE_ROW` -/

/-- A register array is its bytes in index order. -/
theorem toList_eq_map_byteAt {n : Nat} (v : Vector Byte n) : v.toList = (List.range n).map (byteAt v) := by
  refine List.ext_getElem (by simp) fun j hj _ => ?_
  have hn : j < n := by simpa using hj
  simp [byteAt, hn]

/-- The eight bytes of an array, as a list. -/
theorem toList8 (v : Vector Byte 8) : v.toList = [v[0], v[1], v[2], v[3], v[4], v[5], v[6], v[7]] :=
  toList_eq_map_byteAt v

theorem vector8_eq (v : Vector Byte 8) : v = #v[v[0], v[1], v[2], v[3], v[4], v[5], v[6], v[7]] :=
  Vector.toList_inj.mp (toList_eq_map_byteAt v)

theorem vector12_eq (v : Vector Byte 12) :
    v = #v[v[0], v[1], v[2], v[3], v[4], v[5], v[6], v[7], v[8], v[9], v[10], v[11]] :=
  Vector.toList_inj.mp (toList_eq_map_byteAt v)

theorem vector2_eq (v : Vector Byte 2) : v = #v[v[0], v[1]] := Vector.toList_inj.mp (toList_eq_map_byteAt v)

/-- The Phase 1 buffer (rule R123). -/
theorem stageBuffer_eq (row : Nat) (p : Vector Byte 8) (buf : Vector Byte 12) :
    stageBuffer row p buf = #v[writeScratchpadByte, taLo row, taHi row, p[0], p[1], p[2], p[3], p[4], p[5], p[6], p[7],
      buf[11]] := by
  conv => lhs; rw [vector12_eq buf]
  simp [stageBuffer, copyBytes, setByte, byteAt]

theorem stageBuffer_take (row : Nat) (p : Vector Byte 8) (buf : Vector Byte 12) :
    (stageBuffer row p buf).toList.take 11 = stagedBytes row p := by
  rw [stageBuffer_eq, stagedBytes, vector8_eq p]
  rfl

/-- The CRC comparison uses the first `n` bytes only (rule R96). -/
theorem crc16PairOk_take (d : List Byte) (n : Nat) (a b : Byte) :
    crc16PairOk d n a b = crc16PairOk (d.take n) n a b := by
  simp [crc16PairOk, invertedPair, crc16, List.take_take]

theorem setBytes_crcRx (v : Vector Byte 2) (a b : Byte) : setBytes v 0 [a, b] = #v[a, b] := by
  conv => lhs; rw [vector2_eq v]
  simp [setBytes, setByte]

/-- The staged bytes as `writeSpan` sends them. -/
theorem stageBuffer_span (row : Nat) (p : Vector Byte 8) (buf : Vector Byte 12) :
    ((List.range' 0 11).flatMap fun j => byteWriteSlots (byteAt (stageBuffer row p buf) j))
      = (stagedBytes row p).flatMap byteWriteSlots := by
  rw [stageBuffer_eq, stagedBytes, vector8_eq p]
  rfl

/-- Phase 1 (rules R71, R124): the two bytes received decide `NEEDS_VERIFY`. -/
theorem writePhase1_cases (romId : Vector Byte 8) (row : Nat) (p : Vector Byte 8) (buf : Vector Byte 12)
    (crcRx : Vector Byte 2) (l : Line) :
    ∃ c0 c1, writePhase1 romId (stageBuffer row p buf) crcRx l
      = ((!crc16PairOk (stagedBytes row p) 11 c0 c1, #v[c0, c1]),
        { drv := false
          trace := (phase1Events romId (stagedBytes row p) c0 c1).reverse ++ (reset l).2.trace
          answers := (reset l).2.answers.drop 16 }) := by
  obtain ⟨bs, hl, h⟩ := readSpan_cases 2 0 crcRx (writeSpan (stageBuffer row p buf) 11 0 (selectDevice romId l))
    (by rw [writeSpan_eq _ _ _ _ (by simp)])
  match bs, hl with
  | [c0, c1], _ =>
    refine ⟨c0, c1, ?_⟩
    simp only [writePhase1, h, setBytes_crcRx, bufCrcOk]
    rw [crc16PairOk_take, stageBuffer_take, writeSpan_eq _ _ _ _ (by simp), stageBuffer_span]
    simp [byteAt, selectDevice_eq, phase1Events]

/-- Phase 1 on scripted answers. -/
theorem writePhase1_scripted (romId : Vector Byte 8) (row : Nat) (p : Vector Byte 8) (buf : Vector Byte 12)
    (crcRx : Vector Byte 2) (l : Line) (c0 c1 : Byte) (rest : List Bool)
    (h : (reset l).2.answers = byteAnswers [c0, c1] ++ rest) :
    writePhase1 romId (stageBuffer row p buf) crcRx l
      = ((!crc16PairOk (stagedBytes row p) 11 c0 c1, #v[c0, c1]),
        { drv := false
          trace := (phase1Events romId (stagedBytes row p) c0 c1).reverse ++ (reset l).2.trace
          answers := rest }) := by
  have hs := readSpan_scripted [c0, c1] 0 crcRx (writeSpan (stageBuffer row p buf) 11 0 (selectDevice romId l)) rest
    (by rw [writeSpan_eq _ _ _ _ (by simp)]) (by rw [writeSpan_eq _ _ _ _ (by simp), selectDevice_eq]; exact h)
  simp only [List.length_cons, List.length_nil] at hs
  simp only [writePhase1, hs, setBytes_crcRx, bufCrcOk]
  rw [crc16PairOk_take, stageBuffer_take, writeSpan_eq _ _ _ _ (by simp), stageBuffer_span]
  simp [byteAt, selectDevice_eq, phase1Events]

/-- The first four bytes of the buffer after the Phase 2 command byte and the three bytes read back (rules R72, R125). -/
theorem setBytes_status (buf : Vector Byte 12) (a0 a1 es : Byte) :
    setBytes (setByte buf 0 readScratchpadByte) 1 [a0, a1, es]
      = #v[readScratchpadByte, a0, a1, es, buf[4], buf[5], buf[6], buf[7], buf[8], buf[9], buf[10], buf[11]] := by
  conv => lhs; rw [vector12_eq buf]
  simp [setBytes, setByte]

/-- The buffer after the eight payload bytes read back (rule R127). -/
theorem setBytes_payload (a0 a1 a2 a3 a4 a5 a6 a7 a8 a9 a10 a11 : Byte) (d0 d1 d2 d3 d4 d5 d6 d7 : Byte) :
    setBytes #v[a0, a1, a2, a3, a4, a5, a6, a7, a8, a9, a10, a11] 4 [d0, d1, d2, d3, d4, d5, d6, d7]
      = #v[a0, a1, a2, a3, d0, d1, d2, d3, d4, d5, d6, d7] := by
  simp [setBytes, setByte]

/-- What Phase 2 ends with, from the bytes it read and whether it verifies (rules R126, R127). -/
def phase2Result (needsVerify : Bool) (buf : Vector Byte 12) (a0 a1 es : Byte) (ds : Vector Byte 8) (k0 k1 : Byte) :
    Except Failure (Vector Byte 12) :=
  if es ≠ esFullRow then .error .scratchpadStatusInvalid
  else if needsVerify then
    if crc16PairOk ([readScratchpadByte, a0, a1, es] ++ ds.toList) 12 k0 k1 then
      .ok #v[readScratchpadByte, a0, a1, es, ds[0], ds[1], ds[2], ds[3], ds[4], ds[5], ds[6], ds[7]]
    else .error .payloadCrcInvalid
  else .ok #v[readScratchpadByte, a0, a1, es, buf[4], buf[5], buf[6], buf[7], buf[8], buf[9], buf[10], buf[11]]

/-- The bytes Phase 2 reads (rule R72): the payload and its pair are read back only to verify. -/
def phase2Bytes (needsVerify : Bool) (a0 a1 es : Byte) (ds : Vector Byte 8) (k0 k1 : Byte) : List Byte :=
  if es = esFullRow ∧ needsVerify = true then [a0, a1, es] ++ ds.toList ++ [k0, k1] else [a0, a1, es]

theorem toList_of_length8 (bs : List Byte) (h : bs.length = 8) : ∃ v : Vector Byte 8, bs = v.toList :=
  ⟨⟨bs.toArray, by simpa using h⟩, rfl⟩

/-- Phase 2 (rules R72, R125 to R127): everything it can do. -/
theorem writePhase2_cases (romId : Vector Byte 8) (nv : Bool) (buf : Vector Byte 12) (crcRx : Vector Byte 2)
    (l : Line) :
    ∃ a0 a1 es k0 k1, ∃ ds : Vector Byte 8, writePhase2 romId nv buf crcRx l
      = (phase2Result nv buf a0 a1 es ds k0 k1,
        { drv := false
          trace := (phase2Events romId (phase2Bytes nv a0 a1 es ds k0 k1)).reverse ++ (reset l).2.trace
          answers := (reset l).2.answers.drop (8 * (phase2Bytes nv a0 a1 es ds k0 k1).length) }) := by
  have key : ∃ a0 a1 es,
      readSpan 3 1 (setByte buf 0 readScratchpadByte) (writeByte readScratchpadByte (selectDevice romId l))
        = (#v[readScratchpadByte, a0, a1, es, buf[4], buf[5], buf[6], buf[7], buf[8], buf[9], buf[10], buf[11]],
          { drv := false
            trace := (phase2Events romId [a0, a1, es]).reverse ++ (reset l).2.trace
            answers := (reset l).2.answers.drop 24 }) := by
    obtain ⟨bs, hl, h⟩ := readSpan_cases 3 1 (setByte buf 0 readScratchpadByte)
      (writeByte readScratchpadByte (selectDevice romId l)) (by simp [writeByte_eq])
    match bs, hl with
    | [a0, a1, es], _ =>
      refine ⟨a0, a1, es, ?_⟩
      rw [h, setBytes_status]
      simp [writeByte_eq, selectDevice_eq, phase2Events]
  obtain ⟨a0, a1, es, h⟩ := key
  by_cases he : es = esFullRow
  · subst he
    cases nv with
    | false =>
      refine ⟨a0, a1, esFullRow, 0, 0, Vector.replicate 8 0, ?_⟩
      simp only [writePhase2, h]
      simp [byteAt, phase2Result, phase2Bytes]
    | true =>
      obtain ⟨ds, hd, hp⟩ := readSpan_cases 8 4
        #v[readScratchpadByte, a0, a1, esFullRow, buf[4], buf[5], buf[6], buf[7], buf[8], buf[9], buf[10], buf[11]]
        { drv := false, trace := (phase2Events romId [a0, a1, esFullRow]).reverse ++ (reset l).2.trace
          answers := (reset l).2.answers.drop 24 } rfl
      obtain ⟨ds, rfl⟩ := toList_of_length8 ds hd
      obtain ⟨ks, hk, hc⟩ := readSpan_cases 2 0 crcRx
        { drv := false
          trace := (ds.toList.flatMap byteReadSlots).reverse
            ++ ((phase2Events romId [a0, a1, esFullRow]).reverse ++ (reset l).2.trace)
          answers := ((reset l).2.answers.drop 24).drop 64 } rfl
      match ks, hk with
      | [k0, k1], _ =>
        have hv := toList8 ds
        refine ⟨a0, a1, esFullRow, k0, k1, ds, ?_⟩
        rw [hv, setBytes_payload] at hp
        rw [setBytes_crcRx] at hc
        rw [hv] at hc
        simp only [writePhase2, h, hp, hc, byteAt, bufCrcOk, phase2Result, phase2Bytes]
        simp only [hv]
        simp [phase2Events]
        split <;> simp
  · refine ⟨a0, a1, es, 0, 0, Vector.replicate 8 0, ?_⟩
    simp only [writePhase2, h]
    simp [byteAt, he, phase2Result, phase2Bytes]

/-- Phase 2 on scripted answers. -/
theorem writePhase2_scripted (romId : Vector Byte 8) (nv : Bool) (buf : Vector Byte 12) (crcRx : Vector Byte 2)
    (l : Line) (a0 a1 es k0 k1 : Byte) (ds : Vector Byte 8) (rest : List Bool)
    (ha : (reset l).2.answers = byteAnswers (phase2Bytes nv a0 a1 es ds k0 k1) ++ rest) :
    writePhase2 romId nv buf crcRx l
      = (phase2Result nv buf a0 a1 es ds k0 k1,
        { drv := false
          trace := (phase2Events romId (phase2Bytes nv a0 a1 es ds k0 k1)).reverse ++ (reset l).2.trace
          answers := rest }) := by
  have hv := toList8 ds
  have key : ∀ r, (reset l).2.answers = byteAnswers [a0, a1, es] ++ r →
      readSpan 3 1 (setByte buf 0 readScratchpadByte) (writeByte readScratchpadByte (selectDevice romId l))
        = (#v[readScratchpadByte, a0, a1, es, buf[4], buf[5], buf[6], buf[7], buf[8], buf[9], buf[10], buf[11]],
          { drv := false
            trace := (phase2Events romId [a0, a1, es]).reverse ++ (reset l).2.trace, answers := r }) := by
    intro r hr
    have h := readSpan_scripted [a0, a1, es] 1 (setByte buf 0 readScratchpadByte)
      (writeByte readScratchpadByte (selectDevice romId l)) r (by simp [writeByte_eq])
      (by simpa [writeByte_eq, selectDevice_eq] using hr)
    rw [setBytes_status] at h
    simpa [writeByte_eq, selectDevice_eq, phase2Events] using h
  by_cases he : es = esFullRow
  · subst he
    cases nv with
    | false =>
      have h := key rest (by simpa [phase2Bytes] using ha)
      simp [writePhase2, h, byteAt, phase2Result, phase2Bytes]
    | true =>
      have h := key (byteAnswers ds.toList ++ (byteAnswers [k0, k1] ++ rest))
        (by simpa [phase2Bytes, byteAnswers] using ha)
      have hp := readSpan_scripted ds.toList 4
        #v[readScratchpadByte, a0, a1, esFullRow, buf[4], buf[5], buf[6], buf[7], buf[8], buf[9], buf[10], buf[11]]
        { drv := false, trace := (phase2Events romId [a0, a1, esFullRow]).reverse ++ (reset l).2.trace
          answers := byteAnswers ds.toList ++ (byteAnswers [k0, k1] ++ rest) } (byteAnswers [k0, k1] ++ rest) rfl rfl
      have hc := readSpan_scripted [k0, k1] 0 crcRx
        { drv := false
          trace := (ds.toList.flatMap byteReadSlots).reverse
            ++ ((phase2Events romId [a0, a1, esFullRow]).reverse ++ (reset l).2.trace)
          answers := byteAnswers [k0, k1] ++ rest } rest rfl rfl
      rw [Vector.length_toList] at hp
      rw [hv, setBytes_payload] at hp
      rw [setBytes_crcRx] at hc
      rw [hv] at h hc
      simp only [List.length_cons, List.length_nil, Nat.zero_add] at hc
      simp only [writePhase2, h, hp, hc, byteAt, bufCrcOk, phase2Result, phase2Bytes]
      simp [phase2Events, hv]
      split <;> simp
  · have h := key rest (by simpa [phase2Bytes, he] using ha)
    simp [writePhase2, h, byteAt, he, phase2Result, phase2Bytes]

/-- Phase 3 (rules R73, R128 to R130): everything it can do, on a buffer as Phase 2 leaves it. -/
theorem writePhase3_cases (romId : Vector Byte 8) (buf : Vector Byte 12) (l : Line) :
    ∃ ack, writePhase3 romId buf l
      = (if ack = commitOk then none else some .commitFailed,
        { drv := false
          trace := (phase3Events romId buf[1] buf[2] buf[3] ack).reverse ++ (reset l).2.trace
          answers := (reset l).2.answers.drop 8 }) := by
  obtain ⟨ack, h⟩ := readByte_cases (emit (.delayMs progMs)
    (writeSpan (setByte buf 0 Config.cmdCopy) 4 0 (selectDevice romId l)))
  refine ⟨ack, ?_⟩
  simp only [writePhase3, h]
  rw [writeSpan_eq _ _ _ _ (by simp)]
  simp [List.range', byteAt, setByte, selectDevice_eq, phase3Events]

/-- Phase 3 on scripted answers. -/
theorem writePhase3_scripted (romId : Vector Byte 8) (buf : Vector Byte 12) (l : Line) (ack : Byte) (rest : List Bool)
    (ha : (reset l).2.answers = bitsLsbFirst ack ++ rest) :
    writePhase3 romId buf l
      = (if ack = commitOk then none else some .commitFailed,
        { drv := false
          trace := (phase3Events romId buf[1] buf[2] buf[3] ack).reverse ++ (reset l).2.trace
          answers := rest }) := by
  have h := readByte_scripted ack (emit (.delayMs progMs)
    (writeSpan (setByte buf 0 Config.cmdCopy) 4 0 (selectDevice romId l))) rest
    (by rw [writeSpan_eq _ _ _ _ (by simp)]; simpa [selectDevice_eq] using ha)
  simp only [writePhase3, h]
  rw [writeSpan_eq _ _ _ _ (by simp)]
  simp [List.range', byteAt, setByte, selectDevice_eq, phase3Events]

/-! ## `READ_ROW` -/

/-- The events of `READ_ROW` after its `reset()` (rule R70). -/
def readRowEvents (romId : Vector Byte 8) (row : Nat) (v : Byte) : List Event :=
  selectBytes romId ++ byteWriteSlots readMemoryByte ++ byteWriteSlots (taLo row) ++ byteWriteSlots (taHi row)
    ++ byteReadSlots v

/-- The read-memory frame (rules R70, R121). -/
theorem readRowRun_cases (romId : Vector Byte 8) (row : Nat) (l : Line) :
    ∃ v, readRowRun romId row l = (v,
      { drv := false, trace := (readRowEvents romId row v).reverse ++ (reset l).2.trace
        answers := (reset l).2.answers.drop 8 }) := by
  obtain ⟨v, h⟩ := readByte_cases
    (writeByte (taHi row) (writeByte (taLo row) (writeByte readMemoryByte (selectDevice romId l))))
  refine ⟨v, ?_⟩
  rw [readRowRun, h]
  simp [writeByte_eq, selectDevice_eq, readRowEvents]

/-- The read-memory frame on scripted answers. -/
theorem readRowRun_scripted (romId : Vector Byte 8) (row : Nat) (l : Line) (v : Byte) (rest : List Bool)
    (ha : (reset l).2.answers = bitsLsbFirst v ++ rest) :
    readRowRun romId row l = (v,
      { drv := false, trace := (readRowEvents romId row v).reverse ++ (reset l).2.trace, answers := rest }) := by
  have h := readByte_scripted v
    (writeByte (taHi row) (writeByte (taLo row) (writeByte readMemoryByte (selectDevice romId l)))) rest
    (by simpa [writeByte_eq, selectDevice_eq] using ha)
  rw [readRowRun, h]
  simp [writeByte_eq, selectDevice_eq, readRowEvents]

/-! ## `DISCOVER` -/

/-- `validateId` answers the identifier it was given, or one of two failures (rule R109). -/
theorem validateId_cases (acc : Vector Byte 8) :
    (romCrcOk acc = false ∧ validateId acc = .error .romCrcInvalid) ∨
    (romCrcOk acc = true ∧ byteAt acc 0 ≠ Config.expectedFamily ∧ validateId acc = .error .familyMismatch) ∨
    (romCrcOk acc = true ∧ byteAt acc 0 = Config.expectedFamily ∧ validateId acc = .ok acc) := by
  cases h : romCrcOk acc
  · exact .inl ⟨rfl, by simp [validateId, h]⟩
  · by_cases e : byteAt acc 0 = Config.expectedFamily
    · exact .inr (.inr ⟨rfl, e, by simp [validateId, h, e]⟩)
    · exact .inr (.inl ⟨rfl, e, by simp [validateId, h, e]⟩)

/-- `DISCOVER` (rules R105 to R109): its reset fails; or its search ends in an iteration whose two bits are equal; or the
64 bits it found are validated. -/
theorem discoverRun_cases (l : Line) :
    (∃ f, (reset l).1 = some f ∧ discoverRun l = (.error f, (reset l).2)) ∨
    ((reset l).1 = none ∧ ∃ found : List Bool,
      (found.length = 64 ∧ discoverRun l = (validateId (orIdBits 0 (Vector.replicate 8 0) found),
          { drv := false
            trace := (byteWriteSlots searchRomByte ++ found.flatMap searchIteration).reverse ++ (reset l).2.trace
            answers := (reset l).2.answers.drop 128 })) ∨
      (found.length < 64 ∧ ∃ v, discoverRun l = (.error (if v then .noPresence else .busCollision),
          { drv := false
            trace := (byteWriteSlots searchRomByte ++ found.flatMap searchIteration ++ readSlot v ++ readSlot v).reverse
              ++ (reset l).2.trace
            answers := (reset l).2.answers.drop (2 * (found.length + 1)) }))) := by
  cases hr : (reset l).1 with
  | some f => exact .inl ⟨f, rfl, by simp [discoverRun, hr]⟩
  | none =>
    obtain ⟨found, ⟨hl, h⟩ | ⟨hl, v, h⟩⟩ := searchLoop_cases 64 0 (Vector.replicate 8 0)
      (writeByte searchRomByte (reset l).2) (by simp [writeByte_eq])
    · exact .inr ⟨rfl, found, .inl ⟨hl, by simp only [discoverRun, hr, h]; simp [writeByte_eq]⟩⟩
    · exact .inr ⟨rfl, found, .inr ⟨hl, v, by simp only [discoverRun, hr, h]; simp [writeByte_eq]⟩⟩

/-- `DISCOVER` after a reset that found presence, from the outcome of its search. -/
theorem discoverRun_searched (l l1 l2 : Line) (q : Except Failure (Vector Byte 8)) (hr : reset l = (none, l1))
    (hs : searchLoop 64 0 (Vector.replicate 8 0) (writeByte searchRomByte l1) = (q, l2)) :
    discoverRun l = (q.bind validateId, l2) := by
  unfold discoverRun
  rw [hr]
  dsimp only
  rw [hs]
  cases q <;> rfl

/-- `DISCOVER` after a reset that failed (rule R106). -/
theorem discoverRun_failed (l l1 : Line) (f : Failure) (hr : reset l = (some f, l1)) :
    discoverRun l = (.error f, l1) := by
  unfold discoverRun
  rw [hr]

/-- `DISCOVER` as a whole, from the outcome of its run. -/
theorem exec_discover_of (s : State) (r : Except Failure (Vector Byte 8)) (l : Line)
    (h : discoverRun s.line = (r, l)) : exec .discover s = .next (discoverEnd r { s with line := l }) := by
  simp only [exec, execDiscover, h]

/-! ## What a command reports -/

/-- A command that ends reports its cause (rules R17 to R19, R24). -/
theorem reports_settle (cause : Option Failure) (s : State) : Reports (settle cause s) cause :=
  ⟨settle_ok s cause, settle_err s cause, settle_busy s cause, settle_seq s cause⟩

/-- The events a state has more than another, from the two traces. -/
theorem addsEvents_of_trace {s t : State} {es : List Event} (h : t.line.trace = es.reverse ++ s.line.trace) :
    addsEvents s t es := by
  simp [addsEvents, State.events, h]

theorem addsEvents_trans {s t u : State} {es fs : List Event} (h : addsEvents s t es) (g : addsEvents t u fs) :
    addsEvents s u (es ++ fs) := by
  simp only [addsEvents] at *
  rw [g, h, List.append_assoc]

/-- A register array with a byte in range replaced. -/
theorem setByte_eq_set {k : Nat} (v : Vector Byte k) (i : Nat) (x : Byte) (hi : i < k) : setByte v i x = v.set i x := by
  ext j hj
  by_cases e : i = j <;> simp [setByte, e]

/-- A search whose iterations all complete (rule R105). -/
theorem searchLoop_complete (vs : List Bool) (acc : Vector Byte 8) (l : Line) (rest : List Bool)
    (hd : l.drv = false) (h : l.answers = searchAnswers vs ++ rest) :
    searchLoop vs.length 0 acc l = (.ok (orIdBits 0 acc vs),
      { drv := false, trace := (vs.flatMap searchIteration).reverse ++ l.trace, answers := rest }) := by
  have hs := searchLoop_scripted vs 0 0 acc l rest hd h
  rw [Nat.add_zero, searchLoop] at hs
  exact hs

/-- A search that ends in an iteration whose two bits are equal (rule R108). -/
theorem searchLoop_equalPair (vs : List Bool) (v : Bool) (n : Nat) (acc : Vector Byte 8) (l : Line) (rest : List Bool)
    (hd : l.drv = false) (h : l.answers = searchAnswers vs ++ v :: v :: rest) :
    searchLoop (vs.length + (n + 1)) 0 acc l = (.error (if v then .noPresence else .busCollision),
      { drv := false
        trace := (vs.flatMap searchIteration ++ readSlot v ++ readSlot v).reverse ++ l.trace, answers := rest }) := by
  rw [searchLoop_scripted vs (n + 1) 0 acc l (v :: v :: rest) hd h, searchLoop, readBit_scripted _ v (v :: rest) rfl]
  dsimp only
  rw [readBit_scripted _ v rest rfl]
  cases v <;> simp [searchDecide]

/-- `READ_ROW` as a whole, from the outcome of its run. -/
theorem exec_readRow_of (s : State) (row : Nat) (v : Byte) (l : Line) (hr : row < 16)
    (h : readRowRun s.romId row s.line = (v, l)) :
    exec (.readRow row) s = .next (settle none { s with dataOut := v, line := l }) := by
  simp only [exec, execReadRow, rowCount, hr, if_true, h]

/-- `WRITE_ROW` as a whole, from the outcome of its run. -/
theorem exec_writeRow_of (s : State) (row : Nat) (cause : Option Failure) (l : Line) (hr : row < 16)
    (h : writeRowRun row s = (cause, l)) : exec (.writeRow row) s = .next (settle cause { s with line := l }) := by
  simp only [exec, execWriteRow, rowCount, hr, if_true, h]

/-- A `reset()` only appends events. -/
theorem reset_appends (l : Line) : ∃ es : List Event, (reset l).2.trace = es.reverse ++ l.trace := by
  rcases reset_cases l with ⟨k, p, -, -, -, h⟩ | ⟨-, -, h⟩ <;> exact ⟨_, h⟩

/-- `WRITE_ROW` whose Phase 2 fails: there is no Phase 3 (rule R126). -/
theorem writeRowRun_failed (row : Nat) (s : State) (nv : Bool) (rx : Vector Byte 2) (l1 l2 : Line) (f : Failure)
    (h1 : writePhase1 s.romId (stageBuffer row s.payload s.tr.buf) s.tr.crcRx s.line = ((nv, rx), l1))
    (h2 : writePhase2 s.romId nv (stageBuffer row s.payload s.tr.buf) rx l1 = (.error f, l2)) :
    writeRowRun row s = (some f, l2) := by
  unfold writeRowRun
  dsimp only
  rw [h1]
  dsimp only
  rw [h2]

/-- `WRITE_ROW` whose Phase 2 passes: Phase 3 decides (rule R130). -/
theorem writeRowRun_passed (row : Nat) (s : State) (nv : Bool) (rx : Vector Byte 2) (l1 l2 : Line)
    (buf : Vector Byte 12) (r : Option Failure × Line)
    (h1 : writePhase1 s.romId (stageBuffer row s.payload s.tr.buf) s.tr.crcRx s.line = ((nv, rx), l1))
    (h2 : writePhase2 s.romId nv (stageBuffer row s.payload s.tr.buf) rx l1 = (.ok buf, l2))
    (h3 : writePhase3 s.romId buf l2 = r) : writeRowRun row s = r := by
  unfold writeRowRun
  dsimp only
  rw [h1]
  dsimp only
  rw [h2]
  exact h3

/-- What Phase 2 hands to Phase 3: the echoed address and the status byte `0x07` (rules R128, R129). -/
theorem phase2Result_ok (nv : Bool) (buf buf' : Vector Byte 12) (a0 a1 es : Byte) (ds : Vector Byte 8) (k0 k1 : Byte)
    (h : phase2Result nv buf a0 a1 es ds k0 k1 = .ok buf') :
    es = esFullRow ∧ buf'[1] = a0 ∧ buf'[2] = a1 ∧ buf'[3] = esFullRow := by
  unfold phase2Result at h
  repeat' split at h
  all_goals first
    | cases h; done
    | (rename_i he _ _; cases h; simp at he; exact ⟨he, rfl, rfl, he⟩)
    | (rename_i he _; cases h; simp at he; exact ⟨he, rfl, rfl, he⟩)

/-- `WRITE_ROW` (rules R122 to R131): everything it can do. Phase 2 fails, or Phase 3 decides. -/
theorem writeRowRun_cases (row : Nat) (s : State) :
    ∃ c0 c1 a0 a1 es k0 k1, ∃ ds : Vector Byte 8, ∃ l1 l2 : Line,
      writePhase1 s.romId (stageBuffer row s.payload s.tr.buf) s.tr.crcRx s.line
        = ((!crc16PairOk (stagedBytes row s.payload) 11 c0 c1, #v[c0, c1]), l1) ∧
      l1 = { drv := false
             trace := (phase1Events s.romId (stagedBytes row s.payload) c0 c1).reverse ++ (reset s.line).2.trace
             answers := (reset s.line).2.answers.drop 16 } ∧
      l2 = { drv := false
             trace := (phase2Events s.romId (phase2Bytes (!crc16PairOk (stagedBytes row s.payload) 11 c0 c1)
               a0 a1 es ds k0 k1)).reverse ++ (reset l1).2.trace
             answers := (reset l1).2.answers.drop (8 * (phase2Bytes (!crc16PairOk (stagedBytes row s.payload) 11 c0 c1)
               a0 a1 es ds k0 k1).length) } ∧
      ((∃ f, phase2Result (!crc16PairOk (stagedBytes row s.payload) 11 c0 c1) (stageBuffer row s.payload s.tr.buf)
          a0 a1 es ds k0 k1 = .error f ∧ writeRowRun row s = (some f, l2)) ∨
       (es = esFullRow ∧
        (∃ buf', phase2Result (!crc16PairOk (stagedBytes row s.payload) 11 c0 c1) (stageBuffer row s.payload s.tr.buf)
          a0 a1 es ds k0 k1 = .ok buf') ∧
        ∃ ack, writeRowRun row s = (if ack = commitOk then none else some .commitFailed,
          { drv := false
            trace := (phase3Events s.romId a0 a1 esFullRow ack).reverse ++ (reset l2).2.trace
            answers := (reset l2).2.answers.drop 8 }))) := by
  obtain ⟨c0, c1, h1⟩ := writePhase1_cases s.romId row s.payload s.tr.buf s.tr.crcRx s.line
  obtain ⟨a0, a1, es, k0, k1, ds, h2⟩ := writePhase2_cases s.romId
    (!crc16PairOk (stagedBytes row s.payload) 11 c0 c1) (stageBuffer row s.payload s.tr.buf) #v[c0, c1]
    (writePhase1 s.romId (stageBuffer row s.payload s.tr.buf) s.tr.crcRx s.line).2
  rw [h1] at h2
  refine ⟨c0, c1, a0, a1, es, k0, k1, ds, _, _, h1, rfl, rfl, ?_⟩
  cases hq : phase2Result (!crc16PairOk (stagedBytes row s.payload) 11 c0 c1) (stageBuffer row s.payload s.tr.buf)
    a0 a1 es ds k0 k1 with
  | error f =>
    rw [hq] at h2
    exact .inl ⟨f, rfl, writeRowRun_failed row s _ _ _ _ f h1 h2⟩
  | ok buf' =>
    rw [hq] at h2
    obtain ⟨he, e1, e2, e3⟩ := phase2Result_ok _ _ _ _ _ _ _ _ _ hq
    obtain ⟨ack, h3⟩ := writePhase3_cases s.romId buf'
      (writePhase2 s.romId (!crc16PairOk (stagedBytes row s.payload) 11 c0 c1) (stageBuffer row s.payload s.tr.buf)
        #v[c0, c1] _).2
    rw [h2, e1, e2, e3] at h3
    exact .inr ⟨he, ⟨buf', rfl⟩, ack, writeRowRun_passed row s _ _ _ _ buf' _ h1 h2 h3⟩

/-! ## A row write with its three resets scripted -/

/-- Phase 1 with its `reset()` from a released line, on scripted answers. -/
theorem writePhase1_run (romId : Vector Byte 8) (row : Nat) (p : Vector Byte 8) (buf : Vector Byte 12)
    (crcRx : Vector Byte 2) (l : Line) (hd : l.drv = false) (k : Nat) (hk : k ≤ rstRetryN) (pres : Bool) (c0 c1 : Byte)
    (rest : List Bool)
    (h : l.answers = List.replicate k false ++ true :: pres :: (byteAnswers [c0, c1] ++ rest)) :
    writePhase1 romId (stageBuffer row p buf) crcRx l
      = ((!crc16PairOk (stagedBytes row p) 11 c0 c1, #v[c0, c1]),
        { drv := false
          trace := (resetEvents k pres ++ phase1Events romId (stagedBytes row p) c0 c1).reverse ++ l.trace
          answers := rest }) := by
  have hr := reset_scripted k hk pres l hd _ h
  rw [writePhase1_scripted romId row p buf crcRx l c0 c1 rest (by rw [hr]), hr]
  simp

/-- Phase 2 with its `reset()` from a released line, on scripted answers. -/
theorem writePhase2_run (romId : Vector Byte 8) (nv : Bool) (buf : Vector Byte 12) (crcRx : Vector Byte 2) (l : Line)
    (hd : l.drv = false) (k : Nat) (hk : k ≤ rstRetryN) (pres : Bool) (a0 a1 es k0 k1 : Byte) (ds : Vector Byte 8)
    (rest : List Bool) (h : l.answers
      = List.replicate k false ++ true :: pres :: (byteAnswers (phase2Bytes nv a0 a1 es ds k0 k1) ++ rest)) :
    writePhase2 romId nv buf crcRx l
      = (phase2Result nv buf a0 a1 es ds k0 k1,
        { drv := false
          trace := (resetEvents k pres ++ phase2Events romId (phase2Bytes nv a0 a1 es ds k0 k1)).reverse ++ l.trace
          answers := rest }) := by
  have hr := reset_scripted k hk pres l hd _ h
  rw [writePhase2_scripted romId nv buf crcRx l a0 a1 es k0 k1 ds rest (by rw [hr]), hr]
  simp

/-- Phase 3 with its `reset()` from a released line, on scripted answers. -/
theorem writePhase3_run (romId : Vector Byte 8) (buf : Vector Byte 12) (l : Line) (hd : l.drv = false) (k : Nat)
    (hk : k ≤ rstRetryN) (pres : Bool) (ack : Byte) (rest : List Bool)
    (h : l.answers = List.replicate k false ++ true :: pres :: (bitsLsbFirst ack ++ rest)) :
    writePhase3 romId buf l
      = (if ack = commitOk then none else some .commitFailed,
        { drv := false
          trace := (resetEvents k pres ++ phase3Events romId buf[1] buf[2] buf[3] ack).reverse ++ l.trace
          answers := rest }) := by
  have hr := reset_scripted k hk pres l hd _ h
  rw [writePhase3_scripted romId buf l ack rest (by rw [hr]), hr]
  simp

/-- A row write that its Phase 2 ends, on scripted answers with the line high at each reset (rules R126, R127). -/
theorem writeRowRun_scripted_failed (row : Nat) (s : State) (p1 p2 nv : Bool) (c0 c1 a0 a1 es k0 k1 : Byte)
    (ds : Vector Byte 8) (rest : List Bool) (f : Failure)
    (hn : nv = !crc16PairOk (stagedBytes row s.payload) 11 c0 c1)
    (hf : phase2Result nv (stageBuffer row s.payload s.tr.buf) a0 a1 es ds k0 k1 = .error f)
    (hd : s.line.drv = false) (h : s.line.answers = true :: p1 :: (byteAnswers [c0, c1]
      ++ (true :: p2 :: (byteAnswers (phase2Bytes nv a0 a1 es ds k0 k1) ++ rest)))) :
    writeRowRun row s = (some f,
      { drv := false
        trace := (resetEvents 0 p1 ++ phase1Events s.romId (stagedBytes row s.payload) c0 c1
          ++ resetEvents 0 p2 ++ phase2Events s.romId (phase2Bytes nv a0 a1 es ds k0 k1)).reverse ++ s.line.trace
        answers := rest }) := by
  subst hn
  have h1 := writePhase1_run s.romId row s.payload s.tr.buf s.tr.crcRx s.line hd 0 (Nat.zero_le _) p1 c0 c1 _ h
  have h2 := writePhase2_run s.romId (!crc16PairOk (stagedBytes row s.payload) 11 c0 c1)
    (stageBuffer row s.payload s.tr.buf) #v[c0, c1]
    { drv := false
      trace := (resetEvents 0 p1 ++ phase1Events s.romId (stagedBytes row s.payload) c0 c1).reverse ++ s.line.trace
      answers := true :: p2 :: (byteAnswers
        (phase2Bytes (!crc16PairOk (stagedBytes row s.payload) 11 c0 c1) a0 a1 es ds k0 k1) ++ rest) }
    rfl 0 (Nat.zero_le _) p2 a0 a1 es k0 k1 ds rest rfl
  rw [hf] at h2
  rw [writeRowRun_failed row s _ _ _ _ f h1 h2]
  simp

/-- A row write that reaches Phase 3, on scripted answers with the line high at each reset (rules R128 to R131). -/
theorem writeRowRun_scripted_passed (row : Nat) (s : State) (p1 p2 p3 nv : Bool) (c0 c1 a0 a1 es k0 k1 ack : Byte)
    (ds : Vector Byte 8) (rest : List Bool) (buf : Vector Byte 12)
    (hn : nv = !crc16PairOk (stagedBytes row s.payload) 11 c0 c1)
    (hf : phase2Result nv (stageBuffer row s.payload s.tr.buf) a0 a1 es ds k0 k1 = .ok buf)
    (hd : s.line.drv = false) (h : s.line.answers = true :: p1 :: (byteAnswers [c0, c1]
      ++ (true :: p2 :: (byteAnswers (phase2Bytes nv a0 a1 es ds k0 k1)
        ++ (true :: p3 :: (bitsLsbFirst ack ++ rest)))))) :
    writeRowRun row s = (if ack = commitOk then none else some .commitFailed,
      { drv := false
        trace := (resetEvents 0 p1 ++ phase1Events s.romId (stagedBytes row s.payload) c0 c1
          ++ resetEvents 0 p2 ++ phase2Events s.romId (phase2Bytes nv a0 a1 es ds k0 k1)
          ++ resetEvents 0 p3 ++ phase3Events s.romId a0 a1 esFullRow ack).reverse ++ s.line.trace
        answers := rest }) := by
  subst hn
  have h1 := writePhase1_run s.romId row s.payload s.tr.buf s.tr.crcRx s.line hd 0 (Nat.zero_le _) p1 c0 c1 _ h
  have h2 := writePhase2_run s.romId (!crc16PairOk (stagedBytes row s.payload) 11 c0 c1)
    (stageBuffer row s.payload s.tr.buf) #v[c0, c1]
    { drv := false
      trace := (resetEvents 0 p1 ++ phase1Events s.romId (stagedBytes row s.payload) c0 c1).reverse ++ s.line.trace
      answers := true :: p2 :: (byteAnswers
        (phase2Bytes (!crc16PairOk (stagedBytes row s.payload) 11 c0 c1) a0 a1 es ds k0 k1)
          ++ (true :: p3 :: (bitsLsbFirst ack ++ rest))) }
    rfl 0 (Nat.zero_le _) p2 a0 a1 es k0 k1 ds _ rfl
  rw [hf] at h2
  obtain ⟨-, e1, e2, e3⟩ := phase2Result_ok _ _ _ _ _ _ _ _ _ hf
  have h3 := writePhase3_run s.romId buf
    { drv := false
      trace := (resetEvents 0 p2 ++ phase2Events s.romId
          (phase2Bytes (!crc16PairOk (stagedBytes row s.payload) 11 c0 c1) a0 a1 es ds k0 k1)).reverse
        ++ ((resetEvents 0 p1 ++ phase1Events s.romId (stagedBytes row s.payload) c0 c1).reverse ++ s.line.trace)
      answers := true :: p3 :: (bitsLsbFirst ack ++ rest) } rfl 0 (Nat.zero_le _) p3 ack rest rfl
  rw [writeRowRun_passed row s _ _ _ _ buf _ h1 h2 h3, e1, e2, e3]
  simp

/-- `WRITE_ROW` of a row in range, as its meaning says it. -/
theorem exec_writeRow_eq (s : State) (row : Nat) (hr : row < 16) :
    exec (.writeRow row) s
      = .next (settle (writeRowRun row s).1 { s with line := (writeRowRun row s).2 }) := by
  simp only [exec, execWriteRow, rowCount, hr, if_true]

/-- `READ_ROW` of a row in range, as its meaning says it. -/
theorem exec_readRow_eq (s : State) (row : Nat) (hr : row < 16) :
    exec (.readRow row) s
      = .next (settle none { s with dataOut := (readRowRun s.romId row s.line).1
                                    line := (readRowRun s.romId row s.line).2 }) := by
  simp only [exec, execReadRow, rowCount, hr, if_true]

end Sys2Proof.Machine
end

