-- ==== Sys2Proof/Laws/Encoding.lean ====
section
/-! SUPPORT. When the encoder and the assembler answer, and what. -/

namespace Sys2Proof

theorem encode_eq_some (i : Instr) (b : Byte) : encode i = some b ↔ i.wellFormed = true ∧ byteOf i = b := by
  cases h : i.wellFormed <;> simp [encode, h]

theorem encode_eq_none (i : Instr) : encode i = none ↔ i.wellFormed = false := by
  cases h : i.wellFormed <;> simp [encode, h]

@[simp] theorem encode_of_wellFormed (i : Instr) (h : i.wellFormed = true) : encode i = some (byteOf i) := if_pos h

/-- What holds of the byte of a well-formed instruction holds of every byte the encoder answers. -/
theorem of_encode {P : Byte → Prop} {i : Instr} (h : i.wellFormed = true → P (byteOf i)) (b : Byte)
    (hb : encode i = some b) : P b := by
  obtain ⟨hw, rfl⟩ := (encode_eq_some i b).1 hb
  exact h hw

namespace Machine

/-- An instruction has a command line exactly when rule R75 names it and some word encodes it. -/
theorem commandLine_eq (i : Instr) :
    commandLine i = if i.wellFormed ∧ hasLine i then .ok [.command (byteOf i)] else .error (.noSuchLine i) := by
  cases hw : i.wellFormed <;> cases hl : hasLine i <;> simp [commandLine, encode, hw, hl]

end Machine

end Sys2Proof
end

