-- ==== Sys2Proof/Laws/PerInstr.lean ====
section
/-! SUPPORT. What holds of each instruction as syntax, one lemma per constructor. -/

namespace Sys2Proof.Laws.InItsTableRow

/-- A byte selects, on the host layer, the row of this instruction and no other (rule R61). -/
abbrev OneRow (i : Instr) (b : Byte) : Prop :=
  (hostTable.filter fun r => r.selects b).map TableRow.mnemonic = [i.mnemonic]

/-- The byte the encoder gives an instruction selects, on its layer, its own row of the opcode table and no other: for the
host layer by `match` and `mask` (rule R61), for a bus command by its position (rule R64). -/
def Statement (i : Instr) : Prop :=
  ∀ b, encode i = some b →
    match i.layer with
    | .host => OneRow i b
    | .bus p => b = busByte p ∧ busInstr p = i

/-- A row the encoder takes is one of 16, so 16 cases cover every well-formed row. -/
theorem row_cases {P : Nat → Prop} (h : ∀ r : Fin 16, P r) (row : Nat) (hr : row < 16) : P row := h ⟨row, hr⟩

theorem owReset : Statement .owReset := of_encode fun _ => show OneRow .owReset _ by decide
theorem owWriteBit (bit : Bool) : Statement (.owWriteBit bit) :=
  of_encode fun _ => show OneRow (.owWriteBit bit) _ by revert bit; decide
theorem owReadBit : Statement .owReadBit := of_encode fun _ => show OneRow .owReadBit _ by decide
theorem owWriteByte : Statement .owWriteByte := of_encode fun _ => show OneRow .owWriteByte _ by decide
theorem owReadByte : Statement .owReadByte := of_encode fun _ => show OneRow .owReadByte _ by decide
theorem discover : Statement .discover := of_encode fun _ => show OneRow .discover _ by decide
theorem select : Statement .select := of_encode fun _ => show OneRow .select _ by decide
theorem readRow (row : Nat) : Statement (.readRow row) := of_encode fun h =>
  row_cases (P := fun r => OneRow (.readRow r) (byteOf (.readRow r))) (by decide) row (of_decide_eq_true h)
theorem writeRow (row : Nat) : Statement (.writeRow row) := of_encode fun h =>
  row_cases (P := fun r => OneRow (.writeRow r) (byteOf (.writeRow r))) (by decide) row (of_decide_eq_true h)
theorem illegal0 (word : Byte) : Statement (.illegal0 word) := by
  refine of_encode ?_
  show _ → OneRow (.illegal0 word) word
  revert word; decide +kernel
theorem illegalAB (word : Byte) : Statement (.illegalAB word) := by
  refine of_encode ?_
  show _ → OneRow (.illegalAB word) word
  revert word; decide +kernel
theorem illegalCF (word : Byte) : Statement (.illegalCF word) := by
  refine of_encode ?_
  show _ → OneRow (.illegalCF word) word
  revert word; decide +kernel
theorem searchRom : Statement .searchRom := of_encode fun _ => ⟨rfl, rfl⟩
theorem matchRom : Statement .matchRom := of_encode fun _ => ⟨rfl, rfl⟩
theorem readMemory : Statement .readMemory := of_encode fun _ => ⟨rfl, rfl⟩
theorem writeScratchpad : Statement .writeScratchpad := of_encode fun _ => ⟨rfl, rfl⟩
theorem readScratchpad : Statement .readScratchpad := of_encode fun _ => ⟨rfl, rfl⟩
theorem copy : Statement .copy := of_encode fun _ => ⟨rfl, rfl⟩

end Sys2Proof.Laws.InItsTableRow
end

