-- ==== Sys2Proof/Laws/Sequencer.lean ====
section
/-! SUPPORT. The sequencer event by event: what one move can do, and how a run of moves follows each operation. -/

namespace Sys2Proof.Machine

/-! ## What the moves of the sequencer leave alone -/

/-- A move that emits nothing and touches no register the host sees, except at the end of the command. -/
def Quiet (s t : State) : Prop :=
  t.line = s.line ∧ HostSideKept s t ∧
  (t.busy = true → t.ok = s.ok ∧ t.err = s.err ∧ t.dataOut = s.dataOut ∧ t.romId = s.romId)

theorem Quiet.refl (s : State) : Quiet s s := ⟨rfl, ⟨rfl, rfl, rfl, rfl⟩, fun _ => ⟨rfl, rfl, rfl, rfl⟩⟩

/-- A state with other transient registers and another sequencer state, and what follows from it. -/
theorem Quiet.of_tr {s t : State} {tr : Transient} {q : Seq} (h : Quiet { s with tr := tr, seq := q } t) : Quiet s t := h

theorem quiet_settle (c : Option Failure) (s : State) : Quiet s (settle c s) := by
  cases c <;> exact ⟨rfl, ⟨rfl, rfl, rfl, rfl⟩, fun h => by simp at h⟩

theorem quiet_goCmd (q : CmdSeq) (s : State) : Quiet s (goCmd q s) := Quiet.refl s
theorem quiet_goSel (q : SelSeq) (s : State) : Quiet s (goSel q s) := Quiet.refl s
theorem quiet_goBit (q : BitSeq) (s : State) : Quiet s (goBit q s) := Quiet.refl s

theorem quiet_selectDone (s : State) : Quiet s (selectDone s) := by
  unfold selectDone
  split <;> first | exact quiet_settle _ _ | exact Quiet.refl s

theorem quiet_cmdWroteByte (s : State) : Quiet s (cmdWroteByte s) := by
  unfold cmdWroteByte
  repeat' split
  all_goals first | exact quiet_settle _ _ | exact Quiet.refl s

theorem quiet_byteWritten (s : State) : Quiet s (byteWritten s) := by
  unfold byteWritten
  repeat' split
  all_goals first | exact quiet_selectDone s | exact quiet_cmdWroteByte s | exact Quiet.refl s

theorem quiet_resetDone (c : Option Failure) (s : State) : Quiet s (resetDone c s) := by
  unfold resetDone
  repeat' split
  all_goals first | exact quiet_settle _ _ | exact Quiet.refl s

theorem quiet_bitWritten (s : State) : Quiet s (bitWritten s) := by
  unfold bitWritten
  repeat' split
  all_goals first
    | exact quiet_settle _ _
    | exact Quiet.refl s
    | exact quiet_byteWritten { s with seq := { s.seq with byte := none, bit := none } }

/-- A settled state whose data register was written is no longer busy. -/
theorem quiet_settle_dataOut (c : Option Failure) (s : State) (v : Byte) :
    Quiet s (settle c { s with dataOut := v }) := by
  cases c <;> exact ⟨rfl, ⟨rfl, rfl, rfl, rfl⟩, fun h => by simp at h⟩

theorem quiet_byteRead (s : State) : Quiet s (byteRead s) := by
  unfold byteRead
  dsimp only
  repeat' split
  all_goals first | exact quiet_settle_dataOut _ _ _ | exact Quiet.refl s

theorem quiet_bitRead (v : Bool) (s : State) : Quiet s (bitRead v s) := by
  unfold bitRead
  dsimp only
  repeat' split
  all_goals first
    | exact quiet_settle_dataOut _ _ _
    | exact Quiet.refl s
    | exact quiet_byteRead { s with tr := { s.tr with shift := orBit s.tr.shift s.tr.bitCnt.toNat v }
                                    seq := { s.seq with byte := none, bit := none } }

/-- At the command level, everything but the programming wait is quiet. -/
theorem quiet_cmdTick (s : State) (h : s.seq.cmd ≠ .w3Wait) : Quiet s (cmdTick s) := by
  unfold cmdTick
  dsimp only
  repeat' split
  all_goals first
    | exact Quiet.refl s
    | exact quiet_settle _ s
    | exact ⟨rfl, ⟨rfl, rfl, rfl, rfl⟩, fun h => by simp at h⟩
    | contradiction

theorem quiet_selTick (q : SelSeq) (s : State) : Quiet s (selTick q s) := by
  cases q <;> exact Quiet.refl s

/-! ## What one move does to the line -/

/-- The event a state of the bit engine emits; `none` is a `Sample` (rules R82 to R84). -/
def BitSeq.event : BitSeq → Option Event
  | .waitSample => none
  | .waitDelay => some (.delayUs rstRetryUs)
  | .rstDrive => some .drive0
  | .rstLowDelay => some (.delayUs rstLowUs)
  | .rstRelease => some .release
  | .rstPdsDelay => some (.delayUs Config.tPds)
  | .rstPresence => none
  | .rstRecover => some (.delayUs rstRecUs)
  | .wbDrive _ => some .drive0
  | .wbLowDelay b => some (.delayUs (writeLowUs b))
  | .wbRelease _ => some .release
  | .wbRelDelay b => some (.delayUs (writeRelUs b))
  | .rbDrive => some .drive0
  | .rbLowDelay => some (.delayUs readLowUs)
  | .rbRelease => some .release
  | .rbWaitDelay => some (.delayUs readWaitUs)
  | .rbSample => none

/-- The line after a state of the bit engine has had its move. -/
def BitSeq.lineAfter (q : BitSeq) (l : Line) : Line :=
  match q.event with
  | some e => emit e l
  | none => (sample l).2

/-- A move of the bit engine emits its state's event, and is quiet otherwise. -/
theorem quiet_bitTick (q : BitSeq) (s : State) : Quiet { s with line := q.lineAfter s.line } (bitTick q s) := by
  cases q
  case waitSample =>
    unfold bitTick
    dsimp only
    split
    · exact Quiet.refl _
    · split
      · exact Quiet.refl _
      · exact quiet_resetDone _ _
  case rstRecover => exact quiet_resetDone _ _
  case wbRelDelay b => exact quiet_bitWritten _
  case rbSample => exact quiet_bitRead _ { s with line := (sample s.line).2 }
  all_goals exact Quiet.refl _

/-- One move of the block: the bit engine's if it runs, the programming wait's, or a move with no event. -/
theorem tick_quiet (s : State) :
    (∃ q, s.seq.bit = some q ∧ tick s = bitTick q s) ∨
    (s.seq.bit = none ∧ s.seq.byte = none ∧ s.seq.sel = none ∧ s.seq.cmd = .w3Wait
      ∧ tick s = goCmd .w3Rx (emitEvent (.delayMs progMs) s)) ∨
    (s.seq.bit = none ∧ Quiet s (tick s)) := by
  unfold tick
  cases hb : s.seq.bit with
  | some q => exact .inl ⟨q, rfl, rfl⟩
  | none =>
    cases hy : s.seq.byte with
    | some y => cases y <;> exact .inr (.inr ⟨rfl, Quiet.refl s⟩)
    | none =>
      cases hs : s.seq.sel with
      | some q => exact .inr (.inr ⟨rfl, quiet_selTick q s⟩)
      | none =>
        by_cases hc : s.seq.cmd = .w3Wait
        · exact .inr (.inl ⟨rfl, rfl, rfl, hc, by simp only [cmdTick, hc]⟩)
        · exact .inr (.inr ⟨rfl, quiet_cmdTick s hc⟩)

/-- The line after one move: at most one event more. -/
theorem tick_line (s : State) :
    (tick s).line = s.line ∨ (∃ q, s.seq.bit = some q ∧ (tick s).line = q.lineAfter s.line) ∨
    (s.seq.bit = none ∧ (tick s).line = emit (.delayMs progMs) s.line) := by
  rcases tick_quiet s with ⟨q, hq, h⟩ | ⟨hb, -, -, -, h⟩ | ⟨-, h⟩
  · exact .inr (.inl ⟨q, hq, by rw [h]; exact (quiet_bitTick q s).1⟩)
  · exact .inr (.inr ⟨hb, by rw [h]; rfl⟩)
  · exact .inl h.1

/-- An idle sequencer does not move. -/
theorem tick_idle (s : State) (h : s.seq = Seq.idle) : tick s = s := by
  unfold tick cmdTick
  simp [h, Seq.idle]

/-! ## Runs -/

theorem ticks_succ (n : Nat) (s : State) : ticks (n + 1) s = ticks n (tick s) := rfl

theorem ticks_add (m n : Nat) (s : State) : ticks (m + n) s = ticks n (ticks m s) := by
  induction m generalizing s with
  | zero => simp [ticks]
  | succ m ih => rw [Nat.succ_add, ticks_succ, ih, ticks_succ]

theorem RunsIn.refl (s : State) : RunsIn 0 s s := ⟨0, Nat.le_refl 0, rfl, fun m h => absurd h (Nat.not_lt_zero m)⟩

theorem RunsIn.mono {j k : Nat} {s t : State} (h : RunsIn j s t) (hk : j ≤ k) : RunsIn k s t := by
  obtain ⟨n, hn, ht, hb⟩ := h
  exact ⟨n, Nat.le_trans hn hk, ht, hb⟩

theorem RunsIn.trans {j k : Nat} {s t u : State} (h : RunsIn j s t) (g : RunsIn k t u) : RunsIn (j + k) s u := by
  obtain ⟨n, hn, rfl, hb⟩ := h
  obtain ⟨m, hm, rfl, gb⟩ := g
  refine ⟨n + m, by omega, ticks_add n m s, ?_⟩
  intro i hi
  by_cases hin : i < n
  · exact hb i hin
  · obtain ⟨d, rfl⟩ : ∃ d, i = n + d := ⟨i - n, by omega⟩
    rw [ticks_add]
    exact gb d (by omega)

/-- One move of a busy block. -/
theorem RunsIn.one {s t : State} (hb : s.busy = true) (ht : tick s = t) : RunsIn 1 s t :=
  ⟨1, Nat.le_refl 1, ht, fun m hm => by
    have : m = 0 := by omega
    subst this
    exact hb⟩

/-- One move first, the rest after. -/
theorem RunsIn.cons {k : Nat} {s t : State} (hb : s.busy = true) (h : RunsIn k (tick s) t) : RunsIn (k + 1) s t :=
  ((RunsIn.one hb rfl).trans h).mono (by omega)

theorem tick_bit {s : State} {q : BitSeq} (h : s.seq.bit = some q) : tick s = bitTick q s := by
  unfold tick
  rw [h]

theorem tick_tx {s : State} (hb : s.seq.bit = none) (h : s.seq.byte = some .tx) :
    tick s = goBit (.wbDrive (s.tr.shift.getLsbD s.tr.bitCnt.toNat)) s := by
  unfold tick
  rw [hb, h]

theorem tick_rx {s : State} (hb : s.seq.bit = none) (h : s.seq.byte = some .rx) : tick s = goBit .rbDrive s := by
  unfold tick
  rw [hb, h]

theorem tick_sel {s : State} {q : SelSeq} (hb : s.seq.bit = none) (hy : s.seq.byte = none) (h : s.seq.sel = some q) :
    tick s = selTick q s := by
  unfold tick
  rw [hb, hy, h]

theorem tick_cmd {s : State} (hb : s.seq.bit = none) (hy : s.seq.byte = none) (h : s.seq.sel = none) :
    tick s = cmdTick s := by
  unfold tick
  rw [hb, hy, h]

/-- A write slot (rule R83): four moves. -/
theorem runs_writeBit (b : Bool) (s : State) (hb : s.busy = true) (h : s.seq.bit = some (.wbDrive b)) :
    RunsIn 4 s (bitWritten { s with line := writeBit b s.line, seq := { s.seq with bit := some (.wbRelDelay b) } }) := by
  refine RunsIn.cons hb ?_
  rw [tick_bit h]
  refine RunsIn.cons (by simpa [bitTick] using hb) ?_
  rw [tick_bit (q := .wbLowDelay b) rfl]
  refine RunsIn.cons (by simpa [bitTick] using hb) ?_
  rw [tick_bit (q := .wbRelease b) rfl]
  refine RunsIn.one (by simpa [bitTick] using hb) ?_
  rw [tick_bit (q := .wbRelDelay b) rfl]
  simp only [bitTick, goBit, emitEvent, writeBit, writeSlot, emits]

/-- A read slot (rule R84): five moves. -/
theorem runs_readBit (s : State) (hb : s.busy = true) (h : s.seq.bit = some .rbDrive) :
    RunsIn 5 s (bitRead (readBit s.line).1
      { s with line := (readBit s.line).2, seq := { s.seq with bit := some .rbSample } }) := by
  refine RunsIn.cons hb ?_
  rw [tick_bit h]
  refine RunsIn.cons (by simpa [bitTick] using hb) ?_
  rw [tick_bit (q := .rbLowDelay) rfl]
  refine RunsIn.cons (by simpa [bitTick] using hb) ?_
  rw [tick_bit (q := .rbRelease) rfl]
  refine RunsIn.cons (by simpa [bitTick] using hb) ?_
  rw [tick_bit (q := .rbWaitDelay) rfl]
  refine RunsIn.one (by simpa [bitTick] using hb) ?_
  rw [tick_bit (q := .rbSample) rfl]
  simp only [bitTick, goBit, emitEvent, readBit, emits]

/-- The pulse of `reset()`: seven moves after the sample that was high. -/
theorem runs_pulse (s : State) (hb : s.busy = true) (h : s.seq.bit = some .rstDrive) :
    RunsIn 6 s (resetDone (if (presencePulse s.line).1 then some .noPresence else none)
      { s with line := (presencePulse s.line).2, tr := { s.tr with pres := (presencePulse s.line).1 }
               seq := { s.seq with bit := some .rstRecover } }) := by
  refine RunsIn.cons hb ?_
  rw [tick_bit h]
  refine RunsIn.cons (by simpa [bitTick] using hb) ?_
  rw [tick_bit (q := .rstLowDelay) rfl]
  refine RunsIn.cons (by simpa [bitTick] using hb) ?_
  rw [tick_bit (q := .rstRelease) rfl]
  refine RunsIn.cons (by simpa [bitTick] using hb) ?_
  rw [tick_bit (q := .rstPdsDelay) rfl]
  refine RunsIn.cons (by simpa [bitTick] using hb) ?_
  rw [tick_bit (q := .rstPresence) rfl]
  refine RunsIn.one (by simpa [bitTick] using hb) ?_
  rw [tick_bit (q := .rstRecover) rfl]
  simp only [bitTick, goBit, emitEvent, presencePulse, emits]
  rfl

/-- `reset()` from its `n`-th last sample on (rule R82). Only `RETRY` and `PRES` change beside the line. -/
theorem runs_resetFrom (n : Nat) (s : State) (hb : s.busy = true) (h : s.seq.bit = some .waitSample)
    (hr : s.tr.retry.toNat + n = rstRetryN) :
    ∃ r p q, RunsIn (2 * n + 7) s (resetDone
      (if (waitHigh n s.line).1 then
        if (presencePulse (waitHigh n s.line).2).1 then some .noPresence else none
      else some .busTimeout)
      { s with line := if (waitHigh n s.line).1 then (presencePulse (waitHigh n s.line).2).2 else (waitHigh n s.line).2
               tr := { s.tr with retry := r, pres := p }, seq := { s.seq with bit := some q } }) := by
  induction n generalizing s with
  | zero =>
    cases hv : (sample s.line).1 with
    | true =>
      have ht : tick s = goBit .rstDrive { s with line := (sample s.line).2 } := by
        rw [tick_bit h]; simp [bitTick, hv]
      have hp := runs_pulse (goBit .rstDrive { s with line := (sample s.line).2 }) hb rfl
      refine ⟨s.tr.retry, (presencePulse (sample s.line).2).1, .rstRecover, ?_⟩
      rw [show waitHigh 0 s.line = sample s.line from rfl]
      simp only [hv, if_true]
      exact RunsIn.cons hb (by rw [ht]; exact hp)
    | false =>
      have ht : tick s = resetDone (some .busTimeout) { s with line := (sample s.line).2 } := by
        rw [tick_bit h]
        have : ¬ s.tr.retry.toNat < rstRetryN := by omega
        simp [bitTick, hv, this]
      refine ⟨s.tr.retry, s.tr.pres, .waitSample, ?_⟩
      rw [show waitHigh 0 s.line = sample s.line from rfl]
      simp only [hv, Bool.false_eq_true, if_false]
      refine (RunsIn.one hb ?_).mono (by omega)
      rw [ht]
      congr 1
      cases s with
      | mk romId payload dataIn dataOut ok err busy seq tr line draws inputs readLog =>
        cases seq
        simp at h
        subst h
        rfl
  | succ n ih =>
    cases hv : (sample s.line).1 with
    | true =>
      have ht : tick s = goBit .rstDrive { s with line := (sample s.line).2 } := by
        rw [tick_bit h]; simp [bitTick, hv]
      have hp := runs_pulse (goBit .rstDrive { s with line := (sample s.line).2 }) hb rfl
      refine ⟨s.tr.retry, (presencePulse (sample s.line).2).1, .rstRecover, ?_⟩
      have hw : waitHigh (n + 1) s.line = sample s.line := by simp [waitHigh, hv]
      rw [hw]
      simp only [hv, if_true]
      exact (RunsIn.cons hb (by rw [ht]; exact hp)).mono (by omega)
    | false =>
      have hlt : s.tr.retry.toNat < rstRetryN := by omega
      have ht : tick s = goBit .waitDelay { s with line := (sample s.line).2 } := by
        rw [tick_bit h]; simp [bitTick, hv, hlt]
      have ht2 : tick (goBit .waitDelay { s with line := (sample s.line).2 })
          = goBit .waitSample (emitEvent (.delayUs rstRetryUs)
              { s with line := (sample s.line).2, tr := { s.tr with retry := s.tr.retry + 1 } }) := by
        rw [tick_bit (q := .waitDelay) rfl]; rfl
      have hadd : (s.tr.retry + 1).toNat = s.tr.retry.toNat + 1 := by
        have : s.tr.retry.toNat < 125 := hlt
        simp [BitVec.toNat_add]
        omega
      obtain ⟨r, p, q, hi⟩ := ih (goBit .waitSample (emitEvent (.delayUs rstRetryUs)
        { s with line := (sample s.line).2, tr := { s.tr with retry := s.tr.retry + 1 } })) hb rfl
        (by simp only [goBit_tr, emitEvent_tr, hadd]; omega)
      refine ⟨r, p, q, ?_⟩
      have hw : waitHigh (n + 1) s.line = waitHigh n (emit (.delayUs rstRetryUs) (sample s.line).2) := by
        simp [waitHigh, hv]
      rw [hw]
      refine (RunsIn.cons hb ?_).mono (by omega : 2 * n + 7 + 1 + 1 ≤ 2 * (n + 1) + 7)
      rw [ht]
      refine RunsIn.cons hb ?_
      rw [ht2]
      exact hi

/-- `reset()` (rule R82): at most 257 moves. Only `RETRY` and `PRES` change beside the line. -/
theorem runs_reset (s : State) (hb : s.busy = true) (h : s.seq.bit = some .waitSample) (hr : s.tr.retry = 0) :
    ∃ r p q, RunsIn 257 s (resetDone (reset s.line).1
      { s with line := (reset s.line).2, tr := { s.tr with retry := r, pres := p }
               seq := { s.seq with bit := some q } }) := by
  obtain ⟨r, p, q, hi⟩ := runs_resetFrom rstRetryN s hb h (by rw [hr]; rfl)
  refine ⟨r, p, q, ?_⟩
  unfold reset
  dsimp only
  split
  · rename_i hv
    simp only [hv, if_true] at hi
    exact hi
  · rename_i hv
    simp only [hv] at hi
    exact hi

theorem bitsLsbFirst_drop (v : Byte) (i : Nat) (hi : i < 8) :
    (bitsLsbFirst v).drop i = v.getLsbD i :: (bitsLsbFirst v).drop (i + 1) := by
  rw [List.drop_eq_getElem_cons (show i < (bitsLsbFirst v).length by simpa using hi)]
  simp [bitsLsbFirst]

theorem bitCnt_succ (c : BitVec 3) (h : c.toNat < 7) : (c + 1).toNat = c.toNat + 1 := by
  simp [BitVec.toNat_add]
  omega

theorem bitCnt_eq_seven (c : BitVec 3) (h : ¬ c.toNat < 7) : c = 7#3 := by
  apply BitVec.eq_of_toNat_eq
  have := c.isLt
  simp
  omega

/-- `writeByte` from bit `BITCNT` on (rule R90): five moves a bit. Only `BITCNT` changes beside the line. -/
theorem runs_writeBitsFrom (n : Nat) (s : State) (hb : s.busy = true) (hq : s.seq.bit = none)
    (hy : s.seq.byte = some .tx) (hc : s.tr.bitCnt.toNat + n = 7) :
    RunsIn (5 * (n + 1)) s (byteWritten
      { s with line := writeBits ((bitsLsbFirst s.tr.shift).drop s.tr.bitCnt.toNat) s.line
               tr := { s.tr with bitCnt := 7#3 }, seq := { s.seq with byte := none, bit := none } }) := by
  induction n generalizing s with
  | zero =>
    have h7 : ¬ s.tr.bitCnt.toNat < 7 := by omega
    have hw := runs_writeBit (s.tr.shift.getLsbD s.tr.bitCnt.toNat)
      (goBit (.wbDrive (s.tr.shift.getLsbD s.tr.bitCnt.toNat)) s) hb rfl
    have he : bitWritten { goBit (.wbDrive (s.tr.shift.getLsbD s.tr.bitCnt.toNat)) s with
          line := writeBit (s.tr.shift.getLsbD s.tr.bitCnt.toNat) s.line
          seq := { s.seq with bit := some (.wbRelDelay (s.tr.shift.getLsbD s.tr.bitCnt.toNat)) } }
        = byteWritten
          { s with line := writeBits ((bitsLsbFirst s.tr.shift).drop s.tr.bitCnt.toNat) s.line
                   tr := { s.tr with bitCnt := 7#3 }, seq := { s.seq with byte := none, bit := none } } := by
      rw [bitsLsbFirst_drop _ _ (by omega), List.drop_of_length_le (by simp; omega)]
      have e7 : s.tr.bitCnt = 7#3 := bitCnt_eq_seven _ h7
      simp only [bitWritten, goBit, hy, h7, if_false, writeBits]
      simp only [← e7]
    exact RunsIn.cons hb (by rw [tick_tx hq hy]; rw [← he]; exact hw)
  | succ n ih =>
    have h7 : s.tr.bitCnt.toNat < 7 := by omega
    have hw := runs_writeBit (s.tr.shift.getLsbD s.tr.bitCnt.toNat)
      (goBit (.wbDrive (s.tr.shift.getLsbD s.tr.bitCnt.toNat)) s) hb rfl
    have he : bitWritten { goBit (.wbDrive (s.tr.shift.getLsbD s.tr.bitCnt.toNat)) s with
          line := writeBit (s.tr.shift.getLsbD s.tr.bitCnt.toNat) s.line
          seq := { s.seq with bit := some (.wbRelDelay (s.tr.shift.getLsbD s.tr.bitCnt.toNat)) } }
        = { s with line := writeBit (s.tr.shift.getLsbD s.tr.bitCnt.toNat) s.line
                   tr := { s.tr with bitCnt := s.tr.bitCnt + 1 }, seq := { s.seq with bit := none } } := by
      simp only [bitWritten, goBit, hy, h7, if_true]
    have hi := ih { s with line := writeBit (s.tr.shift.getLsbD s.tr.bitCnt.toNat) s.line
                           tr := { s.tr with bitCnt := s.tr.bitCnt + 1 }, seq := { s.seq with bit := none } }
      hb rfl hy (by simp only [bitCnt_succ _ h7]; omega)
    simp only [bitCnt_succ _ h7] at hi
    rw [bitsLsbFirst_drop _ _ (by omega), writeBits]
    refine (RunsIn.cons hb (k := 4 + 5 * (n + 1)) ?_).mono (by omega)
    rw [tick_tx hq hy]
    exact RunsIn.trans (by rw [← he]; exact hw) hi

/-- `writeByte(v)` once called (rule R90): 40 moves. -/
theorem runs_writeByte (s : State) (hb : s.busy = true) (hq : s.seq.bit = none) (hy : s.seq.byte = some .tx)
    (hc : s.tr.bitCnt = 0) :
    RunsIn 40 s (byteWritten
      { s with line := writeByte s.tr.shift s.line
               tr := { s.tr with bitCnt := 7#3 }, seq := { s.seq with byte := none, bit := none } }) := by
  have h := runs_writeBitsFrom 7 s hb hq hy (by rw [hc]; rfl)
  rw [hc] at h
  exact h

/-- `readByte()` from bit `BITCNT` on (rule R91): six moves a bit. Only `BITCNT` and `SHIFT` change beside the line. -/
theorem runs_readBitsFrom (n : Nat) (s : State) (hb : s.busy = true) (hq : s.seq.bit = none)
    (hy : s.seq.byte = some .rx) (hc : s.tr.bitCnt.toNat + n = 7) :
    RunsIn (6 * (n + 1)) s (byteRead
      { s with line := (readBits (n + 1) s.tr.bitCnt.toNat s.tr.shift s.line).2
               tr := { s.tr with bitCnt := 7#3
                                 shift := (readBits (n + 1) s.tr.bitCnt.toNat s.tr.shift s.line).1 }
               seq := { s.seq with byte := none, bit := none } }) := by
  induction n generalizing s with
  | zero =>
    have h7 : ¬ s.tr.bitCnt.toNat < 7 := by omega
    have hw := runs_readBit (goBit .rbDrive s) hb rfl
    have he : bitRead (readBit s.line).1 { goBit .rbDrive s with
          line := (readBit s.line).2, seq := { s.seq with bit := some .rbSample } }
        = byteRead
          { s with line := (readBits 1 s.tr.bitCnt.toNat s.tr.shift s.line).2
                   tr := { s.tr with bitCnt := 7#3
                                     shift := (readBits 1 s.tr.bitCnt.toNat s.tr.shift s.line).1 }
                   seq := { s.seq with byte := none, bit := none } } := by
      have e7 : s.tr.bitCnt = 7#3 := bitCnt_eq_seven _ h7
      simp only [bitRead, goBit, hy, h7, if_false, readBits]
      simp only [← e7]
    exact RunsIn.cons hb (by rw [tick_rx hq hy]; rw [← he]; exact hw)
  | succ n ih =>
    have h7 : s.tr.bitCnt.toNat < 7 := by omega
    have hw := runs_readBit (goBit .rbDrive s) hb rfl
    have he : bitRead (readBit s.line).1 { goBit .rbDrive s with
          line := (readBit s.line).2, seq := { s.seq with bit := some .rbSample } }
        = { s with line := (readBit s.line).2
                   tr := { s.tr with shift := orBit s.tr.shift s.tr.bitCnt.toNat (readBit s.line).1
                                     bitCnt := s.tr.bitCnt + 1 }
                   seq := { s.seq with bit := none } } := by
      simp only [bitRead, goBit, hy, h7, if_true]
    have hi := ih { s with line := (readBit s.line).2
                           tr := { s.tr with shift := orBit s.tr.shift s.tr.bitCnt.toNat (readBit s.line).1
                                             bitCnt := s.tr.bitCnt + 1 }
                           seq := { s.seq with bit := none } }
      hb rfl hy (by simp only [bitCnt_succ _ h7]; omega)
    simp only [bitCnt_succ _ h7] at hi
    rw [readBits]
    refine (RunsIn.cons hb (k := 5 + 6 * (n + 1)) ?_).mono (by omega)
    rw [tick_rx hq hy]
    exact RunsIn.trans (by rw [← he]; exact hw) hi

/-- `readByte()` once called (rule R91): 48 moves. -/
theorem runs_readByte (s : State) (hb : s.busy = true) (hq : s.seq.bit = none) (hy : s.seq.byte = some .rx)
    (hc : s.tr.bitCnt = 0) (hz : s.tr.shift = 0) :
    RunsIn 48 s (byteRead
      { s with line := (readByte s.line).2
               tr := { s.tr with bitCnt := 7#3, shift := (readByte s.line).1 }
               seq := { s.seq with byte := none, bit := none } }) := by
  have h := runs_readBitsFrom 7 s hb hq hy (by rw [hc]; rfl)
  rw [hc, hz] at h
  exact h

/-! ## Calls -/

/-- A call of `writeByte(v)` (rule R90): 41 moves with the calling one. -/
theorem runs_callWriteByte (v : Byte) (s : State) (hb : s.busy = true) (ht : tick s = callWriteByte v s) :
    RunsIn 41 s (byteWritten
      { s with line := writeByte v s.line, tr := { s.tr with shift := v, bitCnt := 7#3 }
               seq := { s.seq with byte := none, bit := none } }) := by
  refine RunsIn.cons hb ?_
  rw [ht]
  exact runs_writeByte (callWriteByte v s) hb rfl rfl rfl

/-- A call of `readByte()` (rule R91): 49 moves with the calling one. -/
theorem runs_callReadByte (s : State) (hb : s.busy = true) (ht : tick s = callReadByte s) :
    RunsIn 49 s (byteRead
      { s with line := (readByte s.line).2, tr := { s.tr with bitCnt := 7#3, shift := (readByte s.line).1 }
               seq := { s.seq with byte := none, bit := none } }) := by
  refine RunsIn.cons hb ?_
  rw [ht]
  exact runs_readByte (callReadByte s) hb rfl rfl rfl rfl

/-- A call of `reset()` (rule R82): 258 moves with the calling one. -/
theorem runs_callReset (s : State) (hb : s.busy = true) (ht : tick s = callReset s) :
    ∃ r p q, RunsIn 258 s (resetDone (reset s.line).1
      { s with line := (reset s.line).2, tr := { s.tr with retry := r, pres := p }
               seq := { s.seq with bit := some q } }) := by
  obtain ⟨r, p, q, h⟩ := runs_reset (callReset s) hb rfl rfl
  exact ⟨r, p, q, RunsIn.cons hb (by rw [ht]; exact h)⟩

theorem idx_succ (i : BitVec 4) (h : i.toNat < 15) : (i + 1).toNat = i.toNat + 1 := by
  simp [BitVec.toNat_add]
  omega

/-- The identifier bytes of the select frame from `IDX` on (rule R115): 41 moves a byte. -/
theorem runs_selectRom (n : Nat) (s : State) (hb : s.busy = true) (hq : s.seq.bit = none) (hy : s.seq.byte = none)
    (hs : s.seq.sel = some .sRom) (hi : s.tr.idx.toNat + n = 7) :
    ∃ c v i, RunsIn (41 * (n + 1)) s (selectDone
      { s with line := writeSpan s.romId (n + 1) s.tr.idx.toNat s.line
               tr := { s.tr with bitCnt := c, shift := v, idx := i } }) := by
  induction n generalizing s with
  | zero =>
    have h7 : ¬ s.tr.idx.toNat < 7 := by omega
    have ht : tick s = callWriteByte (byteAt s.romId s.tr.idx.toNat) s := by
      rw [tick_sel hq hy hs]
      rfl
    have h := runs_callWriteByte _ s hb ht
    have hz : { s.seq with sel := some .sRom, byte := none, bit := none } = s.seq := by
      cases hh : s.seq
      simp only [hh] at hq hy hs
      simp only [hq, hy, hs]
    simp only [byteWritten, hs, h7, if_false, hz] at h
    exact ⟨_, _, s.tr.idx, h⟩
  | succ n ih =>
    have h7 : s.tr.idx.toNat < 7 := by omega
    have ht : tick s = callWriteByte (byteAt s.romId s.tr.idx.toNat) s := by
      rw [tick_sel hq hy hs]
      rfl
    have h := runs_callWriteByte _ s hb ht
    have hz : { s.seq with sel := some .sRom, byte := none, bit := none } = s.seq := by
      cases hh : s.seq
      simp only [hh] at hq hy hs
      simp only [hq, hy, hs]
    have hg := ih { s with line := writeByte (byteAt s.romId s.tr.idx.toNat) s.line
                           tr := { s.tr with shift := byteAt s.romId s.tr.idx.toNat, bitCnt := 7#3
                                             idx := s.tr.idx + 1 } }
      hb hq hy hs (by simp only [idx_succ s.tr.idx (by omega)]; omega)
    simp only [byteWritten, hs, h7, if_true, goSel, hz] at h
    simp only [idx_succ s.tr.idx (show s.tr.idx.toNat < 15 by omega)] at hg
    obtain ⟨c, v, i, hg⟩ := hg
    exact ⟨c, v, i, (h.trans hg).mono (by omega)⟩

/-- `select()` (rule R115): at most 627 moves. `BITCNT`, `SHIFT`, `RETRY`, `PRES`, `IDX` change beside the line. -/
theorem runs_select (s : State) (hb : s.busy = true) (hq : s.seq.bit = none) (hy : s.seq.byte = none)
    (hs : s.seq.sel = some .sReset) :
    ∃ c v r p i, RunsIn 627 s (selectDone
      { s with line := selectDevice s.romId s.line
               tr := { s.tr with bitCnt := c, shift := v, retry := r, pres := p, idx := i }
               seq := { s.seq with sel := some .sRom, byte := none, bit := none } }) := by
  obtain ⟨r, p, q, h1⟩ := runs_callReset s hb (by rw [tick_sel hq hy hs]; rfl)
  simp only [resetDone, hs] at h1
  have h2 := runs_callWriteByte matchRomByte (goSel .sCmd { s with
      line := (reset s.line).2, tr := { s.tr with retry := r, pres := p }, seq := { s.seq with bit := some q } })
    hb (by rw [tick_sel (q := .sCmd) rfl rfl rfl]; rfl)
  simp only [byteWritten, goSel_seq] at h2
  obtain ⟨c, v, i, h3⟩ := runs_selectRom 7 { s with
      line := writeByte matchRomByte (reset s.line).2
      tr := { s.tr with retry := r, pres := p, shift := matchRomByte, bitCnt := 7#3, idx := 0 }
      seq := { s.seq with sel := some .sRom, byte := none, bit := none } } hb rfl rfl rfl rfl
  exact ⟨c, v, r, p, i, ((h1.trans h2).trans h3).mono (by omega)⟩

/-- A command-level call of `select()` from a state whose next move is that call: 628 moves. -/
theorem runs_callSelect (s : State) (hb : s.busy = true) (ht : tick s = goSel .sReset s) :
    ∃ c v r p i, RunsIn 628 s (selectDone
      { s with line := selectDevice s.romId s.line
               tr := { s.tr with bitCnt := c, shift := v, retry := r, pres := p, idx := i }
               seq := { s.seq with sel := some .sRom, byte := none, bit := none } }) := by
  obtain ⟨c, v, r, p, i, h⟩ := runs_select (goSel .sReset s) hb rfl rfl rfl
  exact ⟨c, v, r, p, i, RunsIn.cons hb (by rw [ht]; exact h)⟩

/-! ## The loops of the command level -/

/-- The sequencer with only the command level running. -/
abbrev Seq.atCmd (q : CmdSeq) : Seq := { cmd := q, sel := none, byte := none, bit := none }

theorem tick_atCmd {s : State} {q : CmdSeq} (h : s.seq = Seq.atCmd q) : tick s = cmdTick s :=
  tick_cmd (by rw [h]) (by rw [h]) (by rw [h])

/-- `W1_TX(i)` from `IDX` on: the staged bytes (rule R123), 41 moves a byte. -/
theorem runs_w1Tx (n : Nat) (s : State) (hb : s.busy = true) (hq : s.seq = Seq.atCmd .w1Tx)
    (hi : s.tr.idx.toNat + n = 10) :
    ∃ c v i, RunsIn (41 * (n + 1)) s (goCmd .w1RxCrc
      { s with line := writeSpan s.tr.buf (n + 1) s.tr.idx.toNat s.line
               tr := { s.tr with bitCnt := c, shift := v, idx := i } }) ∧ i = 0 := by
  have h := runs_callWriteByte (byteAt s.tr.buf s.tr.idx.toNat) s hb
    (by rw [tick_atCmd hq]; simp only [cmdTick, hq])
  induction n generalizing s with
  | zero =>
    have hl : ¬ s.tr.idx.toNat < 10 := by omega
    simp only [byteWritten, cmdWroteByte, hq, hl, if_false] at h
    exact ⟨_, _, _, h, rfl⟩
  | succ n ih =>
    have hl : s.tr.idx.toNat < 10 := by omega
    simp only [byteWritten, cmdWroteByte, hq, hl, if_true] at h
    have hg := ih (goCmd .w1Tx { s with
        line := writeByte (byteAt s.tr.buf s.tr.idx.toNat) s.line
        tr := { s.tr with shift := byteAt s.tr.buf s.tr.idx.toNat, bitCnt := 7#3, idx := s.tr.idx + 1 } })
      hb rfl (by simp only [goCmd_tr, idx_succ s.tr.idx (by omega)]; omega)
      (runs_callWriteByte _ _ hb (by rw [tick_atCmd (q := .w1Tx) rfl]; simp only [cmdTick, goCmd_seq]))
    simp only [goCmd_tr, goCmd_line, idx_succ s.tr.idx (show s.tr.idx.toNat < 15 by omega)] at hg
    obtain ⟨c, v, i, hg, hz⟩ := hg
    exact ⟨c, v, i, (RunsIn.trans h hg).mono (by omega), hz⟩

/-- `W3_TX(i)` from `IDX` on: the commit frame (rule R128), 41 moves a byte. -/
theorem runs_w3Tx (n : Nat) (s : State) (hb : s.busy = true) (hq : s.seq = Seq.atCmd .w3Tx)
    (hi : s.tr.idx.toNat + n = 3) :
    ∃ c v i, RunsIn (41 * (n + 1)) s (goCmd .w3Wait
      { s with line := writeSpan s.tr.buf (n + 1) s.tr.idx.toNat s.line
               tr := { s.tr with bitCnt := c, shift := v, idx := i } }) := by
  have h := runs_callWriteByte (byteAt s.tr.buf s.tr.idx.toNat) s hb
    (by rw [tick_atCmd hq]; simp only [cmdTick, hq])
  induction n generalizing s with
  | zero =>
    have hl : ¬ s.tr.idx.toNat < 3 := by omega
    simp only [byteWritten, cmdWroteByte, hq, hl, if_false] at h
    exact ⟨_, _, _, h⟩
  | succ n ih =>
    have hl : s.tr.idx.toNat < 3 := by omega
    simp only [byteWritten, cmdWroteByte, hq, hl, if_true] at h
    have hg := ih (goCmd .w3Tx { s with
        line := writeByte (byteAt s.tr.buf s.tr.idx.toNat) s.line
        tr := { s.tr with shift := byteAt s.tr.buf s.tr.idx.toNat, bitCnt := 7#3, idx := s.tr.idx + 1 } })
      hb rfl (by simp only [goCmd_tr, idx_succ s.tr.idx (by omega)]; omega)
      (runs_callWriteByte _ _ hb (by rw [tick_atCmd (q := .w3Tx) rfl]; simp only [cmdTick, goCmd_seq]))
    simp only [goCmd_tr, goCmd_line, idx_succ s.tr.idx (show s.tr.idx.toNat < 15 by omega)] at hg
    obtain ⟨c, v, i, hg⟩ := hg
    exact ⟨c, v, i, (RunsIn.trans h hg).mono (by omega)⟩

/-- `W1_RXCRC` from `IDX` on (rule R124, log 14): 49 moves a byte. -/
theorem runs_w1Rx (n : Nat) (s : State) (hb : s.busy = true) (hq : s.seq = Seq.atCmd .w1RxCrc)
    (hi : s.tr.idx.toNat + n = 1) :
    ∃ c v i, RunsIn (49 * (n + 1)) s (goCmd .w1Cmp
      { s with line := (readSpan (n + 1) s.tr.idx.toNat s.tr.crcRx s.line).2
               tr := { s.tr with bitCnt := c, shift := v, idx := i
                                 crcRx := (readSpan (n + 1) s.tr.idx.toNat s.tr.crcRx s.line).1 } }) := by
  have h := runs_callReadByte s hb (by rw [tick_atCmd hq]; simp only [cmdTick, hq])
  induction n generalizing s with
  | zero =>
    have hl : ¬ s.tr.idx.toNat < 1 := by omega
    simp only [byteRead, hq, hl, if_false] at h
    exact ⟨_, _, _, h⟩
  | succ n ih =>
    have hl : s.tr.idx.toNat < 1 := by omega
    simp only [byteRead, hq, hl, if_true] at h
    have hg := ih (goCmd .w1RxCrc { s with
        line := (readByte s.line).2
        tr := { s.tr with crcRx := setByte s.tr.crcRx s.tr.idx.toNat (readByte s.line).1
                          bitCnt := 7#3, shift := (readByte s.line).1, idx := s.tr.idx + 1 } })
      hb rfl (by simp only [goCmd_tr, idx_succ s.tr.idx (by omega)]; omega)
      (runs_callReadByte _ hb (by rw [tick_atCmd (q := .w1RxCrc) rfl]; simp only [cmdTick, goCmd_seq]))
    simp only [goCmd_tr, goCmd_line, idx_succ s.tr.idx (show s.tr.idx.toNat < 15 by omega)] at hg
    obtain ⟨c, v, i, hg⟩ := hg
    rw [readSpan]
    exact ⟨c, v, i, (RunsIn.trans h hg).mono (by omega)⟩

/-- `W2_RX3` from `IDX` on (rule R125): 49 moves a byte. -/
theorem runs_w2Rx3 (n : Nat) (s : State) (hb : s.busy = true) (hq : s.seq = Seq.atCmd .w2Rx3)
    (hi : s.tr.idx.toNat + n = 3) :
    ∃ c v i, RunsIn (49 * (n + 1)) s (goCmd .w2CheckEs
      { s with line := (readSpan (n + 1) s.tr.idx.toNat s.tr.buf s.line).2
               tr := { s.tr with bitCnt := c, shift := v, idx := i
                                 buf := (readSpan (n + 1) s.tr.idx.toNat s.tr.buf s.line).1 } }) := by
  have h := runs_callReadByte s hb (by rw [tick_atCmd hq]; simp only [cmdTick, hq])
  induction n generalizing s with
  | zero =>
    have hl : ¬ s.tr.idx.toNat < 3 := by omega
    simp only [byteRead, hq, hl, if_false] at h
    exact ⟨_, _, _, h⟩
  | succ n ih =>
    have hl : s.tr.idx.toNat < 3 := by omega
    simp only [byteRead, hq, hl, if_true] at h
    have hg := ih (goCmd .w2Rx3 { s with
        line := (readByte s.line).2
        tr := { s.tr with buf := setByte s.tr.buf s.tr.idx.toNat (readByte s.line).1
                          bitCnt := 7#3, shift := (readByte s.line).1, idx := s.tr.idx + 1 } })
      hb rfl (by simp only [goCmd_tr, idx_succ s.tr.idx (by omega)]; omega)
      (runs_callReadByte _ hb (by rw [tick_atCmd (q := .w2Rx3) rfl]; simp only [cmdTick, goCmd_seq]))
    simp only [goCmd_tr, goCmd_line, idx_succ s.tr.idx (show s.tr.idx.toNat < 15 by omega)] at hg
    obtain ⟨c, v, i, hg⟩ := hg
    rw [readSpan]
    exact ⟨c, v, i, (RunsIn.trans h hg).mono (by omega)⟩

/-- `W2_RX10`, the payload bytes from `IDX` on (rule R127): 49 moves a byte. -/
theorem runs_w2RxData (n : Nat) (s : State) (hb : s.busy = true) (hq : s.seq = Seq.atCmd .w2Rx10)
    (hi : s.tr.idx.toNat + n = 11)
    (h4 : 4 ≤ s.tr.idx.toNat) :
    ∃ c v i, RunsIn (49 * (n + 1)) s (goCmd .w2Rx10
      { s with line := (readSpan (n + 1) s.tr.idx.toNat s.tr.buf s.line).2
               tr := { s.tr with bitCnt := c, shift := v, idx := i
                                 buf := (readSpan (n + 1) s.tr.idx.toNat s.tr.buf s.line).1 } }) ∧ i = 0 := by
  have h := runs_callReadByte s hb (by rw [tick_atCmd hq]; simp only [cmdTick, hq])
  induction n generalizing s with
  | zero =>
    have hl : ¬ s.tr.idx.toNat < 11 := by omega
    simp only [byteRead, hq, hl, h4, if_false, if_true] at h
    exact ⟨_, _, _, h, rfl⟩
  | succ n ih =>
    have hl : s.tr.idx.toNat < 11 := by omega
    simp only [byteRead, hq, hl, h4, if_true] at h
    have hg := ih (goCmd .w2Rx10 { s with
        line := (readByte s.line).2
        tr := { s.tr with buf := setByte s.tr.buf s.tr.idx.toNat (readByte s.line).1
                          bitCnt := 7#3, shift := (readByte s.line).1, idx := s.tr.idx + 1 } })
      hb rfl (by simp only [goCmd_tr, idx_succ s.tr.idx (by omega)]; omega)
      (by simp only [goCmd_tr, idx_succ s.tr.idx (show s.tr.idx.toNat < 15 by omega)]; omega)
      (runs_callReadByte _ hb (by rw [tick_atCmd (q := .w2Rx10) rfl]; simp only [cmdTick, goCmd_seq]))
    simp only [goCmd_tr, goCmd_line, idx_succ s.tr.idx (show s.tr.idx.toNat < 15 by omega)] at hg
    obtain ⟨c, v, i, hg, hz⟩ := hg
    rw [readSpan]
    exact ⟨c, v, i, (RunsIn.trans h hg).mono (by omega), hz⟩

/-- `W2_RX10`, the received pair from `IDX` on (rule R127, log 14): 49 moves a byte. -/
theorem runs_w2RxPair (n : Nat) (s : State) (hb : s.busy = true) (hq : s.seq = Seq.atCmd .w2Rx10)
    (hi : s.tr.idx.toNat + n = 1) :
    ∃ c v i, RunsIn (49 * (n + 1)) s (goCmd .w2CheckCrc
      { s with line := (readSpan (n + 1) s.tr.idx.toNat s.tr.crcRx s.line).2
               tr := { s.tr with bitCnt := c, shift := v, idx := i
                                 crcRx := (readSpan (n + 1) s.tr.idx.toNat s.tr.crcRx s.line).1 } }) := by
  have h := runs_callReadByte s hb (by rw [tick_atCmd hq]; simp only [cmdTick, hq])
  induction n generalizing s with
  | zero =>
    have hl : ¬ s.tr.idx.toNat < 1 := by omega
    have h4 : ¬ 4 ≤ s.tr.idx.toNat := by omega
    simp only [byteRead, hq, hl, h4, if_false] at h
    exact ⟨_, _, _, h⟩
  | succ n ih =>
    have hl : s.tr.idx.toNat < 1 := by omega
    have h4 : ¬ 4 ≤ s.tr.idx.toNat := by omega
    simp only [byteRead, hq, hl, h4, if_true, if_false] at h
    have hg := ih (goCmd .w2Rx10 { s with
        line := (readByte s.line).2
        tr := { s.tr with crcRx := setByte s.tr.crcRx s.tr.idx.toNat (readByte s.line).1
                          bitCnt := 7#3, shift := (readByte s.line).1, idx := s.tr.idx + 1 } })
      hb rfl (by simp only [goCmd_tr, idx_succ s.tr.idx (by omega)]; omega)
      (runs_callReadByte _ hb (by rw [tick_atCmd (q := .w2Rx10) rfl]; simp only [cmdTick, goCmd_seq]))
    simp only [goCmd_tr, goCmd_line, idx_succ s.tr.idx (show s.tr.idx.toNat < 15 by omega)] at hg
    obtain ⟨c, v, i, hg⟩ := hg
    rw [readSpan]
    exact ⟨c, v, i, (RunsIn.trans h hg).mono (by omega)⟩


/-- What the end of a command leaves does not depend on the transient registers, nor on where the sequencer was. -/
theorem settle_congr (c : Option Failure) (s : State) (tr : Transient) (q : Seq) (b : Bool) :
    settle c { s with tr := tr, seq := q, busy := b } = settle c s := by
  cases c <;> rfl

/-- One search iteration up to its decision (rule R107): `D_RD_ID`, `D_RD_CMP`; 12 moves. -/
theorem runs_searchReads (s : State) (hb : s.busy = true) (hq : s.seq = Seq.atCmd .dRdId) :
    RunsIn 12 s (goCmd .dDecide
      { s with line := (readBit (readBit s.line).2).2
               tr := { s.tr with idBit := (readBit s.line).1, cmpBit := (readBit (readBit s.line).2).1 } }) := by
  have h1 := runs_readBit (goBit .rbDrive s) hb rfl
  simp only [bitRead, goBit_seq, hq] at h1
  have h2 := runs_readBit (goBit .rbDrive (goCmd .dRdCmp
    { s with line := (readBit s.line).2, tr := { s.tr with idBit := (readBit s.line).1 } })) hb rfl
  simp only [bitRead, goBit_seq, goCmd_seq] at h2
  have g1 : RunsIn 6 s _ := RunsIn.cons hb (by rw [tick_atCmd hq]; simp only [cmdTick, hq]; exact h1)
  have g2 := RunsIn.cons (s := goCmd .dRdCmp
      { s with line := (readBit s.line).2, tr := { s.tr with idBit := (readBit s.line).1 } }) hb
    (by rw [tick_atCmd (q := .dRdCmp) rfl]; exact h2)
  exact g1.trans g2

/-- A search iteration whose two bits are equal ends the command (rule R108). -/
theorem runs_searchFails (s : State) (hb : s.busy = true) (hq : s.seq = Seq.atCmd .dRdId) (f : Failure)
    (hd : searchDecide (readBit s.line).1 (readBit (readBit s.line).2).1 = .error f) :
    RunsIn 13 s (settle (some f) { s with line := (readBit (readBit s.line).2).2 }) := by
  refine (runs_searchReads s hb hq).trans (RunsIn.one hb ?_)
  rw [tick_atCmd (q := .dDecide) rfl]
  simp only [cmdTick, goCmd_seq, goCmd_tr, hd]
  exact settle_congr _ _ _ _ _

/-- A search iteration that finds a bit echoes it (rules R107, R108): 18 moves. -/
theorem runs_searchFinds (s : State) (hb : s.busy = true) (hq : s.seq = Seq.atCmd .dRdId) (v : Bool)
    (hd : searchDecide (readBit s.line).1 (readBit (readBit s.line).2).1 = .ok v) :
    ∃ tr : Transient, tr.acc = orIdBit s.tr.acc s.tr.b.toNat v ∧
      ((s.tr.b.toNat < 63 ∧ tr.b = s.tr.b + 1 ∧
          RunsIn 18 s (goCmd .dRdId { s with line := writeBit v (readBit (readBit s.line).2).2, tr := tr })) ∨
       (¬ s.tr.b.toNat < 63 ∧
          RunsIn 18 s (goCmd .dCheckCrc { s with line := writeBit v (readBit (readBit s.line).2).2, tr := tr }))) := by
  have hv : (readBit s.line).1 = v := by
    revert hd
    cases (readBit s.line).1 <;> cases (readBit (readBit s.line).2).1 <;> simp [searchDecide]
  have ht : tick (goCmd .dDecide
      { s with line := (readBit (readBit s.line).2).2
               tr := { s.tr with idBit := (readBit s.line).1, cmpBit := (readBit (readBit s.line).2).1 } })
    = goCmd .dEcho
      { s with line := (readBit (readBit s.line).2).2
               tr := { s.tr with idBit := (readBit s.line).1, cmpBit := (readBit (readBit s.line).2).1
                                 acc := orIdBit s.tr.acc s.tr.b.toNat v } } := by
    rw [tick_atCmd (q := .dDecide) rfl]
    simp only [cmdTick, goCmd_seq, goCmd_tr, hd]
    rfl
  have hw := runs_writeBit v (goBit (.wbDrive v) (goCmd .dEcho
      { s with line := (readBit (readBit s.line).2).2
               tr := { s.tr with idBit := (readBit s.line).1, cmpBit := (readBit (readBit s.line).2).1
                                 acc := orIdBit s.tr.acc s.tr.b.toNat v } })) hb rfl
  have he : ∀ d : State, d.seq = Seq.atCmd .dEcho → d.tr.idBit = v → tick d = goBit (.wbDrive v) d := by
    intro d h1 h2
    rw [tick_atCmd h1]
    simp only [cmdTick, h1, h2]
  have hr := (runs_searchReads s hb hq).trans (RunsIn.one hb ht)
  have hg := (hr.trans (RunsIn.one hb (he _ rfl hv))).trans hw
  by_cases hl : s.tr.b.toNat < 63
  · simp only [bitWritten, goBit_seq, goCmd_seq, goBit_tr, goCmd_tr, hl, if_true] at hg
    exact ⟨_, rfl, .inl ⟨hl, rfl, hg⟩⟩
  · simp only [bitWritten, goBit_seq, goCmd_seq, goBit_tr, goCmd_tr, hl, if_false] at hg
    exact ⟨_, rfl, .inr ⟨hl, hg⟩⟩

/-- The search from bit `B` on (rules R107, R108, R111): at most 18 moves an iteration. It ends the command, or hands the
accumulated identifier to `D_CHECK_CRC`. -/
theorem runs_search (n : Nat) (s : State) (hb : s.busy = true) (hq : s.seq = Seq.atCmd .dRdId)
    (hi : s.tr.b.toNat + n = 63) :
    (∃ f l, searchLoop (n + 1) s.tr.b.toNat s.tr.acc s.line = (.error f, l) ∧
      RunsIn (18 * (n + 1)) s (settle (some f) { s with line := l })) ∨
    (∃ l tr, searchLoop (n + 1) s.tr.b.toNat s.tr.acc s.line = (.ok tr.acc, l) ∧
      RunsIn (18 * (n + 1)) s (goCmd .dCheckCrc { s with line := l, tr := tr })) := by
  induction n generalizing s with
  | zero =>
    cases hd : searchDecide (readBit s.line).1 (readBit (readBit s.line).2).1 with
    | error f =>
      exact .inl ⟨f, _, by simp only [searchLoop, hd], (runs_searchFails s hb hq f hd).mono (by omega)⟩
    | ok v =>
      obtain ⟨tr, ha, ⟨hl, -⟩ | ⟨-, hr⟩⟩ := runs_searchFinds s hb hq v hd
      · omega
      · exact .inr ⟨_, tr, by simp only [searchLoop, hd, ha], hr.mono (by omega)⟩
  | succ n ih =>
    cases hd : searchDecide (readBit s.line).1 (readBit (readBit s.line).2).1 with
    | error f =>
      refine .inl ⟨f, _, ?_, (runs_searchFails s hb hq f hd).mono (by omega)⟩
      rw [searchLoop]
      simp only [hd]
    | ok v =>
      obtain ⟨tr, ha, ⟨hl, hc, hr⟩ | ⟨hl, -⟩⟩ := runs_searchFinds s hb hq v hd
      · have hs : (s.tr.b + 1).toNat = s.tr.b.toNat + 1 := by
          simp [BitVec.toNat_add]
          omega
        have hstep : searchLoop (n + 1 + 1) s.tr.b.toNat s.tr.acc s.line
            = searchLoop (n + 1) tr.b.toNat tr.acc (writeBit v (readBit (readBit s.line).2).2) := by
          rw [searchLoop]
          simp only [hd, ha, hc, hs]
        rw [hstep]
        rcases ih (goCmd .dRdId { s with line := writeBit v (readBit (readBit s.line).2).2, tr := tr })
          hb rfl (by simp only [goCmd_tr, hc, hs]; omega) with ⟨f, l, h1, h2⟩ | ⟨l, tr', h1, h2⟩
        · exact .inl ⟨f, l, h1, (hr.trans h2).mono (by omega)⟩
        · exact .inr ⟨l, tr', h1, (hr.trans h2).mono (by omega)⟩
      · omega

/-! ## The moves of the command level that call nothing -/

theorem tick_dCheckCrc_ok {s : State} (hq : s.seq = Seq.atCmd .dCheckCrc) (h : romCrcOk s.tr.acc = true) :
    tick s = goCmd .dCheckFam { s with tr := { s.tr with crc8R := crc8 s.tr.acc.toList 7 } } := by
  rw [tick_atCmd hq]
  simp only [cmdTick, hq, h, if_true]

theorem tick_dCheckCrc_bad {s : State} (hq : s.seq = Seq.atCmd .dCheckCrc) (h : romCrcOk s.tr.acc = false) :
    tick s = settle (some .romCrcInvalid) s := by
  rw [tick_atCmd hq]
  simp only [cmdTick, hq, h, Bool.false_eq_true, if_false]
  rfl

theorem tick_dCheckFam_ok {s : State} (hq : s.seq = Seq.atCmd .dCheckFam)
    (h : byteAt s.tr.acc 0 = Config.expectedFamily) : tick s = settle none { s with romId := s.tr.acc } := by
  rw [tick_atCmd hq]
  simp only [cmdTick, hq, h, beq_self_eq_true, if_true]

theorem tick_dCheckFam_bad {s : State} (hq : s.seq = Seq.atCmd .dCheckFam)
    (h : byteAt s.tr.acc 0 ≠ Config.expectedFamily) : tick s = settle (some .familyMismatch) s := by
  rw [tick_atCmd hq]
  simp only [cmdTick, hq, beq_eq_false_iff_ne.mpr h, Bool.false_eq_true, if_false]

theorem tick_w1Cmp {s : State} (hq : s.seq = Seq.atCmd .w1Cmp) :
    tick s = goCmd .w2Select
      { s with tr := { s.tr with crc16R := crc16 s.tr.buf.toList 11
                                 needsVerify := !bufCrcOk s.tr.buf 11 s.tr.crcRx } } := by
  rw [tick_atCmd hq]
  simp only [cmdTick, hq]

theorem tick_w2CheckEs_bad {s : State} (hq : s.seq = Seq.atCmd .w2CheckEs) (h : byteAt s.tr.buf 3 ≠ esFullRow) :
    tick s = settle (some .scratchpadStatusInvalid) s := by
  rw [tick_atCmd hq]
  simp only [cmdTick, hq, bne_iff_ne.mpr h, if_true]

theorem tick_w2CheckEs_verify {s : State} (hq : s.seq = Seq.atCmd .w2CheckEs) (h : byteAt s.tr.buf 3 = esFullRow)
    (hn : s.tr.needsVerify = true) : tick s = goCmd .w2Rx10 { s with tr := { s.tr with idx := 4 } } := by
  rw [tick_atCmd hq]
  simp only [cmdTick, hq, h, hn, bne_self_eq_false, Bool.false_eq_true, if_false, if_true]

theorem tick_w2CheckEs_skip {s : State} (hq : s.seq = Seq.atCmd .w2CheckEs) (h : byteAt s.tr.buf 3 = esFullRow)
    (hn : s.tr.needsVerify = false) :
    tick s = goCmd .w3Select { s with tr := { s.tr with buf := setByte s.tr.buf 0 Config.cmdCopy } } := by
  rw [tick_atCmd hq]
  simp only [cmdTick, hq, h, hn, bne_self_eq_false, Bool.false_eq_true, if_false]

theorem tick_w2CheckCrc_ok {s : State} (hq : s.seq = Seq.atCmd .w2CheckCrc)
    (h : bufCrcOk s.tr.buf 12 s.tr.crcRx = true) :
    tick s = goCmd .w3Select { s with tr := { s.tr with crc16R := crc16 s.tr.buf.toList 12
                                                        buf := setByte s.tr.buf 0 Config.cmdCopy } } := by
  rw [tick_atCmd hq]
  simp only [cmdTick, hq, h, if_true]

theorem tick_w2CheckCrc_bad {s : State} (hq : s.seq = Seq.atCmd .w2CheckCrc)
    (h : bufCrcOk s.tr.buf 12 s.tr.crcRx = false) : tick s = settle (some .payloadCrcInvalid) s := by
  rw [tick_atCmd hq]
  simp only [cmdTick, hq, h, Bool.false_eq_true, if_false]
  rfl

theorem tick_w3Wait {s : State} (hq : s.seq = Seq.atCmd .w3Wait) :
    tick s = goCmd .w3Rx (emitEvent (.delayMs progMs) s) := by
  rw [tick_atCmd hq]
  simp only [cmdTick, hq]

theorem tick_w3Check {s : State} (hq : s.seq = Seq.atCmd .w3Check) :
    tick s = settle (if s.tr.shift != commitOk then some .commitFailed else none) s := by
  rw [tick_atCmd hq]
  simp only [cmdTick, hq]

/-- Two states that agree outside the transient registers and the report end a command in the same state. -/
theorem settle_eq (c : Option Failure) (s t : State) (h1 : t.romId = s.romId) (h2 : t.payload = s.payload)
    (h3 : t.dataIn = s.dataIn) (h4 : t.dataOut = s.dataOut) (h5 : t.line = s.line) (h6 : t.draws = s.draws)
    (h7 : t.inputs = s.inputs) (h8 : t.readLog = s.readLog) : settle c t = settle c s := by
  cases c <;> simp only [settle, endOk, raise, forgetTransients, h1, h2, h3, h4, h5, h6, h7, h8]

end Sys2Proof.Machine
end

