-- ==== Sys2Proof/Tests/Slice0.lean ====
section
/-! SUPPORT. Tests against the spec's words and vectors, and a witness for the hypotheses of every statement that has
some. Expected values come from `spec/30_encoding.md`, `spec/95_test_vectors.md` and the rules named. -/

namespace Sys2Proof.Tests

open Sys2Proof.Machine

/-! ## WellFormed: an ill-formed term for each check -/

theorem test_wellFormed_refuses_readRow_16 : (Instr.readRow 16).wellFormed = false := by decide
theorem test_wellFormed_refuses_writeRow_16 : (Instr.writeRow 16).wellFormed = false := by decide
theorem test_wellFormed_refuses_illegal0_outside : (Instr.illegal0 0x10#8).wellFormed = false := by decide
theorem test_wellFormed_refuses_illegalAB_outside : (Instr.illegalAB 0xC0#8).wellFormed = false := by decide
theorem test_wellFormed_refuses_illegalCF_outside : (Instr.illegalCF 0xBF#8).wellFormed = false := by decide

/-! ## Decoding: every constructor by a word written out from its row (rules R61, R62, R64) -/

theorem test_decode_owReset : decodeWord 0b0001_0000#8 = .owReset := by decide
theorem test_decode_owReset_arg_ignored : decodeWord 0b0001_1111#8 = .owReset := by decide
theorem test_decode_owWriteBit_1 : decodeWord 0b0010_0001#8 = .owWriteBit true := by decide
theorem test_decode_owWriteBit_0 : decodeWord 0b0010_1110#8 = .owWriteBit false := by decide
theorem test_decode_owReadBit : decodeWord 0b0011_0000#8 = .owReadBit := by decide
theorem test_decode_owWriteByte : decodeWord 0b0100_0000#8 = .owWriteByte := by decide
theorem test_decode_owReadByte : decodeWord 0b0101_0000#8 = .owReadByte := by decide
theorem test_decode_discover : decodeWord 0b0110_0000#8 = .discover := by decide
theorem test_decode_select : decodeWord 0b0111_0000#8 = .select := by decide
theorem test_decode_readRow_3 : decodeWord 0b1000_0011#8 = .readRow 3 := by decide
theorem test_decode_writeRow_15 : decodeWord 0b1001_1111#8 = .writeRow 15 := by decide
theorem test_decode_illegal0 : decodeWord 0b0000_1100#8 = .illegal0 0x0C#8 := by decide
theorem test_decode_illegalAB : decodeWord 0b1011_0101#8 = .illegalAB 0xB5#8 := by decide
theorem test_decode_illegalCF : decodeWord 0b1100_0000#8 = .illegalCF 0xC0#8 := by decide
theorem test_decode_searchRom : decodeBus .dCmd 0b1111_0000#8 = .ok .searchRom := by decide
theorem test_decode_matchRom : decodeBus .sCmd 0b0101_0101#8 = .ok .matchRom := by decide
theorem test_decode_readMemory : decodeBus .rdCmd 0b1111_0000#8 = .ok .readMemory := by decide
theorem test_decode_writeScratchpad : decodeBus .w1Tx0 0b0000_1111#8 = .ok .writeScratchpad := by decide
theorem test_decode_readScratchpad : decodeBus .w2Cmd 0b1010_1010#8 = .ok .readScratchpad := by decide
theorem test_decode_copy : decodeBus .w3Tx0 Config.cmdCopy = .ok .copy := if_pos rfl
theorem test_decode_wrong_bus_byte : decodeBus .sCmd 0xF0#8 = .error (.notTheBusCommand .sCmd 0xF0#8) := by decide
theorem test_decode_nothing : decode [] = .error .noWord := rfl
theorem test_decodeTableWord_readRow : decodeTableWord 8 0x8F = some (.readRow 15) := by decide

/-! ## One step on a small state -/

/-- An idle block that knows the worked identifier and payload, with `DATA_IN = 0xA5`, on a line with these answers. -/
def block (answers : List Bool) : State :=
  { State.reset with
    romId := workedId, payload := workedPayload, dataIn := 0xA5#8, line := { State.reset.line with answers := answers } }

/-- What `f` says of the next state, if there is one. -/
def after {α : Type} (o : Host.Outcome State Fault Refusal) (f : State → α) : Option α :=
  match o with
  | .next s => some (f s)
  | .fault _ => none
  | .refused _ => none

/-- A single state for the hypotheses that ask for the outcome of a run command. -/
def afterState (o : Host.Outcome State Fault Refusal) : State :=
  match o with
  | .next s => s
  | .fault _ => State.reset
  | .refused _ => State.reset

/-- V2.2. -/
theorem test_owReset_no_presence : after (exec .owReset (block [true, true])) (fun t => (t.ok, t.err)) = some (false, 2#4) :=
  rfl

/-- V2.4. -/
theorem test_owReset_timeout : after (exec .owReset (block (List.replicate 126 false)))
    (fun t => (t.err, t.events.length)) = some (1#4, 251) := by decide +kernel

/-- V2.7. -/
theorem test_owWriteBit_1 : after (exec (.owWriteBit true) (block [])) State.events
    = some [.drive0, .delayUs 10, .release, .delayUs 55] := by decide

/-- V2.8. -/
theorem test_owWriteBit_0 : after (exec (.owWriteBit false) (block [])) State.events
    = some [.drive0, .delayUs 65, .release, .delayUs 5] := by decide

/-- V2.11. -/
theorem test_owReadBit_1 : after (exec .owReadBit (block [true])) (fun t => (t.dataOut, t.events))
    = some (0x01#8, [.drive0, .delayUs 13, .release, .delayUs 40, .sample true]) := by decide

/-- V3.5, by the slot lengths: `w1 w0 w1 w0 w0 w1 w0 w1`. -/
theorem test_owWriteByte_A5 : after (exec .owWriteByte (block []))
    (fun t => t.events.filter fun e => e = .delayUs 10 ∨ e = .delayUs 65)
    = some [.delayUs 10, .delayUs 65, .delayUs 10, .delayUs 65, .delayUs 65, .delayUs 10, .delayUs 65, .delayUs 10] := by
  decide +kernel

/-- V3.16. -/
theorem test_owReadByte_07 : after (exec .owReadByte (block [true, true, true, false, false, false, false, false]))
    (fun t => (t.dataOut, t.ok)) = some (0x07#8, true) := by decide +kernel

/-- V5.11: a wrong CRC byte, `ROM_ID` unchanged. -/
theorem test_discover_bad_crc : after
    (exec .discover (block (presenceAnswers ++ searchAnswers
      (idBits #v[0x2D#8, 0x01#8, 0x02#8, 0x03#8, 0x04#8, 0x05#8, 0x06#8, 0x56#8] 64))))
    (fun t => (t.err, t.romId)) = some (4#4, workedId) := by decide +kernel

/-- V5.13: two devices that first differ at bit 48; 155 bus operations, so 155 `Drive0` events. -/
theorem test_discover_collision : after
    (exec .discover (block (presenceAnswers ++ searchAnswers (idBits workedId 48) ++ [false, false])))
    (fun t => (t.err, t.events.count .drive0)) = some (3#4, 155) := by decide +kernel

/-- V6.1: 295 events. -/
theorem test_select_events : after (exec .select (block [true, false])) (fun t => (t.ok, t.events.length))
    = some (true, 295) := by decide +kernel

/-- V6.3: the line stuck low, and the nine bytes all the same: 251 events and 72 slots of four. -/
theorem test_select_stuck_low : after (exec .select (block (List.replicate 126 false)))
    (fun t => (t.ok, t.events.length)) = some (true, 251 + 72 * 4) := by decide +kernel

/-- V7.1. -/
theorem test_readRow_3 : after (exec (.readRow 3) (block (presenceAnswers ++ byteAnswers [0x01#8])))
    (fun t => (t.dataOut, t.ok, t.events.length)) = some (0x01#8, true, 431) := by decide +kernel

/-- V7.3. -/
theorem test_readRow_15_empty_bus : after (exec (.readRow 15) (block (List.replicate 10 true)))
    (fun t => (t.dataOut, t.err)) = some (0xFF#8, 0#4) := by decide +kernel

/-- V7.5, by its counts: the twelve bytes below are 54 answers with the three resets. -/
theorem test_writeRow_3_success : after
    (exec (.writeRow 3) (block ([true, false] ++ byteAnswers [0xBF#8, 0x50#8] ++ [true, false]
      ++ byteAnswers [0x18#8, 0x00#8, 0x07#8] ++ [true, false] ++ byteAnswers [0xAA#8])))
    (fun t => (t.ok, t.err, t.events.length, t.line.answers)) = some (true, 0#4, 1638, []) := by decide +kernel

/-- V7.7: the read-back payload is wrong. -/
theorem test_writeRow_3_payload_crc : after
    (exec (.writeRow 3) (block ([true, false] ++ byteAnswers [0xBE#8, 0x50#8] ++ [true, false]
      ++ byteAnswers [0x18#8, 0x00#8, 0x07#8, 0x00#8, 0x02#8, 0x03#8, 0x04#8, 0x05#8, 0x06#8, 0x07#8, 0x08#8, 0xCC#8,
        0x72#8])))
    (fun t => (t.ok, t.err)) = some (false, 7#4) := by decide +kernel

/-- V8.3, V8.4, V8.5: `STATUS` reads `0xF0`. -/
theorem test_illegal0 : after (exec (.illegal0 0x00#8) (block [])) status = some 0xF0#8 := by decide
theorem test_illegalAB : after (exec (.illegalAB 0xA3#8) (block [])) status = some 0xF0#8 := by decide
theorem test_illegalCF : after (exec (.illegalCF 0xFF#8) (block [])) status = some 0xF0#8 := by decide

/-- V3.7, V3.8, V3.6, V3.9 by the durations of their slots (rule R177), and by their first slot. -/
theorem test_searchRom : after (exec .searchRom (block [])) (fun t => (duration t.events, t.events[1]?))
    = some (540, some (.delayUs 65)) := by decide
theorem test_matchRom : after (exec .matchRom (block [])) (fun t => (duration t.events, t.events[1]?))
    = some (540, some (.delayUs 10)) := by decide
theorem test_readMemory : after (exec .readMemory (block [])) (fun t => (duration t.events, t.events[29]?))
    = some (540, some (.delayUs 10)) := by decide
theorem test_writeScratchpad : after (exec .writeScratchpad (block [])) (fun t => (duration t.events, t.events[29]?))
    = some (540, some (.delayUs 65)) := by decide
theorem test_readScratchpad : after (exec .readScratchpad (block [])) (fun t => (duration t.events, t.events[1]?))
    = some (540, some (.delayUs 65)) := by decide
/-- Rule R90 with an unknown byte: eight slots of four events, and the answers untouched. -/
theorem test_copy : after (exec .copy (block [true])) (fun t => (t.events.length, t.line.answers))
    = some (32, [true]) := by decide

/-! ## The CRC vectors -/

/-- V4.10, V4.12, V4.15. -/
theorem test_crc8 : crc8 [0x2D#8, 0xA1#8, 0xB2#8, 0xC3#8, 0xD4#8, 0xE5#8, 0xF6#8] 7 = 0x65#8 ∧
    crc8 [0x28#8, 0x01#8, 0x02#8, 0x03#8, 0x04#8, 0x05#8, 0x06#8] 7 = 0x9E#8 ∧
    crc8 [0x31#8, 0x32#8, 0x33#8, 0x34#8, 0x35#8, 0x36#8, 0x37#8, 0x38#8, 0x39#8] 9 = 0xA1#8 := by decide +kernel

/-- V4.26, V4.28. -/
theorem test_crc16 :
    crc16 [0x31#8, 0x32#8, 0x33#8, 0x34#8, 0x35#8, 0x36#8, 0x37#8, 0x38#8, 0x39#8] 9 = 0xBB3D#16 ∧
    invertedPair [0xAA#8, 0x18#8, 0x00#8, 0x07#8, 0x01#8, 0x02#8, 0x03#8, 0x04#8, 0x05#8, 0x06#8, 0x07#8, 0x08#8] 12
      = (0xCC#8, 0x72#8) := by decide +kernel

/-! ## The host's side and the sequencer -/

/-- V8.13: inside a command the old result is shown beside `BUSY`. -/
theorem test_busy_status : readReg 0x01#8 (accept 0x60#8 { block [] with ok := true }) = 0x03#8 := by decide

/-- V8.12: a command written while busy is ignored. -/
theorem test_busy_ignores_cmd : writeReg 0x00#8 0x60#8 (accept 0x30#8 (block [])) = accept 0x30#8 (block []) := by decide

/-- V8.9: a reserved register number. -/
theorem test_reserved_register : readReg 0x04#8 (writeReg 0x04#8 0x77#8 (block [])) = 0x00#8 := by decide

/-- The word placed by `withFetchWord` is run by the next step, as the first one after reset (V8.3). -/
theorem test_fetch : after (step (State.reset.withFetchWord 8 0x0C)) (fun t => (status t, t.inputs))
    = some (0xF0#8, []) := by decide

/-- Rule R89, decision D26: a sample while the block drives low reads 0, whatever the environment has ready. -/
theorem test_sample_while_driving : (sample { drv := true, trace := [], answers := [true] }).1 = false := by decide

/-- Rules R55, R75: no line and no byte for row 16, the byte `0x8F` for row 15. -/
theorem test_row_16_has_no_line : expandLine (.command (.readRow 16)) = .error (.noSuchLine (.readRow 16)) ∧
    encode (.writeRow 16) = none ∧ expandLine (.command (.readRow 15)) = .ok [.command 0x8F#8] := by decide

/-- A program with a line that does not exist is refused as a whole. -/
theorem test_assemble_refuses : assemble [.rdStatus, .command .copy] = .error (.noSuchLine .copy) ∧
    assemble [.wr 0x08#8 0x11#8, .command .select] = .ok [.write 0x08#8 0x11#8, .command 0x70#8] := by decide

/-- V2.11 event by event: call, four drive and wait events, the sample. -/
theorem test_ticks_readBit : (ticks 6 (accept 0x30#8 (block [true]))).dataOut = 0x01#8 ∧
    (ticks 5 (accept 0x30#8 (block [true]))).busy = true := by decide

/-! ## Witnesses: a state and operands for the hypotheses of each statement, clause by clause -/

theorem witness_EveryCommandWordSelectsOneRow :
    opField 0x2F#8 = 0x2 ∧ opField 0x8F#8 = 0x8 ∧ opField 0x90#8 = 0x9 := by decide

theorem witness_DecodeOfEncodeIsTheInstruction :
    (Instr.readRow 16).wellFormed = false ∧
    (Instr.readRow 15).wellFormed = true ∧ (Instr.writeRow 0).wellFormed = true ∧
    (Instr.illegal0 0x0F#8).wellFormed = true ∧ (Instr.illegalAB 0xA0#8).wellFormed = true ∧
    (Instr.illegalCF 0xFF#8).wellFormed = true ∧ Instr.copy.wellFormed = true := by decide

theorem witness_IgnoredArgumentBitsSelectTheSameCommand :
    opField 0x1F#8 = opField 0x10#8 ∧ opField 0x1F#8 ∈ [0x1#4, 0x3#4, 0x4#4, 0x5#4, 0x6#4, 0x7#4] ∧
    opField 0x7F#8 = opField 0x70#8 ∧ opField 0x7F#8 ∈ [0x1#4, 0x3#4, 0x4#4, 0x5#4, 0x6#4, 0x7#4] ∧
    opField 0x2F#8 = opField 0x21#8 ∧ opField 0x2F#8 = 0x2#4 ∧ (0x2F#8).getLsbD 0 = (0x21#8).getLsbD 0 := by decide

/-- An idle block with one input, and a busy block with the same. -/
def idleWith (i : Input) : State := { block [] with inputs := [i] }
def busyWith (i : Input) : State := accept 0x60#8 (idleWith i)

theorem witness_StepRunsTheDecodedCommand :
    (idleWith (.command 0x60#8)).inputs = .command 0x60#8 :: [] ∧ (idleWith (.command 0x60#8)).busy = false ∧
    (busyWith (.command 0x60#8)).inputs = .command 0x60#8 :: [] ∧ (busyWith (.command 0x60#8)).busy = true ∧
    decodeTableWord 8 0x60 = some .discover ∧ decodeTableWord 8 0xFF = some (.illegalCF 0xFF#8) ∧
    (block []).inputs = [] ∧ (idleWith .tick).inputs = .tick :: [] ∧
    (busyWith .wait).inputs = .wait :: [] ∧ (busyWith .wait).busy = true ∧
    (idleWith .wait).inputs = .wait :: [] ∧ (idleWith .wait).busy = false := by decide

theorem witness_BusyBlockIgnoresHostWrites :
    (busyWith (.write 0x08#8 0x99#8)).inputs = .write 0x08#8 0x99#8 :: [] ∧
    (busyWith (.write 0x08#8 0x99#8)).busy = true ∧
    (idleWith (.write 0x00#8 0x60#8)).inputs = .write 0x00#8 0x60#8 :: [] ∧
    (idleWith (.write 0x00#8 0x60#8)).busy = false ∧
    (idleWith (.write 0xFF#8 0x60#8)).inputs = .write 0xFF#8 0x60#8 :: [] ∧
    (idleWith (.write 0xFF#8 0x60#8)).busy = false ∧
    (busyWith (.read 0x01#8)).inputs = .read 0x01#8 :: [] := by decide

theorem witness_HostRegisterMap :
    (block []).busy = false ∧ (0x04#8 : Byte) ≤ 0x04#8 ∧ (0x07#8 : Byte) ≤ 0x07#8 ∧ (0x18#8 : Byte) ≤ 0x18#8 ∧
    (0x18#8 : Byte) ≤ 0xFF#8 ∧ (0x10#8 : Byte) ≤ 0x17#8 ∧ (0x17#8 : Byte) ≤ 0x17#8 := by decide

theorem witness_PseudoInstructionsDoWhatTheyExpandTo :
    (block []).busy = false ∧ (∀ actions : List Input, ({ block [] with inputs := actions } : State).busy = false ∧
      ({ block [] with inputs := actions } : State).inputs = actions ++ []) :=
  ⟨rfl, fun _ => ⟨rfl, (List.append_nil _).symm⟩⟩

/-- Both ends of the row range, an ill-formed and a bus instruction. -/
theorem witness_AssemblerLinesOfTheTable :
    (0 : Nat) < 16 ∧ (15 : Nat) < 16 ∧ 16 ≤ (16 : Nat) ∧ Instr.searchRom.layer ≠ .host ∧ Instr.copy.layer ≠ .host := by
  decide

/-- The invariant holds of an idle block that has discovered a device, and of one inside a command. -/
theorem block_meets_the_invariant (answers : List Bool) : BlockInv (block answers) where
  idle_iff := by simp [block, State.reset, Seq.idle]
  idle_levels := fun _ => rfl
  drive := rfl
  report := fun _ => rfl
  code := by show (0 : BitVec 4) ∈ legalCodes; decide
  rom := by show romIdValid workedId; exact .inr ⟨by decide +kernel, by decide +kernel⟩
  crc_checked := by simp [block, State.reset, Seq.idle]

theorem busy_block_meets_the_invariant (i : Input) : BlockInv (busyWith i) where
  idle_iff := by simp [busyWith, accept, firstState, decodeWord, opField, goCmd]
  idle_levels := by simp [busyWith, accept, firstState, decodeWord, opField, goCmd]
  drive := rfl
  report := fun _ => rfl
  code := by show (0 : BitVec 4) ∈ legalCodes; decide
  rom := by show romIdValid workedId; exact .inr ⟨by decide +kernel, by decide +kernel⟩
  crc_checked := by simp [busyWith, accept, firstState, decodeWord, opField, goCmd]

theorem witness_IdleBlockStaysAsItIs :
    BlockInv (block []) ∧ (block []).busy = false ∧ (block []).inputs = [] :=
  ⟨block_meets_the_invariant [], rfl, rfl⟩

theorem witness_HardwareResetRestoresRegisters :
    (busyWith .hardwareReset).inputs = .hardwareReset :: [] ∧ (busyWith .hardwareReset).busy = true := by decide

theorem witness_UnassignedWordsAreIllegalCommands :
    opField 0x0F#8 = 0x0#4 ∧ (0xA#4 : BitVec 4) ≤ opField 0xA0#8 ∧ (0xA#4 : BitVec 4) ≤ opField 0xFF#8 := by decide

theorem witness_WriteBitEmitsItsSlot : opField 0x2E#8 = 0x2#4 ∧ opField 0x2F#8 = 0x2#4 := by decide

theorem witness_ReadBitReturnsTheSample : (block [true]).line.answers = true :: [] := rfl

/-- The first sample is already 1, and the last allowed sample is the first 1 (V2.1, V2.5). -/
theorem witness_ResetPulseAfterTheLineFloatsHigh :
    (∀ answers, (block answers).line.drv = false) ∧
    (0 ≤ 125 ∧ (block [true, false]).line.answers = List.replicate 0 false ++ true :: false :: []) ∧
    ((125 : Nat) ≤ 125 ∧ (block (List.replicate 125 false ++ [true, true])).line.answers
      = List.replicate 125 false ++ true :: true :: []) :=
  ⟨fun _ => rfl, ⟨by decide, rfl⟩, by decide, rfl⟩

theorem witness_BusTimeoutAfter125Waits :
    (block (List.replicate 126 false)).line.answers = List.replicate 126 false ++ [] := (List.append_nil _).symm

theorem witness_ReadByteAssemblesLowBitFirst :
    (List.replicate 8 true).length = 8 ∧
    (block (List.replicate 8 true)).line.answers = List.replicate 8 true ++ [] := by decide

/-- A delay service that is exactly on time. -/
theorem nominal_admits (es : List Event) : List.Forall₂ Event.admits es (es.map Event.us) := by
  induction es with
  | nil => exact .nil
  | cons e es ih => exact .cons (by cases e <;> simp [Event.admits, Event.isDelay, Event.us]) ih

theorem next_afterState {o : Host.Outcome State Fault Refusal} {t : State} (h : o = .next t) :
    o = .next (afterState o) := by
  subst h; rfl

/-- Answers with which `WRITE_ROW 3` succeeds (V7.5). -/
def writeRow3Answers : List Bool :=
  [true, false] ++ byteAnswers [0xBF#8, 0x50#8] ++ [true, false] ++ byteAnswers [0x18#8, 0x00#8, 0x07#8] ++ [true, false]
    ++ byteAnswers [0xAA#8]

/-- Every clause's command from a block with an empty trace, each delay on time: `OW_RESET` on a stuck and on a high line,
a `WRITE_ROW` that succeeds. -/
theorem witness_RealTimeStaysWithinTheJitterOfItsDelays :
    (∀ (answers : List Bool) (t : State), addsEvents (block answers) t t.events ∧
      List.Forall₂ Event.admits t.events (t.events.map Event.us)) ∧
    (∀ i ∈ [Instr.owWriteBit true, .owReadBit, .owWriteByte, .owReadByte, .owReset, .writeRow 3],
      ∀ answers, exec i (block answers) = .next (afterState (exec i (block answers)))) ∧
    (afterState (exec .owReset (block (List.replicate 126 false)))).err = 0x1#4 ∧
    (afterState (exec .owReset (block [true, false]))).err ≠ 0x1#4 ∧
    (afterState (exec (.writeRow 3) (block writeRow3Answers))).ok = true := by
  refine ⟨fun _ _ => ⟨(List.nil_append _).symm, nominal_admits _⟩, ?_, by decide +kernel, by decide +kernel,
    by decide +kernel⟩
  intro i hi answers
  simp only [List.mem_cons, List.not_mem_nil, or_false] at hi
  rcases hi with rfl | rfl | rfl | rfl | rfl | rfl
  case inr.inr.inr.inr.inr => exact next_afterState (exec_writeRow_eq _ _ (by decide))
  all_goals exact next_afterState rfl

/-- A wrong CRC, a wrong family with a right CRC, and a right identifier (V5.11, V5.10, V5.1). -/
theorem witness_SearchOfOneDevice :
    (∀ answers, (block answers).line.drv = false) ∧
    (∀ id : Vector Byte 8, (block (presenceAnswers ++ searchAnswers (idBits id 64))).line.answers
      = presenceAnswers ++ searchAnswers (idBits id 64) ++ []) ∧
    romCrcOk #v[0x2D#8, 0x01#8, 0x02#8, 0x03#8, 0x04#8, 0x05#8, 0x06#8, 0x56#8] = false ∧
    (romCrcOk #v[0x28#8, 0x01#8, 0x02#8, 0x03#8, 0x04#8, 0x05#8, 0x06#8, 0x9E#8] = true ∧
      (#v[0x28#8, 0x01#8, 0x02#8, 0x03#8, 0x04#8, 0x05#8, 0x06#8, 0x9E#8] : Vector Byte 8)[0] ≠ 0x2D#8) ∧
    (romCrcOk workedId = true ∧ workedId[0] = 0x2D#8) :=
  ⟨fun _ => rfl, fun _ => (List.append_nil _).symm, by decide +kernel, by decide +kernel, by decide +kernel⟩

/-- V5.3 in iteration 0, and V5.6 in iteration 63. -/
theorem witness_SearchEndsAtTheFirstEqualPair :
    (∀ answers, (block answers).line.drv = false) ∧
    (([] : List Bool).length < 64 ∧ (block [true, false, true, true]).line.answers
      = presenceAnswers ++ searchAnswers [] ++ true :: true :: []) ∧
    ((idBits workedId 63).length < 64 ∧
      (block (presenceAnswers ++ searchAnswers (idBits workedId 63) ++ [false, false])).line.answers
      = presenceAnswers ++ searchAnswers (idBits workedId 63) ++ false :: false :: []) :=
  ⟨fun _ => rfl, ⟨by decide, rfl⟩, by decide +kernel, rfl⟩

theorem witness_DiscoverAfterItsReset :
    (∀ answers, (block answers).line.drv = false) ∧ (0 ≤ 125 ∧ (125 : Nat) ≤ 125) ∧
    (block (List.replicate 126 false)).line.answers = List.replicate 126 false ++ [] ∧
    (block (List.replicate 125 false ++ [true, true])).line.answers = List.replicate 125 false ++ true :: true :: [] ∧
    (block [true, false]).line.answers = List.replicate 0 false ++ true :: false :: [] :=
  ⟨fun _ => rfl, by decide, (List.append_nil _).symm, rfl, rfl⟩

theorem witness_TargetAddressOfARow : (0 : Nat) < 16 ∧ (15 : Nat) < 16 := by decide

theorem witness_ReadRowSendsItsFrame :
    (∀ answers, (block answers).line.drv = false) ∧
    (15 : Nat) < 16 ∧ (125 : Nat) ≤ 125 ∧
    (block (List.replicate 125 false ++ true :: true :: byteAnswers [0x5A#8])).line.answers
      = List.replicate 125 false ++ true :: true :: (byteAnswers [0x5A#8] ++ []) :=
  ⟨fun _ => rfl, by decide, by decide, by rw [List.append_nil]; rfl⟩

theorem witness_ReadRowNeverFails : (15 : Nat) < 16 := by decide
theorem witness_RowsAbove15AreRefused : 16 ≤ (16 : Nat) := by decide
theorem witness_WriteRowFollowsItsThreePhases : (15 : Nat) < 16 := by decide

/-- V7.4, V7.8. -/
theorem witness_WriteRowFailsOnABadStatusByte :
    (3 : Nat) < 16 ∧ (0x05#8 : Byte) ≠ 0x07#8 ∧ (block []).line.drv = false ∧
    (block ([true, false] ++ byteAnswers [0xBF#8, 0x50#8] ++ [true, false]
      ++ byteAnswers [0x18#8, 0x00#8, 0x05#8])).line.answers
    = [true, false] ++ byteAnswers [0xBF#8, 0x50#8] ++ [true, false] ++ byteAnswers [0x18#8, 0x00#8, 0x05#8] ++ [] := by
  decide +kernel

/-- V7.5. -/
theorem witness_WriteRowWithoutVerify :
    (3 : Nat) < 16 ∧ (block writeRow3Answers).line.drv = false ∧
    (block writeRow3Answers).line.answers
    = [true, false]
      ++ byteAnswers [(invertedPair (stagedBytes 3 workedPayload) 11).1, (invertedPair (stagedBytes 3 workedPayload) 11).2]
      ++ [true, false] ++ byteAnswers [0x18#8, 0x00#8, 0x07#8] ++ [true, false] ++ byteAnswers [0xAA#8] ++ [] := by
  decide +kernel

/-- V7.6 for the right second pair, V7.7 for a wrong one. -/
theorem witness_WriteRowWithVerify :
    (∀ answers, (block answers).line.drv = false) ∧
    (3 : Nat) < 16 ∧ ((0xBE#8 : Byte), (0x50#8 : Byte)) ≠ invertedPair (stagedBytes 3 (block []).payload) 11 ∧
    (∀ (ds : Vector Byte 8) (rest : List Bool),
      (block ([true, false] ++ byteAnswers [0xBE#8, 0x50#8] ++ [true, false]
        ++ byteAnswers ([0x18#8, 0x00#8, 0x07#8] ++ ds.toList ++ [0xCC#8, 0x72#8]) ++ rest)).line.answers
      = [true, false] ++ byteAnswers [0xBE#8, 0x50#8] ++ [true, false]
        ++ byteAnswers ([0x18#8, 0x00#8, 0x07#8] ++ ds.toList ++ [0xCC#8, 0x72#8]) ++ rest) ∧
    ((0xCC#8 : Byte), (0x72#8 : Byte)) ≠ invertedPair ([0xAA#8, 0x18#8, 0x00#8, 0x07#8] ++
      (#v[0x00#8, 0x02#8, 0x03#8, 0x04#8, 0x05#8, 0x06#8, 0x07#8, 0x08#8] : Vector Byte 8).toList) 12 ∧
    ((0xCC#8 : Byte), (0x72#8 : Byte)) = invertedPair ([0xAA#8, 0x18#8, 0x00#8, 0x07#8] ++ workedPayload.toList) 12 ∧
    [true, false] ++ byteAnswers [0xAA#8] = [true, false] ++ byteAnswers [0xAA#8] ++ [] :=
  ⟨fun _ => rfl, by decide, by decide +kernel, fun _ _ => rfl, by decide +kernel, by decide +kernel, rfl⟩

theorem witness_WriteTwiceThenReadBack :
    (∀ answers, (block answers).line.drv = false) ∧
    (3 : Nat) < 16 ∧
    (block (writeAnswers 3 workedPayload ++ writeAnswers 3 workedPayload ++ readAnswers 0x01#8)).line.answers
    = writeAnswers 3 (block []).payload ++ writeAnswers 3 (block []).payload ++ readAnswers (block []).payload[0] ++ [] :=
  ⟨fun _ => rfl, by decide, (List.append_nil _).symm⟩

theorem witness_BusCommandBytesGoOut :
    (Instr.copy, Config.cmdCopy) ∈ [(Instr.searchRom, 0xF0#8), (.matchRom, 0x55#8), (.readMemory, 0xF0#8),
      (.writeScratchpad, 0x0F#8), (.readScratchpad, 0xAA#8), (.copy, Config.cmdCopy)] := by simp

/-- A command that succeeds and one that fails. -/
theorem witness_CommandsRaiseOnlyTheirFailures :
    (Instr.select.layer = .host ∧ exec .select (block []) = .next (afterState (exec .select (block []))) ∧
      (afterState (exec .select (block []))).ok = true) ∧
    ((Instr.illegal0 0x00#8).layer = .host ∧
      exec (.illegal0 0x00#8) (block []) = .next (afterState (exec (.illegal0 0x00#8) (block []))) ∧
      (afterState (exec (.illegal0 0x00#8) (block []))).ok = false) :=
  ⟨⟨rfl, rfl, rfl⟩, rfl, rfl, rfl⟩

theorem witness_FailureKeepsTheDataRegisters :
    Instr.owReset.layer = .host ∧
    exec .owReset (block [true, true]) = .next (afterState (exec .owReset (block [true, true]))) ∧
    (afterState (exec .owReset (block [true, true]))).ok = false ∧ (block [true, true]).line.drv = false :=
  ⟨rfl, rfl, rfl, rfl⟩

theorem witness_CommandFrame :
    exec .searchRom (block []) = .next (afterState (exec .searchRom (block []))) ∧ (block []).line.drv = false :=
  ⟨rfl, rfl⟩

theorem witness_TransientsDoNotInfluenceCommands : (firstState (.writeRow 3)).isSome = true := rfl

/-- A step inside a command, with the invariant. -/
theorem witness_EveryStepKeepsTheInvariant :
    BlockInv (busyWith .tick) ∧ step (busyWith .tick) = .next (afterState (step (busyWith .tick))) :=
  ⟨busy_block_meets_the_invariant _, rfl⟩

theorem witness_EveryStepObeysTheLineDiscipline :
    BlockInv (busyWith .tick) ∧ step (busyWith .tick) = .next (afterState (step (busyWith .tick))) ∧
    (∀ rest, (busyWith .tick).inputs ≠ .hardwareReset :: rest) ∧
    ({ drv := true, trace := [], answers := [true] } : Line).drv = true :=
  ⟨busy_block_meets_the_invariant _, rfl, fun _ h => by
    simp [busyWith, idleWith, accept, firstState, decodeWord, opField, goCmd] at h, rfl⟩

theorem witness_OnlyListedDelaysAreRequested :
    step (idleWith (.command 0x30#8)) = .next (afterState (step (idleWith (.command 0x30#8)))) := rfl

theorem witness_EveryStepEmitsBoundedEvents :
    step (idleWith (.command 0x21#8)) = .next (afterState (step (idleWith (.command 0x21#8)))) := rfl

theorem witness_SequencerRefinesEveryCommand :
    (0x1#4 ≤ opField 0x1F#8 ∧ opField 0x1F#8 ≤ 0x9#4) ∧ (0x1#4 ≤ opField 0x9F#8 ∧ opField 0x9F#8 ≤ 0x9#4) := by decide

theorem witness_BusyBlockShowsTheOldResults :
    (0x1#4 ≤ opField 0x10#8 ∧ opField 0x10#8 ≤ 0x9#4) ∧ (0x1#4 ≤ opField 0x90#8 ∧ opField 0x90#8 ≤ 0x9#4) ∧
    (tick (busyWith .tick)).busy = true := by decide

/-- A busy block whose command level is `q` and whose selector level is `p`. -/
def atLevel (q : CmdSeq) (p : Option SelSeq) (tr : Transient) : State :=
  { block [] with busy := true, seq := { cmd := q, sel := p, byte := none, bit := none }, tr := tr }

/-- Transient registers whose first buffer byte is `v`. -/
def trWith (v : Byte) : Transient := { Transient.zero with buf := Transient.zero.buf.set 0 v }

theorem witness_BusCommandsAtTheirPositions :
    (∀ q p tr, (atLevel q p tr).busy = true ∧ (atLevel q p tr).seq.byte = none ∧ (atLevel q p tr).seq.bit = none ∧
      (atLevel q p tr).seq.cmd = q ∧ (atLevel q p tr).seq.sel = p ∧ (atLevel q p tr).tr = tr) ∧
    (∀ v, (trWith v).idx = 0 ∧ (trWith v).buf[0] = v) :=
  ⟨fun _ _ _ => ⟨rfl, rfl, rfl, rfl, rfl, rfl⟩, fun _ => ⟨rfl, by simp [trWith]⟩⟩

/-- Transient registers after a search: the accumulator, and the two bits of an iteration. -/
def searched (acc : Vector Byte 8) (i c : Bool) : Transient := { Transient.zero with acc := acc, idBit := i, cmpBit := c }

theorem witness_DiscoveryDecisionMoves :
    (∀ q tr, (atLevel q none tr).seq.sel = none ∧ (atLevel q none tr).seq.byte = none ∧
      (atLevel q none tr).seq.bit = none ∧ (atLevel q none tr).seq.cmd = q ∧ (atLevel q none tr).tr = tr) ∧
    (searched workedId true true).idBit = (searched workedId true true).cmpBit ∧
    (searched workedId true false).idBit ≠ (searched workedId true false).cmpBit ∧
    romCrcOk (searched workedId true false).acc = true ∧ (searched workedId true false).acc[0] = 0x2D#8 ∧
    romCrcOk (searched (Vector.replicate 8 0xFF#8) true false).acc = false ∧
    (searched (Vector.replicate 8 0xFF#8) true false).acc[0] ≠ 0x2D#8 :=
  ⟨fun _ _ => ⟨rfl, rfl, rfl, rfl, rfl⟩, rfl, by decide, by decide +kernel, by decide, by decide +kernel, by decide⟩

end Sys2Proof.Tests
end

namespace Sys2Proof.Machine

/-! ## What an operation does to the line -/

/-- What an operation of the block leaves of a line (rules R4, R20, R80, R89): events appended that `LINE_DRV` follows,
answers taken in order; from a released line it ends released and has sampled only while released. -/
def LineRun (l l' : Line) : Prop :=
  ∃ es n, l'.trace = es.reverse ++ l.trace ∧ l'.answers = l.answers.drop n ∧ l'.drv = driveAfter es l.drv ∧
    (l.drv = false → l'.drv = false ∧ noSampleWhileDriving es false = true)

namespace LineRun

theorem refl (l : Line) : LineRun l l := ⟨[], 0, rfl, rfl, rfl, fun h => ⟨h, rfl⟩⟩

theorem trans {l₁ l₂ l₃ : Line} (h : LineRun l₁ l₂) (g : LineRun l₂ l₃) : LineRun l₁ l₃ := by
  obtain ⟨es, n, ht, ha, hd, hs⟩ := h
  obtain ⟨fs, m, gt, ga, gd, gs⟩ := g
  refine ⟨es ++ fs, n + m, by simp [gt, ht], by simp [ga, ha], by rw [gd, hd, driveAfter_append], fun h0 => ?_⟩
  obtain ⟨h2, hes⟩ := hs h0
  obtain ⟨h3, hfs⟩ := gs h2
  rw [h0, h2] at hd
  exact ⟨h3, by rw [noSample_append, hes, ← hd, hfs]; rfl⟩

theorem sample (l : Line) : LineRun l (sample l).2 := by
  rw [sample_line]
  exact ⟨[.sample _], 1, rfl, by simp, rfl, fun h => ⟨h, rfl⟩⟩

/-- A slot or a pulse: it drives the line low for `n` µs, releases it, and waits `m` µs. -/
theorem pulse (n m : Nat) (l : Line) : LineRun l (emits [.drive0, .delayUs n, .release, .delayUs m] l) := by
  rw [emits_eq]
  exact ⟨_, 0, rfl, rfl, rfl, fun _ => ⟨rfl, rfl⟩⟩

theorem delayUs (n : Nat) (l : Line) : LineRun l (emit (.delayUs n) l) :=
  ⟨[.delayUs n], 0, rfl, rfl, rfl, fun h => ⟨h, rfl⟩⟩

theorem delayMs (n : Nat) (l : Line) : LineRun l (emit (.delayMs n) l) :=
  ⟨[.delayMs n], 0, rfl, rfl, rfl, fun h => ⟨h, rfl⟩⟩

theorem writeBit (b : Bool) (l : Line) : LineRun l (writeBit b l) := pulse _ _ l

theorem readBit (l : Line) : LineRun l (readBit l).2 := (pulse _ _ l).trans (sample _)

theorem waitHigh (n : Nat) (l : Line) : LineRun l (waitHigh n l).2 := by
  induction n generalizing l with
  | zero => exact sample l
  | succ n ih =>
    rw [Machine.waitHigh]
    split
    · exact sample l
    · exact ((sample l).trans (delayUs _ _)).trans (ih _)

theorem presencePulse (l : Line) : LineRun l (presencePulse l).2 :=
  ((pulse _ _ l).trans (sample _)).trans (delayUs _ _)

theorem reset (l : Line) : LineRun l (reset l).2 := by
  unfold Machine.reset
  dsimp only
  split
  · exact (waitHigh _ l).trans (presencePulse _)
  · exact waitHigh _ l

theorem writeBits (bs : List Bool) (l : Line) : LineRun l (writeBits bs l) := by
  induction bs generalizing l with
  | nil => exact refl l
  | cons b bs ih => exact (writeBit b l).trans (ih _)

theorem writeByte (v : Byte) (l : Line) : LineRun l (writeByte v l) := writeBits _ l

theorem readBits (n i : Nat) (x : Byte) (l : Line) : LineRun l (readBits n i x l).2 := by
  induction n generalizing i x l with
  | zero => exact refl l
  | succ n ih => exact (readBit l).trans (ih _ _ _)

theorem readByte (l : Line) : LineRun l (readByte l).2 := readBits _ _ _ l

theorem writeSpan {k : Nat} (v : Vector Byte k) (n i : Nat) (l : Line) : LineRun l (writeSpan v n i l) := by
  induction n generalizing i l with
  | zero => exact refl l
  | succ n ih => exact (writeByte _ l).trans (ih _ _)

theorem readSpan {k : Nat} (n i : Nat) (v : Vector Byte k) (l : Line) : LineRun l (readSpan n i v l).2 := by
  induction n generalizing i v l with
  | zero => exact refl l
  | succ n ih => exact (readByte l).trans (ih _ _ _)

theorem searchLoop (n b : Nat) (acc : Vector Byte 8) (l : Line) : LineRun l (searchLoop n b acc l).2 := by
  induction n generalizing b acc l with
  | zero => exact refl l
  | succ n ih =>
    rw [Machine.searchLoop]
    have hr := (readBit l).trans (readBit _)
    split
    · exact hr
    · exact (hr.trans (writeBit _ _)).trans (ih _ _ _)

theorem discoverRun (l : Line) : LineRun l (discoverRun l).2 := by
  have hr := reset l
  have hs := (hr.trans (writeByte searchRomByte _)).trans (searchLoop 64 0 (Vector.replicate 8 0) _)
  unfold Machine.discoverRun
  dsimp only
  split
  · exact hr
  · split
    · exact hs
    · exact hs

theorem selectDevice (romId : Vector Byte 8) (l : Line) : LineRun l (selectDevice romId l) :=
  ((reset l).trans (writeByte _ _)).trans (writeSpan _ _ _ _)

theorem readRowRun (romId : Vector Byte 8) (row : Nat) (l : Line) : LineRun l (readRowRun romId row l).2 :=
  ((((selectDevice romId l).trans (writeByte _ _)).trans (writeByte _ _)).trans (writeByte _ _)).trans (readByte _)

theorem writePhase1 (romId : Vector Byte 8) (buf : Vector Byte 12) (crcRx : Vector Byte 2) (l : Line) :
    LineRun l (writePhase1 romId buf crcRx l).2 :=
  ((selectDevice romId l).trans (writeSpan buf 11 0 _)).trans (readSpan 2 0 crcRx _)

theorem writePhase2 (romId : Vector Byte 8) (nv : Bool) (buf : Vector Byte 12) (crcRx : Vector Byte 2) (l : Line) :
    LineRun l (writePhase2 romId nv buf crcRx l).2 := by
  have h3 := ((selectDevice romId l).trans (writeByte readScratchpadByte _)).trans
    (readSpan 3 1 (setByte buf 0 readScratchpadByte) _)
  have h10 := fun v : Vector Byte 12 => (h3.trans (readSpan 8 4 v _)).trans (readSpan 2 0 crcRx _)
  unfold Machine.writePhase2
  dsimp only
  split
  · exact h3
  · split
    · split <;> dsimp only
      · exact h10 _
      · exact h10 _
    · exact h3

theorem writePhase3 (romId : Vector Byte 8) (buf : Vector Byte 12) (l : Line) :
    LineRun l (writePhase3 romId buf l).2 := by
  unfold Machine.writePhase3
  exact (((selectDevice romId l).trans (writeSpan (setByte buf 0 Config.cmdCopy) 4 0 _)).trans
    (delayMs progMs _)).trans (readByte _)

theorem writeRowRun (row : Nat) (s : State) : LineRun s.line (writeRowRun row s).2 := by
  have h1 := writePhase1 s.romId (stageBuffer row s.payload s.tr.buf) s.tr.crcRx s.line
  have h2 := fun nv rx => h1.trans (writePhase2 s.romId nv (stageBuffer row s.payload s.tr.buf) rx _)
  unfold Machine.writeRowRun
  dsimp only
  split
  · dsimp only
    exact h2 _ _
  · exact (h2 _ _).trans (writePhase3 _ _ _)

end LineRun

/-! ## What an instruction does to the state -/

/-- All that an instruction can do (rules R28, R62, R64, R110): end with a report, and besides store an identifier that
passed both checks or a byte read; or send a bus command byte. -/
inductive Effect (i : Instr) (s : State) : State → Prop
  | ended (cause : Option Failure) {l : Line} (hl : LineRun s.line l) : Effect i s (settle cause { s with line := l })
  | found (hi : i = .discover) {id : Vector Byte 8} (hcrc : romCrcOk id = true)
      (hfam : byteAt id 0 = Config.expectedFamily) {l : Line} (hl : LineRun s.line l) :
      Effect i s (settle none { s with romId := id, line := l })
  | read (hi : i = .owReadBit ∨ i = .owReadByte ∨ ∃ row, i = .readRow row) (v : Byte) {l : Line}
      (hl : LineRun s.line l) : Effect i s (settle none { s with dataOut := v, line := l })
  | illegal : Effect i s (raise .illegalCommand s)
  | sent (hi : i.layer ≠ .host) (v : Byte) : Effect i s (sendBusByte v s)

/-- `discoverRun` answers an identifier only if it passed both checks (rule R109). -/
theorem discoverRun_ok {l : Line} {id : Vector Byte 8} (h : (discoverRun l).1 = .ok id) :
    romCrcOk id = true ∧ byteAt id 0 = Config.expectedFamily := by
  rcases discoverRun_cases l with ⟨f, -, hr⟩ | ⟨-, found, ⟨-, hr⟩ | ⟨-, v, hr⟩⟩
  · simp [hr] at h
  · rw [hr] at h
    rcases validateId_cases (orIdBits 0 (Vector.replicate 8 0) found) with
      ⟨-, hv⟩ | ⟨-, -, hv⟩ | ⟨hcrc, hfam, hv⟩
    · cases hv.symm.trans h
    · cases hv.symm.trans h
    · rw [hv] at h
      cases h
      exact ⟨hcrc, hfam⟩
  · simp [hr] at h

theorem exec_discover_effect (s : State) :
    Effect .discover s (discoverEnd (discoverRun s.line).1 { s with line := (discoverRun s.line).2 }) := by
  have hl := LineRun.discoverRun s.line
  cases hr : (discoverRun s.line).1 with
  | error f => exact .ended (some f) hl
  | ok id =>
    obtain ⟨hcrc, hfam⟩ := discoverRun_ok hr
    exact .found rfl hcrc hfam hl

/-- An instruction that is not refused has one of these effects. -/
theorem exec_effect {i : Instr} {s t : State} (h : exec i s = .next t) : Effect i s t := by
  cases i with
  | owReset => obtain rfl := Host.Outcome.next.inj h; exact .ended _ (.reset _)
  | owWriteBit bit => obtain rfl := Host.Outcome.next.inj h; exact .ended none (.writeBit _ _)
  | owReadBit => obtain rfl := Host.Outcome.next.inj h; exact .read (.inl rfl) _ (.readBit _)
  | owWriteByte => obtain rfl := Host.Outcome.next.inj h; exact .ended none (.writeByte _ _)
  | owReadByte => obtain rfl := Host.Outcome.next.inj h; exact .read (.inr (.inl rfl)) _ (.readByte _)
  | discover => obtain rfl := Host.Outcome.next.inj h; exact exec_discover_effect s
  | select => obtain rfl := Host.Outcome.next.inj h; exact .ended none (.selectDevice _ _)
  | readRow row =>
    by_cases hr : row < 16
    · rw [exec_readRow_eq s row hr] at h
      obtain rfl := Host.Outcome.next.inj h
      exact .read (.inr (.inr ⟨row, rfl⟩)) _ (.readRowRun _ _ _)
    · simp [exec, execReadRow, rowCount, hr] at h
  | writeRow row =>
    by_cases hr : row < 16
    · rw [exec_writeRow_eq s row hr] at h
      obtain rfl := Host.Outcome.next.inj h
      exact .ended _ (.writeRowRun _ _)
    · simp [exec, execWriteRow, rowCount, hr] at h
  | illegal0 word | illegalAB word | illegalCF word => obtain rfl := Host.Outcome.next.inj h; exact .illegal
  | searchRom | matchRom | readMemory | writeScratchpad | readScratchpad | copy =>
    obtain rfl := Host.Outcome.next.inj h; exact .sent (by simp [Instr.layer]) _

/-- Every effect is a run of the line. -/
theorem Effect.lineRun {i : Instr} {s t : State} (h : Effect i s t) : LineRun s.line t.line := by
  cases h with
  | ended _ hl | found _ _ _ hl | read _ _ hl => rw [settle_line]; exact hl
  | illegal => exact .refl _
  | sent _ v => exact .writeByte v _

/-- No effect touches the registers and lists of the host's side (rules R12, R13). -/
theorem Effect.hostSideKept {i : Instr} {s t : State} (h : Effect i s t) : HostSideKept s t := by
  cases h <;> simp [HostSideKept]

/-- `ROM_ID` is written by a successful `DISCOVER` only (rules R11, R110). -/
theorem Effect.romId {i : Instr} {s t : State} (h : Effect i s t) :
    t.romId = s.romId ∨ i = .discover ∧ t.ok = true := by
  cases h with
  | found hi => exact .inr ⟨hi, rfl⟩
  | ended | read | illegal | sent => simp

/-- `DATA_OUT` is written by the three commands that read (rule R14). -/
theorem Effect.dataOut {i : Instr} {s t : State} (h : Effect i s t) :
    t.dataOut = s.dataOut ∨ i = .owReadBit ∨ i = .owReadByte ∨ ∃ row, i = .readRow row := by
  cases h with
  | read hi => exact .inr hi
  | ended | found | illegal | sent => simp

/-- Settles O48: a frame of every effect of an instruction. -/
theorem commandFrame : Obligations.CommandFrame := by
  intro i s t h
  have he := exec_effect h
  obtain ⟨es, n, htrace, hans, -, hrel⟩ := he.lineRun
  exact ⟨he.hostSideKept, he.romId, he.dataOut, ⟨es, addsEvents_of_trace htrace⟩, ⟨n, hans⟩, fun hd => (hrel hd).1⟩

end Sys2Proof.Machine

namespace Sys2Proof.Machine

/-! ## The invariant of the block -/

/-- The codes of rule R140 are legal ones. -/
theorem Failure.code_mem_legalCodes (f : Failure) : f.code ∈ legalCodes := by cases f <;> decide

/-- An idle block: the line is released, whatever a command has left in the other registers. -/
theorem blockInv_of_idle {s : State} (hbusy : s.busy = false) (hseq : s.seq = Seq.idle) (hdrv : s.line.drv = false)
    (hreport : s.ok = true → s.err = 0x0) (hcode : s.err ∈ legalCodes) (hrom : romIdValid s.romId) : BlockInv s where
  idle_iff := by simp [hbusy, hseq, Seq.idle]
  idle_levels := fun _ => hseq
  drive := by simp [hdrv, hseq, Seq.idle]
  report := hreport
  code := hcode
  rom := hrom
  crc_checked := by simp [hseq, Seq.idle]

/-- A busy block: its command level is running, and the line is as the bit engine's state wants it. -/
theorem blockInv_of_busy {s : State} (hbusy : s.busy = true) (hcmd : s.seq.cmd ≠ .idle)
    (hdrv : s.line.drv = (s.seq.bit.map BitSeq.driving).getD false) (hreport : s.ok = true → s.err = 0x0)
    (hcode : s.err ∈ legalCodes) (hrom : romIdValid s.romId)
    (hcrc : s.seq.cmd = .dCheckFam → romCrcOk s.tr.acc = true) : BlockInv s where
  idle_iff := by simp [hbusy, hcmd]
  idle_levels := fun he => absurd he hcmd
  drive := hdrv
  report := hreport
  code := hcode
  rom := hrom
  crc_checked := hcrc

/-- Settles O50: the block is idle at reset, with no report and a zero `ROM_ID`. -/
theorem resetStateMeetsTheInvariant : Obligations.ResetStateMeetsTheInvariant :=
  blockInv_of_idle rfl rfl rfl (fun h => by cases h) (.head _) (.inl rfl)

theorem blockInv_hardwareReset (s : State) : BlockInv (hardwareReset s) :=
  blockInv_of_idle rfl rfl rfl (fun h => by cases h) (.head _) (.inl rfl)

theorem blockInv_raise (f : Failure) {s : State} (hdrv : s.line.drv = false) (hrom : romIdValid s.romId) :
    BlockInv (raise f s) :=
  blockInv_of_idle rfl rfl hdrv (fun h => by cases h) f.code_mem_legalCodes hrom

theorem blockInv_settle (cause : Option Failure) {s : State} (hdrv : s.line.drv = false) (hrom : romIdValid s.romId) :
    BlockInv (settle cause s) := by
  cases cause with
  | none => exact blockInv_of_idle rfl rfl hdrv (fun _ => rfl) (.head _) hrom
  | some f => exact blockInv_raise f hdrv hrom

/-- Of a block that is not running a bit, the invariant keeps the line released (rule R20). -/
theorem BlockInv.released {s : State} (h : BlockInv s) (hbit : s.seq.bit = none) : s.line.drv = false := by
  simp [h.drive, hbit]

/-- An idle block has no level of its sequencer running (rule R24). -/
theorem BlockInv.seq_idle {s : State} (h : BlockInv s) (hbusy : s.busy = false) : s.seq = Seq.idle :=
  h.idle_levels (h.idle_iff.mp hbusy)

theorem BlockInv.released_of_idle {s : State} (h : BlockInv s) (hbusy : s.busy = false) : s.line.drv = false :=
  h.released (by rw [h.seq_idle hbusy]; rfl)

/-- The invariant does not speak of what is outside the block, nor of the registers only the host writes. -/
theorem BlockInv.congr {s t : State} (h : BlockInv s) (hbusy : t.busy = s.busy) (hseq : t.seq = s.seq)
    (hdrv : t.line.drv = s.line.drv) (hok : t.ok = s.ok) (herr : t.err = s.err) (hrom : t.romId = s.romId)
    (hacc : t.tr.acc = s.tr.acc) : BlockInv t where
  idle_iff := by rw [hbusy, hseq]; exact h.idle_iff
  idle_levels := by rw [hseq]; exact h.idle_levels
  drive := by rw [hdrv, hseq]; exact h.drive
  report := by rw [hok, herr]; exact h.report
  code := by rw [herr]; exact h.code
  rom := by rw [hrom]; exact h.rom
  crc_checked := by rw [hseq, hacc]; exact h.crc_checked

theorem BlockInv.inputs {s : State} (h : BlockInv s) (rest : List Input) : BlockInv { s with inputs := rest } :=
  h.congr rfl rfl rfl rfl rfl rfl rfl

/-- An instruction leaves an idle block idle and keeps the invariant. -/
theorem Effect.keeps_blockInv {i : Instr} {s t : State} (he : Effect i s t) (h : BlockInv s) (hbusy : s.busy = false)
    (hi : i.layer = .host) : BlockInv t := by
  obtain ⟨es, n, -, -, -, hrel⟩ := he.lineRun
  obtain ⟨hdrv, -⟩ := hrel (h.released_of_idle hbusy)
  cases he with
  | ended cause => exact blockInv_settle cause (by simpa using hdrv) h.rom
  | found _ hcrc hfam => exact blockInv_settle none (by simpa using hdrv) (.inr ⟨hcrc, hfam⟩)
  | read => exact blockInv_settle none (by simpa using hdrv) h.rom
  | illegal => exact blockInv_raise _ hdrv h.rom
  | sent hbus => exact absurd hi hbus

/-! ## The invariant along the moves of a busy block -/

/-- A busy block that meets the invariant with the line released: where an operation of the bit engine has ended. -/
structure Released (s : State) : Prop where
  inv  : BlockInv s
  busy : s.busy = true
  drv  : s.line.drv = false

/-- A busy block moved to another state of its sequencer, with the line as that state wants it. -/
theorem BlockInv.moved {s : State} (h : BlockInv s) (hbusy : s.busy = true) (l : Line) (tr : Transient) (q : Seq)
    (hcmd : q.cmd ≠ .idle) (hdrv : l.drv = (q.bit.map BitSeq.driving).getD false)
    (hcrc : q.cmd = .dCheckFam → romCrcOk tr.acc = true) : BlockInv { s with line := l, tr := tr, seq := q } :=
  blockInv_of_busy hbusy hcmd hdrv h.report h.code h.rom hcrc

theorem BlockInv.cmd_ne_idle {s : State} (h : BlockInv s) (hbusy : s.busy = true) : s.seq.cmd ≠ .idle := fun he => by
  rw [h.idle_iff.mpr he] at hbusy
  cases hbusy

namespace Released

variable {s : State}

/-- A move inside the command: the levels below it change, and the transient registers other than `ACC`. -/
theorem within (h : Released s) (tr : Transient) (q : Seq) (hcmd : q.cmd = s.seq.cmd) (hacc : tr.acc = s.tr.acc)
    (hbit : (q.bit.map BitSeq.driving).getD false = false) : BlockInv { s with tr := tr, seq := q } :=
  h.inv.moved h.busy s.line tr q (hcmd ▸ h.inv.cmd_ne_idle h.busy) (h.drv.trans hbit.symm)
    (by rw [hcmd, hacc]; exact h.inv.crc_checked)

/-- A move of the command level. -/
theorem goCmd (h : Released s) (tr : Transient) (q : CmdSeq) (hidle : q ≠ .idle) (hfam : q ≠ .dCheckFam) :
    BlockInv (goCmd q { s with tr := tr }) :=
  h.inv.moved h.busy s.line tr _ hidle h.drv fun he => absurd he hfam

theorem settle (h : Released s) (cause : Option Failure) : BlockInv (settle cause s) :=
  blockInv_settle cause h.drv h.inv.rom

theorem goSel (h : Released s) (tr : Transient) (q : SelSeq) (hacc : tr.acc = s.tr.acc) :
    BlockInv (goSel q { s with tr := tr }) :=
  h.within tr _ rfl hacc rfl

theorem goBit (h : Released s) (q : BitSeq) (hq : q.driving = false) : BlockInv (goBit q s) :=
  h.within s.tr _ rfl rfl hq

theorem callReset (h : Released s) : BlockInv (callReset s) := h.within _ _ rfl rfl rfl
theorem callWriteByte (h : Released s) (v : Byte) : BlockInv (callWriteByte v s) := h.within _ _ rfl rfl rfl
theorem callReadByte (h : Released s) : BlockInv (callReadByte s) := h.within _ _ rfl rfl rfl

/-- The levels below the command have ended, the transient registers other than `ACC` being written. -/
theorem levelsEnd (h : Released s) (tr : Transient) (hacc : tr.acc = s.tr.acc) :
    Released { s with tr := tr, seq := { s.seq with byte := none, bit := none } } :=
  ⟨h.within tr { s.seq with byte := none, bit := none } rfl hacc rfl, h.busy, h.drv⟩

theorem selectDone (h : Released s) : BlockInv (selectDone s) := by
  unfold Machine.selectDone
  split
  · exact h.settle none
  · exact h.goCmd s.tr _ (by decide) (by decide)
  · exact h.goCmd _ _ (by decide) (by decide)
  · exact h.goCmd s.tr _ (by decide) (by decide)
  · exact h.goCmd _ _ (by decide) (by decide)
  · exact h.inv

theorem cmdWroteByte (h : Released s) : BlockInv (cmdWroteByte s) := by
  unfold Machine.cmdWroteByte
  repeat' split
  case h_1 => exact h.settle none
  case h_9 => exact h.inv
  all_goals exact h.goCmd _ _ (by decide) (by decide)

theorem byteWritten (h : Released s) : BlockInv (byteWritten s) := by
  unfold Machine.byteWritten
  repeat' split
  · exact h.inv
  · exact h.goSel _ _ rfl
  · exact h.goSel _ _ rfl
  · exact h.selectDone
  · exact h.cmdWroteByte

theorem byteRead (h : Released s) : BlockInv (byteRead s) := by
  unfold Machine.byteRead
  dsimp only
  repeat' split
  case h_1 | h_2 => exact blockInv_settle none h.drv h.inv.rom
  case h_7 => exact h.inv
  all_goals exact h.goCmd _ _ (by decide) (by decide)

theorem resetDone (h : Released s) (cause : Option Failure) : BlockInv (resetDone cause s) := by
  unfold Machine.resetDone
  repeat' split
  · exact h.goSel s.tr _ rfl
  · exact h.settle _
  · exact h.settle _
  · exact h.goCmd s.tr _ (by decide) (by decide)
  · exact h.inv

theorem bitWritten (h : Released s) : BlockInv (bitWritten s) := by
  unfold Machine.bitWritten
  repeat' split
  · exact h.within _ _ rfl rfl rfl
  · exact (h.levelsEnd s.tr rfl).byteWritten
  · exact h.inv
  · exact h.settle none
  · exact h.goCmd _ _ (by decide) (by decide)
  · exact h.goCmd s.tr _ (by decide) (by decide)
  · exact h.inv

theorem bitRead (h : Released s) (v : Bool) : BlockInv (bitRead v s) := by
  unfold Machine.bitRead
  dsimp only
  repeat' split
  · exact h.within _ _ rfl rfl rfl
  · exact (h.levelsEnd { s.tr with shift := orBit s.tr.shift s.tr.bitCnt.toNat v } rfl).byteRead
  · exact h.inv
  · exact blockInv_settle none h.drv h.inv.rom
  · exact h.goCmd _ _ (by decide) (by decide)
  · exact h.goCmd _ _ (by decide) (by decide)
  · exact h.inv

theorem selTick (h : Released s) (q : SelSeq) : BlockInv (selTick q s) := by
  cases q
  · exact h.callReset
  · exact h.callWriteByte _
  · exact h.callWriteByte _

/-- The family check follows the CRC check (rule R109). -/
theorem toCheckFam (h : Released s) (tr : Transient) (hcrc : romCrcOk tr.acc = true) :
    BlockInv (Machine.goCmd .dCheckFam { s with tr := tr }) :=
  h.inv.moved h.busy s.line tr _ (by decide) h.drv fun _ => hcrc

theorem cmdTick (h : Released s) : BlockInv (cmdTick s) := by
  unfold Machine.cmdTick
  cases hc : s.seq.cmd with
  | idle => exact h.inv
  | owReset | dReset => exact h.callReset
  | owWriteBit | owReadBit | dRdId | dRdCmp | dEcho => exact h.goBit _ rfl
  | owWriteByte | dCmd | rdCmd | rdTaLo | rdTaHi | w1Tx | w2Cmd | w3Tx => exact h.callWriteByte _
  | owReadByte | rdData | w1RxCrc | w2Rx3 | w2Rx10 | w3Rx => exact h.callReadByte
  | select | rdSelect | w1Select | w2Select | w3Select => exact h.goSel s.tr _ rfl
  | dZero | w1Build | w1Cmp => exact h.goCmd _ _ (by decide) (by decide)
  | dDecide =>
    dsimp only
    split
    · exact h.settle _
    · exact h.goCmd _ _ (by decide) (by decide)
  | dCheckCrc =>
    dsimp only
    split
    next hcrc => exact h.toCheckFam _ hcrc
    next => exact blockInv_settle _ h.drv h.inv.rom
  | dCheckFam =>
    dsimp only
    split
    next hfam => exact blockInv_settle none h.drv (.inr ⟨h.inv.crc_checked hc, eq_of_beq hfam⟩)
    next => exact h.settle _
  | w2CheckEs =>
    dsimp only
    repeat' split
    · exact h.settle _
    · exact h.goCmd _ _ (by decide) (by decide)
    · exact h.goCmd _ _ (by decide) (by decide)
  | w2CheckCrc =>
    dsimp only
    split
    · exact h.goCmd _ _ (by decide) (by decide)
    · exact blockInv_settle _ h.drv h.inv.rom
  | w3Wait => exact h.inv.moved h.busy _ s.tr _ (by decide) h.drv (by simp)
  | w3Check => exact h.settle _

end Released

namespace BlockInv

variable {s : State} {q : BitSeq}

/-- The line as the running state of the bit engine wants it (rule R81). -/
theorem drv_eq_driving (h : BlockInv s) (hq : s.seq.bit = some q) : s.line.drv = q.driving := by
  simp [h.drive, hq]

/-- From one state of the bit engine to the next. -/
theorem goBit (h : BlockInv s) (hbusy : s.busy = true) (l : Line) (tr : Transient) (p : BitSeq)
    (hacc : tr.acc = s.tr.acc) (hdrv : l.drv = p.driving) : BlockInv (goBit p { s with line := l, tr := tr }) :=
  h.moved hbusy l tr _ (h.cmd_ne_idle hbusy) hdrv (by rw [hacc]; exact h.crc_checked)

/-- The last event of an operation of the bit engine finds the line released and leaves it so. -/
theorem operationEnds (h : BlockInv s) (hbusy : s.busy = true) (hd : s.line.drv = false) (l : Line)
    (hl : l.drv = false) : Released { s with line := l } :=
  ⟨h.congr rfl rfl (hl.trans hd.symm) rfl rfl rfl rfl, hbusy, hl⟩

theorem bitTick (h : BlockInv s) (hbusy : s.busy = true) (hq : s.seq.bit = some q) : BlockInv (bitTick q s) := by
  have hd := h.drv_eq_driving hq
  cases q with
  | waitSample =>
    unfold Machine.bitTick
    dsimp only
    repeat' split
    · exact h.goBit hbusy _ s.tr _ rfl hd
    · exact h.goBit hbusy _ s.tr _ rfl hd
    · exact (h.operationEnds hbusy hd (sample s.line).2 hd).resetDone _
  | rstRecover => exact (h.operationEnds hbusy hd (emit (.delayUs rstRecUs) s.line) hd).resetDone _
  | wbRelDelay b => exact (h.operationEnds hbusy hd (emit (.delayUs (writeRelUs b)) s.line) hd).bitWritten
  | rbSample => exact (h.operationEnds hbusy hd (sample s.line).2 hd).bitRead _
  | waitDelay | rstLowDelay | rstPdsDelay | rstPresence | wbLowDelay | rbLowDelay | rbWaitDelay =>
    exact h.goBit hbusy _ _ _ rfl hd
  | rstDrive | rstRelease | wbDrive | wbRelease | rbDrive | rbRelease => exact h.goBit hbusy _ s.tr _ rfl rfl

/-- One move of the block keeps the invariant: the innermost running level acts (rule R24). -/
theorem tick (h : BlockInv s) : BlockInv (tick s) := by
  cases hbusy : s.busy with
  | false => rw [tick_idle s (h.seq_idle hbusy)]; exact h
  | true =>
    cases hbit : s.seq.bit with
    | some q => rw [tick_bit hbit]; exact h.bitTick hbusy hbit
    | none =>
      have hr : Released s := ⟨h, hbusy, h.released hbit⟩
      cases hbyte : s.seq.byte with
      | some y =>
        cases y with
        | tx => rw [tick_tx hbit hbyte]; exact hr.goBit _ rfl
        | rx => rw [tick_rx hbit hbyte]; exact hr.goBit _ rfl
      | none =>
        cases hsel : s.seq.sel with
        | some q => rw [tick_sel hbit hbyte hsel]; exact hr.selTick q
        | none => rw [tick_cmd hbit hbyte hsel]; exact hr.cmdTick

end BlockInv

/-! ## The invariant at the host's port -/

/-- A command starts in a state of its own, and not in the family check. -/
theorem firstState_ne {i : Instr} {q : CmdSeq} (h : firstState i = some q) : q ≠ .idle ∧ q ≠ .dCheckFam := by
  cases i <;> cases h <;> decide

/-- What accepting a byte does (rules R15, R62): it starts a command, or ends as IllegalCommand at once. -/
theorem accept_cases (c : Byte) (s : State) :
    (firstState (decodeWord c) = none ∧ accept c s = raise .illegalCommand s) ∨
    ∃ q, firstState (decodeWord c) = some q ∧
      accept c s = goCmd q { s with busy := true, tr := { s.tr with arg := argField c } } := by
  unfold accept
  cases firstState (decodeWord c) with
  | none => exact .inl ⟨rfl, rfl⟩
  | some q => exact .inr ⟨q, rfl, rfl⟩

/-- What a host write does (rules R32, R33): nothing, or it starts a command or writes a register of the host's. -/
theorem writeReg_cases (reg v : Byte) (s : State) :
    writeReg reg v s = s ∨ (s.busy = false ∧ writeReg reg v s = accept v s) ∨
    writeReg reg v s = { s with dataIn := v } ∨ ∃ p, writeReg reg v s = { s with payload := p } := by
  unfold writeReg
  dsimp only
  split
  · exact .inl rfl
  next hbusy =>
    repeat' split
    · exact .inr (.inl ⟨by simpa using hbusy, rfl⟩)
    · exact .inr (.inr (.inl rfl))
    · exact .inr (.inr (.inr ⟨_, rfl⟩))
    · exact .inl rfl

theorem BlockInv.accept {s : State} (h : BlockInv s) (hbusy : s.busy = false) (c : Byte) : BlockInv (accept c s) := by
  have hd := h.released_of_idle hbusy
  rcases accept_cases c s with ⟨-, ha⟩ | ⟨q, hq, ha⟩
  · rw [ha]
    exact blockInv_raise _ hd h.rom
  · obtain ⟨hidle, hfam⟩ := firstState_ne hq
    rw [ha]
    exact blockInv_of_busy rfl hidle hd h.report h.code h.rom fun he => absurd he hfam

theorem BlockInv.writeReg {s : State} (h : BlockInv s) (reg v : Byte) : BlockInv (writeReg reg v s) := by
  rcases writeReg_cases reg v s with hw | ⟨hbusy, hw⟩ | hw | ⟨p, hw⟩ <;> rw [hw]
  · exact h
  · exact h.accept hbusy v
  · exact h.congr rfl rfl rfl rfl rfl rfl rfl
  · exact h.congr rfl rfl rfl rfl rfl rfl rfl

/-- Every command word decodes to an instruction of the host layer (rules R60 to R62). -/
theorem decodeWord_layer (c : Byte) : (decodeWord c).layer = .host := by
  unfold decodeWord
  split <;> rfl

/-- All that a step can do: an instruction on an idle block, a move of the block, a host access, a hardware reset, or
an input taken. The inputs left are `rest`. -/
inductive Stepped (s : State) : State → Prop
  | ran (hbusy : s.busy = false) (c : Byte) (rest : List Input) {t : State}
      (he : Effect (decodeWord c) { s with inputs := rest } t) : Stepped s t
  | moved (rest : List Input) : Stepped s (tick { s with inputs := rest })
  | wrote (reg v : Byte) (rest : List Input) : Stepped s (writeReg reg v { s with inputs := rest })
  | waited (rest : List Input) (log : List Byte) : Stepped s { s with inputs := rest, readLog := log }
  | reset (rest : List Input) (hi : s.inputs = .hardwareReset :: rest) :
      Stepped s (hardwareReset { s with inputs := rest })

theorem step_cases {s t : State} (h : step s = .next t) : Stepped s t := by
  unfold step at h
  split at h
  next => cases h; exact .moved s.inputs
  next c rest hi =>
    split at h
    next => cases h; exact .waited _ s.readLog
    next hbusy => exact .ran (by simpa using hbusy) c rest (exec_effect h)
  next reg v rest hi => cases h; exact .wrote reg v rest
  next reg rest hi => cases h; exact .waited rest _
  next rest hi =>
    split at h
    · cases h; exact .moved s.inputs
    · cases h; exact .waited rest s.readLog
  next rest hi => cases h; exact .moved rest
  next rest hi => cases h; exact .reset rest hi

/-- Settles O51: each of the things a step can do keeps the invariant. -/
theorem everyStepKeepsTheInvariant : Obligations.EveryStepKeepsTheInvariant := by
  intro s t h hst
  cases step_cases hst with
  | ran hbusy c rest he => exact he.keeps_blockInv (h.inputs rest) hbusy (decodeWord_layer c)
  | moved rest => exact (h.inputs rest).tick
  | wrote reg v rest => exact (h.inputs rest).writeReg reg v
  | waited => exact h.congr rfl rfl rfl rfl rfl rfl rfl
  | reset => exact blockInv_hardwareReset _

/-! ## The line discipline -/

/-- The line after events that `LINE_DRV` follows, no `Sample` of which falls while the block drives low. -/
def Disciplined (l l' : Line) : Prop :=
  ∃ es, l'.trace = es.reverse ++ l.trace ∧ noSampleWhileDriving es l.drv = true ∧ l'.drv = driveAfter es l.drv

theorem Disciplined.refl (l : Line) : Disciplined l l := ⟨[], rfl, rfl, rfl⟩

theorem LineRun.disciplined {l l' : Line} (h : LineRun l l') (hd : l.drv = false) : Disciplined l l' := by
  obtain ⟨es, n, htrace, -, hdrv, hrel⟩ := h
  obtain ⟨-, hs⟩ := hrel hd
  exact ⟨es, htrace, by rw [hd, hs], hdrv⟩

/-- The bit engine samples only in states that do not drive the line low (rules R82, R84, R89). -/
theorem BitSeq.disciplined (q : BitSeq) {l : Line} (hd : l.drv = q.driving) : Disciplined l (q.lineAfter l) := by
  cases q with
  | waitSample | rstPresence | rbSample => exact (LineRun.sample l).disciplined hd
  | _ => exact ⟨[_], rfl, rfl, rfl⟩

theorem BlockInv.tick_disciplined {s : State} (h : BlockInv s) : Disciplined s.line (Machine.tick s).line := by
  rcases tick_line s with hl | ⟨q, hq, hl⟩ | ⟨hbit, hl⟩ <;> rw [hl]
  · exact .refl _
  · exact q.disciplined (h.drv_eq_driving hq)
  · exact (LineRun.delayMs progMs s.line).disciplined (h.released hbit)

theorem accept_line (c : Byte) (s : State) : (accept c s).line = s.line := by
  rcases accept_cases c s with ⟨-, ha⟩ | ⟨q, -, ha⟩ <;> rw [ha] <;> rfl

theorem writeReg_line (reg v : Byte) (s : State) : (writeReg reg v s).line = s.line := by
  rcases writeReg_cases reg v s with hw | ⟨-, hw⟩ | hw | ⟨p, hw⟩ <;> rw [hw]
  exact accept_line v s

/-- A step with the invariant: its events are disciplined, and nothing else but a hardware reset moves the line. -/
theorem step_disciplined {s t : State} (h : BlockInv s) (hst : step s = .next t) :
    Disciplined s.line t.line ∨
      (∃ rest, s.inputs = .hardwareReset :: rest) ∧ t.line = { s.line with drv := false } := by
  cases step_cases hst with
  | ran hbusy c rest he => exact .inl (he.lineRun.disciplined (h.released_of_idle hbusy))
  | moved rest => exact .inl (h.inputs rest).tick_disciplined
  | wrote reg v rest => rw [writeReg_line]; exact .inl (.refl _)
  | waited => exact .inl (.refl _)
  | reset rest hi => exact .inr ⟨⟨rest, hi⟩, rfl⟩

/-- Settles O52: a step's events are disciplined, or it is a hardware reset, which has none. -/
theorem everyStepObeysTheLineDiscipline : Obligations.EveryStepObeysTheLineDiscipline := by
  refine ⟨fun s t h hst => ?_, fun l hd => ⟨sampleValue_driving l hd, ?_⟩⟩
  · rcases step_disciplined h hst with ⟨es, htrace, hs, hdrv⟩ | ⟨⟨rest, hi⟩, hl⟩
    · exact ⟨es, addsEvents_of_trace htrace, hs, fun _ => hdrv⟩
    · exact ⟨[], addsEvents_of_trace (by rw [hl]; rfl), rfl, fun hn => absurd hi (hn rest)⟩
  · rw [sample_line]
    exact congrArg (fun v => Event.sample v :: l.trace) (sampleValue_driving l hd)

end Sys2Proof.Machine

namespace Sys2Proof.Machine

/-! ## What the host sees while a command runs -/

/-- One move of the block: the host's side stays, and so do the results while the block is busy (rules R19, R145). -/
theorem tick_results (s : State) : HostSideKept s (tick s) ∧ ((tick s).busy = true →
    (tick s).ok = s.ok ∧ (tick s).err = s.err ∧ (tick s).dataOut = s.dataOut ∧ (tick s).romId = s.romId) := by
  rcases tick_quiet s with ⟨q, -, ht⟩ | ⟨-, -, -, -, ht⟩ | ⟨-, ht⟩
  · rw [ht]
    exact (quiet_bitTick q s).2
  · rw [ht]
    exact (Quiet.refl s).2
  · exact ht.2

/-- The assigned words are those that start a command (rules R61, R62). -/
theorem firstState_of_assigned {c : Byte} (h : 0x1#4 ≤ opField c ∧ opField c ≤ 0x9#4) :
    ∃ q, firstState (decodeWord c) = some q := by
  obtain ⟨hlo, hhi⟩ := h
  have hlo : 1 ≤ (opField c).toNat := hlo
  have hhi : (opField c).toNat ≤ 9 := hhi
  interval_cases hop : (opField c).toNat <;> exact ⟨_, by rw [decodeWord, hop]; rfl⟩

/-- Accepting an assigned word starts its command. -/
theorem accept_of_assigned {c : Byte} (s : State) (h : 0x1#4 ≤ opField c ∧ opField c ≤ 0x9#4) :
    ∃ q, accept c s = goCmd q { s with busy := true, tr := { s.tr with arg := argField c } } := by
  obtain ⟨q, hq⟩ := firstState_of_assigned h
  exact ⟨q, by rw [accept, hq]⟩

/-- Settles O56: the start of a command and its moves write none of the results. -/
theorem busyBlockShowsTheOldResults : Obligations.BusyBlockShowsTheOldResults := by
  refine ⟨fun c s h => ?_, fun s hbusy => ?_⟩
  · obtain ⟨q, ha⟩ := accept_of_assigned s h
    rw [ha]
    exact ⟨rfl, rfl, rfl, rfl, rfl, rfl, rfl, rfl, rfl, rfl⟩
  · obtain ⟨hkept, hres⟩ := tick_results s
    obtain ⟨hok, herr, hdata, hrom⟩ := hres hbusy
    exact ⟨hok, herr, hdata, hrom, hkept⟩

/-! ## The step, by its next input -/

section
variable {s : State} {rest : List Input}

theorem step_nil (hi : s.inputs = []) : step s = .next (tick s) := by rw [step, hi]

theorem step_command_idle {c : Byte} (hi : s.inputs = .command c :: rest) (hbusy : s.busy = false) :
    step s = exec (decodeWord c) { s with inputs := rest } := by
  rw [step, hi]; simp [hbusy]

theorem step_command_busy {c : Byte} (hi : s.inputs = .command c :: rest) (hbusy : s.busy = true) :
    step s = .next { s with inputs := .wait :: rest } := by
  rw [step, hi]; simp [hbusy]

theorem step_write {reg v : Byte} (hi : s.inputs = .write reg v :: rest) :
    step s = .next (writeReg reg v { s with inputs := rest }) := by rw [step, hi]

theorem step_read {reg : Byte} (hi : s.inputs = .read reg :: rest) :
    step s = .next (hostRead reg { s with inputs := rest }) := by rw [step, hi]

theorem step_wait_busy (hi : s.inputs = .wait :: rest) (hbusy : s.busy = true) : step s = .next (tick s) := by
  rw [step, hi]; simp [hbusy]

theorem step_wait_idle (hi : s.inputs = .wait :: rest) (hbusy : s.busy = false) :
    step s = .next { s with inputs := rest } := by
  rw [step, hi]; simp [hbusy]

theorem step_tick (hi : s.inputs = .tick :: rest) : step s = .next (tick { s with inputs := rest }) := by
  rw [step, hi]

end

/-- A table word is one byte, and the decoder reads it (log 22). -/
theorem decodeTableWord_eq_some {w : Nat} {i : Instr} (h : decodeTableWord 8 w = some i) :
    w < 256 ∧ decodeWord (BitVec.ofNat 8 w) = i := by
  unfold decodeTableWord decode at h
  split at h
  next hw => exact ⟨hw.2, Option.some.inj h⟩
  next => cases h

/-- The placed word is the very next instruction (log 4). -/
theorem step_withFetchWord (s : State) {w : Nat} {i : Instr} (h : decodeTableWord 8 w = some i) :
    step (s.withFetchWord 8 w) = exec i { s with busy := false, seq := Seq.idle } := by
  obtain ⟨hw, rfl⟩ := decodeTableWord_eq_some h
  have hstep := step_command_idle (s := s.withFetchWord 8 w) rfl rfl
  rwa [Nat.mod_eq_of_lt (b := 2 ^ 8) hw] at hstep

/-- Settles O5, input by input. -/
theorem stepRunsTheDecodedCommand : Obligations.StepRunsTheDecodedCommand := fun s _ _ =>
  ⟨step_command_idle, step_command_busy, fun _ _ => step_withFetchWord s, step_nil, step_tick, step_wait_busy,
    step_wait_idle⟩

/-! ## The host's port -/

/-- A write to a busy block changes nothing (rule R32). -/
theorem writeReg_busy {s : State} (hbusy : s.busy = true) (reg v : Byte) : writeReg reg v s = s := if_pos hbusy

/-- A write to `CMD` of an idle block is accepted (rule R15). -/
theorem writeReg_cmd {s : State} (hbusy : s.busy = false) (v : Byte) : writeReg 0x00#8 v s = accept v s := by
  simp [writeReg, hbusy]

theorem writeReg_dataIn {s : State} (hbusy : s.busy = false) (v : Byte) :
    writeReg 0x02#8 v s = { s with dataIn := v } := by
  simp [writeReg, hbusy]

/-- Settles O6. -/
theorem busyBlockIgnoresHostWrites : Obligations.BusyBlockIgnoresHostWrites := fun s reg v rest =>
  ⟨fun hi hbusy => (step_write hi).trans (congrArg _ (writeReg_busy (by exact hbusy) reg v)),
    fun hi _ => step_write hi,
    fun hi hbusy => (step_write hi).trans (congrArg _ (writeReg_cmd (by exact hbusy) v)),
    fun hi => step_read hi⟩

/-- A byte inside a register array. -/
theorem byteAt_of_lt {n : Nat} (v : Vector Byte n) (i : Nat) (hi : i < n) : byteAt v i = v[i] := by
  simp [byteAt, hi]

/-- The number of the `i`-th register of an array at `base`. -/
theorem toNat_arrayReg {base : Nat} (hbase : base ≤ 0x10) (i : Fin 8) :
    (BitVec.ofNat 8 (base + i)).toNat = base + i := by
  have := i.isLt
  rw [BitVec.toNat_ofNat]
  omega

theorem readReg_payload (s : State) (i : Fin 8) : readReg (BitVec.ofNat 8 (0x08 + i)) s = s.payload[i] := by
  have := i.isLt
  rw [readReg, toNat_arrayReg (by decide) i]
  rw [if_neg (by omega), if_neg (by omega), if_neg (by omega), if_pos (by omega), Nat.add_sub_cancel_left]
  exact byteAt_of_lt _ _ i.isLt

theorem readReg_romId (s : State) (i : Fin 8) : readReg (BitVec.ofNat 8 (0x10 + i)) s = s.romId[i] := by
  have := i.isLt
  rw [readReg, toNat_arrayReg (by decide) i]
  rw [if_neg (by omega), if_neg (by omega), if_neg (by omega), if_neg (by omega), if_pos (by omega),
    Nat.add_sub_cancel_left]
  exact byteAt_of_lt _ _ i.isLt

theorem writeReg_payload {s : State} (hbusy : s.busy = false) (v : Byte) (i : Fin 8) :
    writeReg (BitVec.ofNat 8 (0x08 + i)) v s = { s with payload := s.payload.set i v } := by
  have := i.isLt
  rw [writeReg, toNat_arrayReg (by decide) i, hbusy]
  rw [if_neg (by decide), if_neg (by omega), if_neg (by omega), if_pos (by omega), Nat.add_sub_cancel_left,
    setByte_eq_set _ _ _ i.isLt]

/-- A register number outside the map reads 0 (rule R33). -/
theorem readReg_reserved {reg : Byte} (h : 0x04#8 ≤ reg ∧ reg ≤ 0x07#8 ∨ 0x18#8 ≤ reg) (s : State) :
    readReg reg s = 0x00#8 := by
  have h : 0x04 ≤ reg.toNat ∧ reg.toNat ≤ 0x07 ∨ 0x18 ≤ reg.toNat := h
  rw [readReg]
  rw [if_neg (by omega), if_neg (by omega), if_neg (by omega), if_neg (by omega), if_neg (by omega)]
  rfl

/-- A write outside the three registers the host writes changes nothing (rules R16, R33). -/
theorem writeReg_ignored {reg : Byte} (h0 : reg.toNat ≠ 0x00) (h2 : reg.toNat ≠ 0x02)
    (hp : ¬ (0x08 ≤ reg.toNat ∧ reg.toNat ≤ 0x0F)) (v : Byte) (s : State) : writeReg reg v s = s := by
  rw [writeReg]
  rw [if_neg h0, if_neg h2, if_neg hp, ite_self]

/-- A write to a register number outside the map changes nothing (rule R33). -/
theorem writeReg_reserved {reg : Byte} (h : 0x04#8 ≤ reg ∧ reg ≤ 0x07#8 ∨ 0x18#8 ≤ reg) (v : Byte) (s : State) :
    writeReg reg v s = s := by
  have h : 0x04 ≤ reg.toNat ∧ reg.toNat ≤ 0x07 ∨ 0x18 ≤ reg.toNat := h
  exact writeReg_ignored (by omega) (by omega) (by omega) v s

/-- A write to a read-only register changes nothing (rules R11, R14, R16). -/
theorem writeReg_readOnly {reg : Byte} (h : reg = 0x01#8 ∨ reg = 0x03#8 ∨ 0x10#8 ≤ reg ∧ reg ≤ 0x17#8) (v : Byte)
    (s : State) : writeReg reg v s = s := by
  rcases h with rfl | rfl | ⟨hlo, hhi⟩
  · exact writeReg_ignored (by decide) (by decide) (by decide) v s
  · exact writeReg_ignored (by decide) (by decide) (by decide) v s
  · have hlo : 0x10 ≤ reg.toNat := hlo
    exact writeReg_ignored (by omega) (by omega) (by omega) v s

/-- Settles O7, register by register. -/
theorem hostRegisterMap : Obligations.HostRegisterMap := fun s v =>
  ⟨rfl, rfl, rfl, rfl, fun i => ⟨readReg_payload s i, readReg_romId s i⟩, fun _ h => readReg_reserved h s,
    fun hbusy => ⟨writeReg_cmd hbusy v, writeReg_dataIn hbusy v, writeReg_payload hbusy v,
      fun _ h => writeReg_reserved h v s, fun _ h => writeReg_readOnly h v s⟩⟩

/-- `STATUS` bit by bit, laid out as rule R16 has it. -/
theorem getLsbD_status (s : State) (i : Nat) : (status s).getLsbD i =
    if i = 0 then s.busy else if i = 1 then s.ok else if i < 4 then false else s.err.getLsbD (i - 4) := by
  have h : (status s).getLsbD i
      = (s.err ++ 0b00#2 ++ BitVec.ofBool s.ok ++ BitVec.ofBool s.busy : BitVec (4 + 2 + 1 + 1)).getLsbD i := rfl
  rw [h, BitVec.getLsbD_append, BitVec.getLsbD_append, BitVec.getLsbD_append]
  rcases i with _ | _ | _ | _ | i <;> simp

/-- Settles O10 from the bits of `STATUS`. -/
theorem statusRegisterBits : Obligations.StatusRegisterBits := by
  refine fun s v => ⟨getLsbD_status s 0, getLsbD_status s 1, ?_, ?_, rfl, writeReg_readOnly (.inl rfl) v s, rfl⟩
  · apply BitVec.eq_of_getLsbD_eq
    intro i hi
    have hlo : ¬ 2 + i = 0 ∧ ¬ 2 + i = 1 ∧ 2 + i < 4 := by omega
    simp [BitVec.getLsbD_extractLsb', getLsbD_status, hlo]
  · apply BitVec.eq_of_getLsbD_eq
    intro i hi
    have hlo : ¬ 4 + i = 0 ∧ ¬ 4 + i = 1 ∧ ¬ 4 + i < 4 := by omega
    simp [getLsbD_status, hlo, hi]

/-- Settles O11: the reset values of rule R31, the arrays byte by byte. -/
theorem resetRegisterValues : Obligations.ResetRegisterValues :=
  ⟨fun _ => ⟨by simp [State.reset], by simp [State.reset]⟩, rfl, rfl, rfl, rfl, rfl, rfl, rfl⟩

end Sys2Proof.Machine

namespace Sys2Proof.Machine

/-! ## The transient registers a command starts with -/

/-- Two register arrays with the same bytes below index `m`. -/
def AgreeBelow {k : Nat} (m : Nat) (v w : Vector Byte k) : Prop := ∀ j, j < m → byteAt v j = byteAt w j

namespace AgreeBelow

variable {k m : Nat} {v w : Vector Byte k}

theorem mono (h : AgreeBelow m v w) {n : Nat} (hn : n ≤ m) : AgreeBelow n v w := fun j hj => h j (by omega)

theorem eq (h : AgreeBelow k v w) : v = w := ext_byteAt v w h

/-- A byte stored in both arrays at the end of their common part, or inside it. -/
theorem setByte (h : AgreeBelow m v w) {i : Nat} (him : i ≤ m) (hik : i < k) (x : Byte) :
    AgreeBelow (max m (i + 1)) (setByte v i x) (setByte w i x) := by
  intro j hj
  rw [byteAt_setByte v i j x hik, byteAt_setByte w i j x hik]
  split
  · rfl
  · exact h j (by omega)

/-- Reading the same bytes into both arrays. -/
theorem readSpan (h : AgreeBelow m v w) (n : Nat) {i : Nat} (him : i ≤ m) (hik : i + n ≤ k) (l : Line) :
    (readSpan n i v l).2 = (readSpan n i w l).2 ∧
      AgreeBelow (max m (i + n)) (readSpan n i v l).1 (readSpan n i w l).1 := by
  induction n generalizing i m v w l with
  | zero => exact ⟨rfl, h.mono (by omega)⟩
  | succ n ih =>
    obtain ⟨hline, hagree⟩ := ih (h.setByte him (by omega) (readByte l).1) (i := i + 1) (by omega) (by omega)
      (readByte l).2
    exact ⟨hline, hagree.mono (by omega)⟩

/-- Bytes of the common part are sent alike. -/
theorem writeSpan (h : AgreeBelow m v w) (n i : Nat) (hi : i + n ≤ m) (l : Line) :
    writeSpan v n i l = writeSpan w n i l := by
  induction n generalizing i l with
  | zero => rfl
  | succ n ih =>
    rw [Machine.writeSpan, Machine.writeSpan, h i (by omega)]
    exact ih _ (by omega) _

end AgreeBelow

/-- A whole array read in does not depend on what it held (rule R29). -/
theorem readSpan_whole {k : Nat} (v w : Vector Byte k) (l : Line) : readSpan k 0 v l = readSpan k 0 w l := by
  have h0 : AgreeBelow 0 v w := fun j hj => absurd hj (Nat.not_lt_zero j)
  obtain ⟨hline, hagree⟩ := h0.readSpan k (Nat.le_refl 0) (Nat.le_of_eq (Nat.zero_add k)) l
  exact Prod.ext (hagree.mono (by omega)).eq hline

/-- The comparison of rule R100 looks at the first `n` bytes of the buffer only. -/
theorem AgreeBelow.bufCrcOk {n : Nat} {v w : Vector Byte 12} (h : AgreeBelow n v w) (crcRx : Vector Byte 2) :
    bufCrcOk v n crcRx = bufCrcOk w n crcRx := by
  have ht : v.toList.take n = w.toList.take n := by
    rw [toList_eq_map_byteAt v, toList_eq_map_byteAt w, ← List.map_take, ← List.map_take]
    refine List.map_congr_left fun j hj => h j ?_
    rw [List.take_range, List.mem_range] at hj
    omega
  rw [Machine.bufCrcOk, Machine.bufCrcOk, crc16PairOk_take v.toList, crc16PairOk_take w.toList, ht]

/-- The staged buffer keeps its last byte only from the buffer before (rule R123). -/
theorem stageBuffer_agree (row : Nat) (p : Vector Byte 8) (buf buf' : Vector Byte 12) :
    AgreeBelow 11 (stageBuffer row p buf) (stageBuffer row p buf') := by
  intro j hj
  rw [stageBuffer_eq, stageBuffer_eq]
  interval_cases j <;> rfl

theorem writePhase1_agree (romId : Vector Byte 8) {buf buf' : Vector Byte 12} (h : AgreeBelow 11 buf buf')
    (crcRx crcRx' : Vector Byte 2) (l : Line) :
    writePhase1 romId buf crcRx l = writePhase1 romId buf' crcRx' l := by
  rw [writePhase1, writePhase1, h.writeSpan 11 0 (Nat.le_refl _), readSpan_whole crcRx crcRx', h.bufCrcOk]

/-- Phase 2 ends alike on two buffers that agree but for the last byte, and hands on buffers that do. -/
theorem writePhase2_agree (romId : Vector Byte 8) (nv : Bool) {buf buf' : Vector Byte 12}
    (h : AgreeBelow 11 buf buf') (crcRx : Vector Byte 2) (l : Line) :
    (∃ f l', writePhase2 romId nv buf crcRx l = (.error f, l') ∧ writePhase2 romId nv buf' crcRx l = (.error f, l')) ∨
    (∃ b b' l', writePhase2 romId nv buf crcRx l = (.ok b, l') ∧ writePhase2 romId nv buf' crcRx l = (.ok b', l') ∧
      AgreeBelow 11 b b') := by
  have h0 := h.setByte (i := 0) (by omega) (by omega) readScratchpadByte
  obtain ⟨hline3, h3⟩ := h0.readSpan 3 (i := 1) (by omega) (by omega)
    (writeByte readScratchpadByte (selectDevice romId l))
  rcases hs : readSpan 3 1 (setByte buf 0 readScratchpadByte) (writeByte readScratchpadByte (selectDevice romId l))
    with ⟨b, l3⟩
  rcases hs' : readSpan 3 1 (setByte buf' 0 readScratchpadByte) (writeByte readScratchpadByte (selectDevice romId l))
    with ⟨b', l3'⟩
  rw [hs, hs'] at hline3 h3
  obtain rfl : l3 = l3' := hline3
  have h3 : AgreeBelow 11 b b' := h3
  obtain ⟨hline8, h8⟩ := h3.readSpan 8 (i := 4) (by omega) (by omega) l3
  have h8 : readSpan 8 4 b l3 = readSpan 8 4 b' l3 := Prod.ext h8.eq hline8
  unfold writePhase2
  rw [hs, hs']
  dsimp only
  rw [h3 3 (by omega), h8]
  split
  · exact .inl ⟨_, _, rfl, rfl⟩
  · split
    · split
      · exact .inr ⟨_, _, _, rfl, rfl, fun _ _ => rfl⟩
      · exact .inl ⟨_, _, rfl, rfl⟩
    · exact .inr ⟨b, b', l3, rfl, rfl, h3⟩

theorem writePhase3_agree (romId : Vector Byte 8) {buf buf' : Vector Byte 12} (h : AgreeBelow 11 buf buf')
    (l : Line) : writePhase3 romId buf l = writePhase3 romId buf' l := by
  have h0 := h.setByte (i := 0) (by omega) (by omega) Config.cmdCopy
  rw [writePhase3, writePhase3, h0.writeSpan 4 0 (by omega)]

/-- `WRITE_ROW` writes `BUF` and `CRC_RX` before it reads them (rule R29). -/
theorem writeRowRun_transients (row : Nat) (s : State) (tr : Transient) :
    writeRowRun row { s with tr := tr } = writeRowRun row s := by
  have hbuf := stageBuffer_agree row s.payload tr.buf s.tr.buf
  rcases h1 : writePhase1 s.romId (stageBuffer row s.payload s.tr.buf) s.tr.crcRx s.line with ⟨⟨nv, rx⟩, l1⟩
  have h1' := (writePhase1_agree s.romId hbuf tr.crcRx s.tr.crcRx s.line).trans h1
  rcases writePhase2_agree s.romId nv hbuf rx l1 with ⟨f, l2, h2', h2⟩ | ⟨b', b, l2, h2', h2, hb⟩
  · rw [writeRowRun_failed row s nv rx l1 l2 f h1 h2]
    exact writeRowRun_failed row { s with tr := tr } nv rx l1 l2 f h1' h2'
  · rw [writeRowRun_passed row s nv rx l1 l2 b _ h1 h2 rfl]
    exact writeRowRun_passed row { s with tr := tr } nv rx l1 l2 b' _ h1' h2' (writePhase3_agree s.romId hb l2)

/-- What the end of a command leaves does not depend on the transient registers (rule R29). -/
theorem settle_transients (cause : Option Failure) (s : State) (tr : Transient) :
    settle cause { s with tr := tr } = settle cause s :=
  settle_congr cause s tr s.seq s.busy

theorem discoverEnd_transients (r : Except Failure (Vector Byte 8)) (s : State) (tr : Transient) :
    discoverEnd r { s with tr := tr } = discoverEnd r s := by
  cases r with
  | error f => exact settle_transients (some f) s tr
  | ok id => exact settle_transients none { s with romId := id } tr

theorem exec_readRow_refused (s : State) {row : Nat} (hr : ¬ row < 16) :
    exec (.readRow row) s = .refused (.rowOutOfRange row) := by
  simp only [exec, execReadRow, rowCount, hr, if_false]

theorem exec_writeRow_refused (s : State) {row : Nat} (hr : ¬ row < 16) :
    exec (.writeRow row) s = .refused (.rowOutOfRange row) := by
  simp only [exec, execWriteRow, rowCount, hr, if_false]

/-- Settles O49: `WRITE_ROW` is the one command that names transient registers. -/
theorem transientsDoNotInfluenceCommands : Obligations.TransientsDoNotInfluenceCommands := by
  intro i s tr hi
  cases i with
  | owReset => exact congrArg Host.Outcome.next (settle_transients _ { s with line := (reset s.line).2 } tr)
  | owWriteBit bit =>
    exact congrArg Host.Outcome.next (settle_transients none { s with line := writeBit bit s.line } tr)
  | owReadBit =>
    exact congrArg Host.Outcome.next (settle_transients none
      { s with dataOut := zext8 (readBit s.line).1, line := (readBit s.line).2 } tr)
  | owWriteByte =>
    exact congrArg Host.Outcome.next (settle_transients none { s with line := writeByte s.dataIn s.line } tr)
  | owReadByte =>
    exact congrArg Host.Outcome.next (settle_transients none
      { s with dataOut := (readByte s.line).1, line := (readByte s.line).2 } tr)
  | discover =>
    rw [exec_discover_of s _ _ rfl, exec_discover_of { s with tr := tr } _ _ rfl]
    exact congrArg Host.Outcome.next (discoverEnd_transients _ { s with line := (discoverRun s.line).2 } tr)
  | select =>
    exact congrArg Host.Outcome.next (settle_transients none { s with line := selectDevice s.romId s.line } tr)
  | readRow row =>
    by_cases hr : row < 16
    · rw [exec_readRow_of s row _ _ hr rfl, exec_readRow_of { s with tr := tr } row _ _ hr rfl]
      exact congrArg Host.Outcome.next (settle_transients none
        { s with dataOut := (readRowRun s.romId row s.line).1, line := (readRowRun s.romId row s.line).2 } tr)
    · rw [exec_readRow_refused s hr, exec_readRow_refused _ hr]
  | writeRow row =>
    by_cases hr : row < 16
    · rcases hw : writeRowRun row s with ⟨cause, l⟩
      rw [exec_writeRow_of s row cause l hr hw,
        exec_writeRow_of { s with tr := tr } row cause l hr ((writeRowRun_transients row s tr).trans hw)]
      exact congrArg Host.Outcome.next (settle_transients cause { s with line := l } tr)
    · rw [exec_writeRow_refused s hr, exec_writeRow_refused _ hr]
  | illegal0 | illegalAB | illegalCF | searchRom | matchRom | readMemory | writeScratchpad | readScratchpad | copy =>
    cases hi

end Sys2Proof.Machine

namespace Sys2Proof.Machine

/-! ## A running command, state by state -/

/-- The command that `s` accepted, at the state `q` of its own with nothing running below it. A run of moves changes the
line and the transient registers only, until the command ends. -/
def inCommand (s : State) (q : CmdSeq) (l : Line) (tr : Transient) : State :=
  { s with busy := true, seq := Seq.atCmd q, line := l, tr := tr }

/-- A run that ends a command, whatever it left in the registers that the end writes. -/
theorem RunsIn.settled {k : Nat} {s t a : State} {cause : Option Failure} (h : RunsIn k s t) {tr : Transient} {q : Seq}
    {b : Bool} (ht : t = settle cause { a with tr := tr, seq := q, busy := b }) : RunsIn k s (settle cause a) := by
  rw [← settle_congr cause a tr q b, ← ht]
  exact h

/-- The transient registers that no `reset()`, no byte and no `select()` writes: what a command carries from one state
of its own to the next. -/
structure Carried (tr tr' : Transient) : Prop where
  arg         : tr'.arg = tr.arg
  acc         : tr'.acc = tr.acc
  b           : tr'.b = tr.b
  buf         : tr'.buf = tr.buf
  crcRx       : tr'.crcRx = tr.crcRx
  needsVerify : tr'.needsVerify = tr.needsVerify

section
variable {s t : State} {q : CmdSeq} {l : Line} {tr : Transient} {k : Nat}

/-- A run that comes to a byte the command level sends goes on to the command's next state in 41 moves. -/
theorem RunsIn.send (h : RunsIn k t (inCommand s q l tr)) (v : Byte) (q' : CmdSeq) (f : Transient → Transient)
    (ht : tick (inCommand s q l tr) = callWriteByte v (inCommand s q l tr))
    (hdone : ∀ u : State, u.seq.cmd = q → cmdWroteByte u = goCmd q' { u with tr := f u.tr }) :
    ∃ tr', Carried tr tr' ∧ RunsIn (k + 41) t (inCommand s q' (writeByte v l) (f tr')) := by
  have hw := runs_callWriteByte v (inCommand s q l tr) rfl ht
  refine ⟨{ tr with shift := v, bitCnt := 7#3 }, ⟨rfl, rfl, rfl, rfl, rfl, rfl⟩, h.trans ?_⟩
  exact (congrArg (RunsIn 41 _) (hdone _ rfl)).mp hw

/-- A run that comes to a `select()` goes on to the command's next state in at most 628 moves. -/
theorem RunsIn.select (h : RunsIn k t (inCommand s q l tr)) (q' : CmdSeq) (f : Transient → Transient)
    (ht : tick (inCommand s q l tr) = goSel .sReset (inCommand s q l tr))
    (hdone : ∀ u : State, u.seq.cmd = q → selectDone u = goCmd q' { u with tr := f u.tr }) :
    ∃ tr', Carried tr tr' ∧ RunsIn (k + 628) t (inCommand s q' (selectDevice s.romId l) (f tr')) := by
  obtain ⟨c, v, r, p, i, hs⟩ := runs_callSelect (inCommand s q l tr) rfl ht
  refine ⟨{ tr with bitCnt := c, shift := v, retry := r, pres := p, idx := i }, ⟨rfl, rfl, rfl, rfl, rfl, rfl⟩,
    h.trans ?_⟩
  exact (congrArg (RunsIn 628 _) (hdone _ rfl)).mp hs

/-- `D_RESET`: the command ends with the cause of a `reset()` that failed (rule R106). -/
theorem RunsIn.dReset (h : RunsIn k t (inCommand s .dReset l tr)) :
    (∃ f, (reset l).1 = some f ∧ RunsIn (k + 258) t (settle (some f) { s with line := (reset l).2 })) ∨
    ((reset l).1 = none ∧ ∃ tr', Carried tr tr' ∧ RunsIn (k + 258) t (inCommand s .dCmd (reset l).2 tr')) := by
  obtain ⟨r, p, q, hr⟩ := runs_callReset (inCommand s .dReset l tr) rfl rfl
  rw [show (inCommand s .dReset l tr).line = l from rfl] at hr
  cases hc : (reset l).1 with
  | some f =>
    rw [hc] at hr
    exact .inl ⟨f, rfl, (h.trans hr).settled rfl⟩
  | none =>
    rw [hc] at hr
    exact .inr ⟨rfl, { tr with retry := r, pres := p }, ⟨rfl, rfl, rfl, rfl, rfl, rfl⟩, h.trans hr⟩

/-- The search from its first bit (rules R107, R108): it ends the command, or hands on the bits found. -/
theorem RunsIn.search (h : RunsIn k t (inCommand s .dRdId l tr)) (hb : tr.b = 0) :
    (∃ f l', searchLoop 64 0 tr.acc l = (.error f, l') ∧
      RunsIn (k + 1152) t (settle (some f) { s with line := l' })) ∨
    (∃ l' tr', searchLoop 64 0 tr.acc l = (.ok tr'.acc, l') ∧
      RunsIn (k + 1152) t (inCommand s .dCheckCrc l' tr')) := by
  have hb : tr.b.toNat = 0 := by rw [hb]; rfl
  have hs := runs_search 63 (inCommand s .dRdId l tr) rfl rfl (congrArg (· + 63) hb)
  rw [show (inCommand s .dRdId l tr).tr.b.toNat = 0 from hb] at hs
  rcases hs with ⟨f, l', hloop, hr⟩ | ⟨l', tr', hloop, hr⟩
  · exact .inl ⟨f, l', hloop, (h.trans hr).settled rfl⟩
  · exact .inr ⟨l', tr', hloop, h.trans hr⟩

theorem discoverEnd_ok (id : Vector Byte 8) (u : State) : discoverEnd (.ok id) u = settle none { u with romId := id } :=
  rfl

theorem discoverEnd_error (f : Failure) (u : State) : discoverEnd (.error f) u = settle (some f) u := rfl

/-- `D_CHECK_CRC` and `D_CHECK_FAM`: the identifier is validated, the CRC first (rule R109). -/
theorem RunsIn.validate (h : RunsIn k t (inCommand s .dCheckCrc l tr)) :
    RunsIn (k + 2) t (discoverEnd (validateId tr.acc) { s with line := l }) := by
  rcases validateId_cases tr.acc with ⟨hcrc, hv⟩ | ⟨hcrc, hfam, hv⟩ | ⟨hcrc, hfam, hv⟩
  · rw [hv, discoverEnd_error]
    have h1 := h.trans (RunsIn.one rfl (tick_dCheckCrc_bad rfl hcrc))
    exact (h1.mono (Nat.le_succ _)).settled rfl
  · rw [hv, discoverEnd_error]
    have h1 := h.trans (RunsIn.one rfl (tick_dCheckCrc_ok rfl hcrc))
    exact (h1.trans (RunsIn.one rfl (tick_dCheckFam_bad rfl hfam))).settled rfl
  · rw [hv, discoverEnd_ok]
    have h1 := h.trans (RunsIn.one rfl (tick_dCheckCrc_ok rfl hcrc))
    exact (h1.trans (RunsIn.one rfl (tick_dCheckFam_ok rfl hfam))).settled rfl

/-- `W1_TX`: the 11 staged bytes (rule R123). -/
theorem RunsIn.w1Tx (h : RunsIn k t (inCommand s .w1Tx l tr)) (hi : tr.idx = 0) :
    ∃ tr', Carried tr tr' ∧ tr'.idx = 0 ∧
      RunsIn (k + 451) t (inCommand s .w1RxCrc (writeSpan tr.buf 11 0 l) tr') := by
  have hi : tr.idx.toNat = 0 := by rw [hi]; rfl
  obtain ⟨c, v, i, hw, hz⟩ := runs_w1Tx 10 (inCommand s .w1Tx l tr) rfl rfl (congrArg (· + 10) hi)
  rw [show (inCommand s .w1Tx l tr).tr.idx.toNat = 0 from hi] at hw
  exact ⟨{ tr with bitCnt := c, shift := v, idx := i }, ⟨rfl, rfl, rfl, rfl, rfl, rfl⟩, hz, h.trans hw⟩

/-- `W1_RXCRC`: the pair of Phase 1 (rule R124). -/
theorem RunsIn.w1Rx (h : RunsIn k t (inCommand s .w1RxCrc l tr)) (hi : tr.idx = 0) :
    ∃ tr', tr'.buf = tr.buf ∧ tr'.crcRx = (readSpan 2 0 tr.crcRx l).1 ∧
      RunsIn (k + 98) t (inCommand s .w1Cmp (readSpan 2 0 tr.crcRx l).2 tr') := by
  have hi : tr.idx.toNat = 0 := by rw [hi]; rfl
  obtain ⟨c, v, i, hr⟩ := runs_w1Rx 1 (inCommand s .w1RxCrc l tr) rfl rfl (congrArg (· + 1) hi)
  rw [show (inCommand s .w1RxCrc l tr).tr.idx.toNat = 0 from hi] at hr
  exact ⟨{ tr with bitCnt := c, shift := v, idx := i, crcRx := (readSpan 2 0 tr.crcRx l).1 }, rfl, rfl, h.trans hr⟩

/-- `W2_RX3`: the address and the status byte (rule R125). -/
theorem RunsIn.w2Rx3 (h : RunsIn k t (inCommand s .w2Rx3 l tr)) (hi : tr.idx = 1) :
    ∃ tr', tr'.buf = (readSpan 3 1 tr.buf l).1 ∧ tr'.crcRx = tr.crcRx ∧ tr'.needsVerify = tr.needsVerify ∧
      RunsIn (k + 147) t (inCommand s .w2CheckEs (readSpan 3 1 tr.buf l).2 tr') := by
  have hi : tr.idx.toNat = 1 := by rw [hi]; rfl
  obtain ⟨c, v, i, hr⟩ := runs_w2Rx3 2 (inCommand s .w2Rx3 l tr) rfl rfl (congrArg (· + 2) hi)
  rw [show (inCommand s .w2Rx3 l tr).tr.idx.toNat = 1 from hi] at hr
  exact ⟨{ tr with bitCnt := c, shift := v, idx := i, buf := (readSpan 3 1 tr.buf l).1 }, rfl, rfl, rfl, h.trans hr⟩

/-- `W2_RX10`: the payload bytes (rule R127). -/
theorem RunsIn.w2RxData (h : RunsIn k t (inCommand s .w2Rx10 l tr)) (hi : tr.idx = 4) :
    ∃ tr', tr'.buf = (readSpan 8 4 tr.buf l).1 ∧ tr'.crcRx = tr.crcRx ∧ tr'.idx = 0 ∧
      RunsIn (k + 392) t (inCommand s .w2Rx10 (readSpan 8 4 tr.buf l).2 tr') := by
  have hi : tr.idx.toNat = 4 := by rw [hi]; rfl
  obtain ⟨c, v, i, hr, hz⟩ := runs_w2RxData 7 (inCommand s .w2Rx10 l tr) rfl rfl (congrArg (· + 7) hi)
    (Nat.le_of_eq hi.symm)
  rw [show (inCommand s .w2Rx10 l tr).tr.idx.toNat = 4 from hi] at hr
  exact ⟨{ tr with bitCnt := c, shift := v, idx := i, buf := (readSpan 8 4 tr.buf l).1 }, rfl, rfl, hz, h.trans hr⟩

/-- `W2_RX10`: the pair of Phase 2 (rule R127). -/
theorem RunsIn.w2RxPair (h : RunsIn k t (inCommand s .w2Rx10 l tr)) (hi : tr.idx = 0) :
    ∃ tr', tr'.buf = tr.buf ∧ tr'.crcRx = (readSpan 2 0 tr.crcRx l).1 ∧
      RunsIn (k + 98) t (inCommand s .w2CheckCrc (readSpan 2 0 tr.crcRx l).2 tr') := by
  have hi : tr.idx.toNat = 0 := by rw [hi]; rfl
  obtain ⟨c, v, i, hr⟩ := runs_w2RxPair 1 (inCommand s .w2Rx10 l tr) rfl rfl (congrArg (· + 1) hi)
  rw [show (inCommand s .w2Rx10 l tr).tr.idx.toNat = 0 from hi] at hr
  exact ⟨{ tr with bitCnt := c, shift := v, idx := i, crcRx := (readSpan 2 0 tr.crcRx l).1 }, rfl, rfl, h.trans hr⟩

/-- `W3_TX`: the commit frame (rule R128). -/
theorem RunsIn.w3Tx (h : RunsIn k t (inCommand s .w3Tx l tr)) (hi : tr.idx = 0) :
    ∃ tr', RunsIn (k + 164) t (inCommand s .w3Wait (writeSpan tr.buf 4 0 l) tr') := by
  have hi : tr.idx.toNat = 0 := by rw [hi]; rfl
  obtain ⟨c, v, i, hw⟩ := runs_w3Tx 3 (inCommand s .w3Tx l tr) rfl rfl (congrArg (· + 3) hi)
  rw [show (inCommand s .w3Tx l tr).tr.idx.toNat = 0 from hi] at hw
  exact ⟨{ tr with bitCnt := c, shift := v, idx := i }, h.trans hw⟩

end

section
variable (s : State) (l : Line) (tr : Transient)

/-- `OW_RESET` (rule R85). -/
theorem runs_owReset :
    RunsIn 258 (inCommand s .owReset l tr) (settle (reset l).1 { s with line := (reset l).2 }) := by
  obtain ⟨r, p, q, h⟩ := runs_callReset (inCommand s .owReset l tr) rfl rfl
  exact h.settled rfl

/-- `OW_WRITE_BIT` (rule R86). -/
theorem runs_owWriteBit :
    RunsIn 5 (inCommand s .owWriteBit l tr) (settle none { s with line := writeBit (argBit tr.arg) l }) := by
  have h := runs_writeBit (argBit tr.arg) (tick (inCommand s .owWriteBit l tr)) rfl rfl
  exact (RunsIn.cons rfl h).settled rfl

/-- `OW_READ_BIT` (rule R87). -/
theorem runs_owReadBit :
    RunsIn 6 (inCommand s .owReadBit l tr)
      (settle none { s with dataOut := zext8 (readBit l).1, line := (readBit l).2 }) := by
  have h := runs_readBit (tick (inCommand s .owReadBit l tr)) rfl rfl
  exact (RunsIn.cons rfl h).settled rfl

/-- `OW_WRITE_BYTE` (rule R92). -/
theorem runs_owWriteByte :
    RunsIn 41 (inCommand s .owWriteByte l tr) (settle none { s with line := writeByte s.dataIn l }) :=
  (runs_callWriteByte s.dataIn (inCommand s .owWriteByte l tr) rfl rfl).settled rfl

/-- `OW_READ_BYTE` (rule R93). -/
theorem runs_owReadByte :
    RunsIn 49 (inCommand s .owReadByte l tr)
      (settle none { s with dataOut := (readByte l).1, line := (readByte l).2 }) :=
  (runs_callReadByte (inCommand s .owReadByte l tr) rfl rfl).settled rfl

/-- `SELECT` (rule R116). -/
theorem runs_selectCommand :
    RunsIn 628 (inCommand s .select l tr) (settle none { s with line := selectDevice s.romId l }) := by
  obtain ⟨c, v, r, p, i, h⟩ := runs_callSelect (inCommand s .select l tr) rfl rfl
  exact h.settled rfl

/-- `READ_ROW` (rule R121): the select frame, three bytes sent, one read. -/
theorem runs_readRow :
    RunsIn 800 (inCommand s .rdSelect l tr)
      (settle none { s with dataOut := (readRowRun s.romId tr.arg.toNat l).1
                            line := (readRowRun s.romId tr.arg.toNat l).2 }) := by
  obtain ⟨tr1, h1, r1⟩ := (RunsIn.refl (inCommand s .rdSelect l tr)).select .rdCmd (fun tr => tr) rfl
    fun u hu => by rw [selectDone, hu]
  obtain ⟨tr2, h2, r2⟩ := r1.send readMemoryByte .rdTaLo (fun tr => tr) rfl fun u hu => by rw [cmdWroteByte, hu]
  obtain ⟨tr3, h3, r3⟩ := r2.send (taLo tr2.arg.toNat) .rdTaHi (fun tr => tr) rfl fun u hu => by rw [cmdWroteByte, hu]
  obtain ⟨tr4, h4, r4⟩ := r3.send (taHi tr3.arg.toNat) .rdData (fun tr => tr) rfl fun u hu => by rw [cmdWroteByte, hu]
  have r5 := r4.trans (runs_callReadByte _ rfl rfl)
  rw [h3.arg, h2.arg, h1.arg] at r5
  exact (r5.settled rfl).mono (by decide)

/-! ### `WRITE_ROW`, phase by phase -/

/-- Phase 1 (rules R71, R124): the staged bytes go out, and the pair received decides `NEEDS_VERIFY`. -/
theorem runs_phase1 :
    ∃ tr', tr'.buf = tr.buf ∧ tr'.crcRx = (writePhase1 s.romId tr.buf tr.crcRx l).1.2 ∧
      tr'.needsVerify = (writePhase1 s.romId tr.buf tr.crcRx l).1.1 ∧
      RunsIn 1178 (inCommand s .w1Select l tr)
        (inCommand s .w2Select (writePhase1 s.romId tr.buf tr.crcRx l).2 tr') := by
  obtain ⟨tr1, h1, r1⟩ := (RunsIn.refl (inCommand s .w1Select l tr)).select .w1Tx (fun tr => { tr with idx := 0 }) rfl
    fun u hu => by rw [selectDone, hu]
  obtain ⟨tr2, h2, hi2, r2⟩ := r1.w1Tx rfl
  obtain ⟨tr3, hbuf, hrx, r3⟩ := r2.w1Rx hi2
  have r4 := r3.trans (RunsIn.one rfl (tick_w1Cmp rfl))
  have hbuf1 : tr1.buf = tr.buf := h1.buf
  have hbuf3 : tr3.buf = tr.buf := by rw [hbuf, h2.buf, ← hbuf1]
  have hrx2 : tr2.crcRx = tr.crcRx := by rw [h2.crcRx, ← h1.crcRx]
  dsimp only at r4 hrx
  rw [hbuf1, hrx2] at r4 hrx
  refine ⟨{ tr3 with crc16R := crc16 tr3.buf.toList 11, needsVerify := !bufCrcOk tr3.buf 11 tr3.crcRx }, hbuf3, hrx, ?_,
    r4⟩
  dsimp only
  rw [hbuf3, hrx]
  rfl

/-- Phase 2 (rules R72, R125 to R127): it ends the command, or hands its buffer to Phase 3. -/
theorem runs_phase2 :
    (∃ f, (writePhase2 s.romId tr.needsVerify tr.buf tr.crcRx l).1 = .error f ∧
      RunsIn 1308 (inCommand s .w2Select l tr)
        (settle (some f) { s with line := (writePhase2 s.romId tr.needsVerify tr.buf tr.crcRx l).2 })) ∨
    (∃ buf tr', (writePhase2 s.romId tr.needsVerify tr.buf tr.crcRx l).1 = .ok buf ∧
      tr'.buf = setByte buf 0 Config.cmdCopy ∧
      RunsIn 1308 (inCommand s .w2Select l tr)
        (inCommand s .w3Select (writePhase2 s.romId tr.needsVerify tr.buf tr.crcRx l).2 tr')) := by
  obtain ⟨tr1, h1, r1⟩ := (RunsIn.refl (inCommand s .w2Select l tr)).select .w2Cmd (fun tr => tr) rfl
    fun u hu => by rw [selectDone, hu]
  obtain ⟨tr2, h2, r2⟩ := r1.send readScratchpadByte .w2Rx3
    (fun tr => { tr with buf := setByte tr.buf 0 readScratchpadByte, idx := 1 }) rfl
    fun u hu => by rw [cmdWroteByte, hu]
  obtain ⟨tr3, hbuf, hrx, hnv, r3⟩ := r2.w2Rx3 rfl
  dsimp only at hbuf hrx hnv r3
  rw [h2.buf, h1.buf] at hbuf r3
  rw [h2.crcRx, h1.crcRx] at hrx
  rw [h2.needsVerify, h1.needsVerify] at hnv
  rw [← hrx, ← hnv]
  rcases hs : readSpan 3 1 (setByte tr.buf 0 readScratchpadByte) (writeByte readScratchpadByte (selectDevice s.romId l))
    with ⟨b, l3⟩
  rw [hs] at r3 hbuf
  obtain rfl : tr3.buf = b := hbuf
  unfold writePhase2
  rw [hs]
  dsimp only
  by_cases hes : byteAt tr3.buf 3 = esFullRow
  · simp only [hes, bne_self_eq_false, Bool.false_eq_true, if_false]
    cases hv : tr3.needsVerify with
    | false =>
      exact .inr ⟨_, _, rfl, rfl, (r3.trans (RunsIn.one rfl (tick_w2CheckEs_skip rfl hes hv))).mono (by decide)⟩
    | true =>
      have r4 : RunsIn _ _ (inCommand s .w2Rx10 l3 { tr3 with idx := 4 }) :=
        r3.trans (RunsIn.one rfl (tick_w2CheckEs_verify rfl hes hv))
      obtain ⟨tr5, hbuf5, hrx5, hi5, r5⟩ := r4.w2RxData rfl
      obtain ⟨tr6, hbuf6, hrx6, r6⟩ := r5.w2RxPair hi5
      rw [hrx5] at hrx6 r6
      rw [hbuf5] at hbuf6
      dsimp only at hbuf6 hrx6 r6
      simp only [if_true]
      rw [← hbuf6, ← hrx6]
      cases hcrc : bufCrcOk tr6.buf 12 tr6.crcRx with
      | true =>
        exact .inr ⟨_, _, rfl, rfl, (r6.trans (RunsIn.one rfl (tick_w2CheckCrc_ok rfl hcrc))).mono (by decide)⟩
      | false =>
        exact .inl ⟨_, rfl, ((r6.trans (RunsIn.one rfl (tick_w2CheckCrc_bad rfl hcrc))).settled rfl).mono (by decide)⟩
  · simp only [bne_iff_ne.mpr hes, if_true]
    exact .inl ⟨_, rfl, ((r3.trans (RunsIn.one rfl (tick_w2CheckEs_bad rfl hes))).settled rfl).mono (by decide)⟩

/-- Phase 3 (rules R73, R128 to R130), on a buffer whose first byte is `CMD_COPY` already. -/
theorem runs_phase3 (buf : Vector Byte 12) (hbuf : tr.buf = setByte buf 0 Config.cmdCopy) :
    RunsIn 843 (inCommand s .w3Select l tr)
      (settle (writePhase3 s.romId buf l).1 { s with line := (writePhase3 s.romId buf l).2 }) := by
  obtain ⟨tr1, h1, r1⟩ := (RunsIn.refl (inCommand s .w3Select l tr)).select .w3Tx (fun tr => { tr with idx := 0 }) rfl
    fun u hu => by rw [selectDone, hu]
  obtain ⟨tr2, r2⟩ := r1.w3Tx rfl
  have r3 := r2.trans (RunsIn.one rfl (tick_w3Wait rfl))
  have r4 := r3.trans (runs_callReadByte _ rfl rfl)
  have r5 := r4.trans (RunsIn.one rfl (tick_w3Check rfl))
  dsimp only at r5
  rw [h1.buf, hbuf] at r5
  exact r5.settled rfl

/-- `WRITE_ROW` (rules R122 to R131): the three phases on the buffer that `W1_BUILD` stages. -/
theorem runs_writeRow (arg : BitVec 4) :
    RunsIn 3330 (inCommand s .w1Build s.line { s.tr with arg := arg })
      (settle (writeRowRun arg.toNat s).1 { s with line := (writeRowRun arg.toNat s).2 }) := by
  have r1 : RunsIn 1 _ (inCommand s .w1Select s.line { s.tr with
      arg := arg, buf := stageBuffer arg.toNat s.payload s.tr.buf, needsVerify := false }) :=
    RunsIn.one (s := inCommand s .w1Build s.line { s.tr with arg := arg }) rfl rfl
  obtain ⟨tr1, hbuf1, hrx1, hnv1, r2⟩ := runs_phase1 s s.line { s.tr with
      arg := arg, buf := stageBuffer arg.toNat s.payload s.tr.buf, needsVerify := false }
  dsimp only at hbuf1 hrx1 hnv1 r2
  rcases h1 : writePhase1 s.romId (stageBuffer arg.toNat s.payload s.tr.buf) s.tr.crcRx s.line
    with ⟨⟨nv, rx⟩, l1⟩
  rw [h1] at hrx1 hnv1 r2
  have r3 := r1.trans r2
  have h2 := runs_phase2 s l1 tr1
  rw [hbuf1, show tr1.crcRx = rx from hrx1, show tr1.needsVerify = nv from hnv1] at h2
  rcases h2' : writePhase2 s.romId nv (stageBuffer arg.toNat s.payload s.tr.buf) rx l1 with ⟨res, l2⟩
  rw [h2'] at h2
  rcases h2 with ⟨f, hf, r4⟩ | ⟨buf, tr2, hok, hbuf2, r4⟩
  · obtain rfl : res = .error f := hf
    rw [writeRowRun_failed arg.toNat s nv rx l1 l2 f h1 h2']
    exact (r3.trans r4).mono (by decide)
  · obtain rfl : res = .ok buf := hok
    rw [writeRowRun_passed arg.toNat s nv rx l1 l2 buf _ h1 h2' rfl]
    exact ((r3.trans r4).trans (runs_phase3 s l2 tr2 buf hbuf2)).mono (by decide)

/-- `DISCOVER` (rules R105 to R111). -/
theorem runs_discover :
    RunsIn 1454 (inCommand s .dZero l tr) (discoverEnd (discoverRun l).1 { s with line := (discoverRun l).2 }) := by
  have r1 : RunsIn 1 _ (inCommand s .dReset l { tr with acc := Vector.replicate 8 0, b := 0 }) :=
    RunsIn.one (s := inCommand s .dZero l tr) rfl rfl
  rcases r1.dReset with ⟨f, hf, r2⟩ | ⟨hnone, tr1, h1, r2⟩
  · rw [discoverRun_failed l _ f (Prod.ext hf rfl)]
    exact r2.mono (by decide)
  · obtain ⟨tr2, h2, r3⟩ := r2.send searchRomByte .dRdId (fun tr => tr) rfl fun u hu => by rw [cmdWroteByte, hu]
    have hacc : tr2.acc = Vector.replicate 8 0 := by rw [h2.acc, h1.acc]
    rcases r3.search (by rw [h2.b, h1.b]) with ⟨f, l3, hs, r4⟩ | ⟨l3, tr3, hs, r4⟩ <;> rw [hacc] at hs <;>
      rw [discoverRun_searched l _ l3 _ (Prod.ext hnone rfl) hs]
    · exact r4.mono (by decide)
    · exact r4.validate

/-! ### The two machines -/

/-- The operand of an instruction is the argument field it was decoded from (rules R60, R61). -/
def OperandIs (arg : BitVec 4) : Instr → Prop
  | .owWriteBit bit => bit = argBit arg
  | .readRow row => row = arg.toNat
  | .writeRow row => row = arg.toNat
  | _ => True

theorem operandIs_decodeWord (c : Byte) : OperandIs (argField c) (decodeWord c) := by
  unfold decodeWord
  split <;> simp [OperandIs, argBit]

/-- A command run event by event ends in the state that it gives as a whole (decision D32). -/
theorem runs_exec {i : Instr} {q : CmdSeq} (hq : firstState i = some q) (arg : BitVec 4) (harg : OperandIs arg i) :
    ∃ t, exec i s = .next t ∧ RunsIn 4096 (inCommand s q s.line { s.tr with arg := arg }) t := by
  have hrow : arg.toNat < 16 := arg.isLt
  cases i <;> cases hq
  case owReset => exact ⟨_, rfl, (runs_owReset s _ _).mono (by decide)⟩
  case owWriteBit bit =>
    obtain rfl : bit = argBit arg := harg
    exact ⟨_, rfl, (runs_owWriteBit s _ _).mono (by decide)⟩
  case owReadBit => exact ⟨_, rfl, (runs_owReadBit s _ _).mono (by decide)⟩
  case owWriteByte => exact ⟨_, rfl, (runs_owWriteByte s _ _).mono (by decide)⟩
  case owReadByte => exact ⟨_, rfl, (runs_owReadByte s _ _).mono (by decide)⟩
  case discover => exact ⟨_, rfl, (runs_discover s _ _).mono (by decide)⟩
  case select => exact ⟨_, rfl, (runs_selectCommand s _ _).mono (by decide)⟩
  case readRow row =>
    obtain rfl : row = arg.toNat := harg
    exact ⟨_, exec_readRow_eq s _ hrow, (runs_readRow s _ _).mono (by decide)⟩
  case writeRow row =>
    obtain rfl : row = arg.toNat := harg
    exact ⟨_, exec_writeRow_eq s _ hrow, (runs_writeRow s arg).mono (by decide)⟩

end

/-- A host instruction that starts no command is an illegal one, as a whole too (rule R62). -/
theorem exec_of_firstState_none {i : Instr} (hi : i.layer = .host) (h : firstState i = none) (s : State) :
    exec i s = .next (raise .illegalCommand s) := by
  cases i with
  | illegal0 | illegalAB | illegalCF => rfl
  | owReset | owWriteBit | owReadBit | owWriteByte | owReadByte | discover | select | readRow | writeRow => cases h
  | searchRom | matchRom | readMemory | writeScratchpad | readScratchpad | copy => cases hi

/-- An instruction of the host layer leaves the block idle (rule R32). -/
theorem Effect.idle {i : Instr} {s t : State} (he : Effect i s t) (hi : i.layer = .host) : t.busy = false := by
  cases he with
  | ended | found | read => exact settle_busy _ _
  | illegal => rfl
  | sent hbus => exact absurd hi hbus

/-- Settles O55: command by command, or IllegalCommand at once. -/
theorem sequencerRefinesEveryCommand : Obligations.SequencerRefinesEveryCommand := by
  intro c s
  refine ⟨fun hop => ?_, ?_⟩
  · obtain ⟨q, ha⟩ := accept_of_assigned s hop
    rw [ha]
    rfl
  · rcases accept_cases c s with ⟨hnone, ha⟩ | ⟨q, hq, ha⟩
    · rw [ha]
      exact ⟨_, exec_of_firstState_none (decodeWord_layer c) hnone s, rfl, (RunsIn.refl _).mono (Nat.zero_le _)⟩
    · obtain ⟨t, ht, hrun⟩ := runs_exec s hq (argField c) (operandIs_decodeWord c)
      rw [ha]
      exact ⟨t, ht, (exec_effect ht).idle (decodeWord_layer c), hrun⟩

end Sys2Proof.Machine

namespace Sys2Proof.Machine

/-! ## The address of a row -/

/-- The row number, shifted by three, fits the address (rules R42, R67). -/
theorem toNat_targetAddress {row : Nat} (hr : row < 16) : (targetAddress row).toNat = row * 8 := by
  rw [targetAddress, BitVec.toNat_shiftLeft, BitVec.toNat_ofNat, Nat.shiftLeft_eq]
  omega

/-- A field of the address, as a number. -/
theorem toNat_extractLsb'_targetAddress {row : Nat} (hr : row < 16) (start len : Nat) :
    ((targetAddress row).extractLsb' start len).toNat = row * 8 / 2 ^ start % 2 ^ len := by
  rw [BitVec.extractLsb'_toNat, toNat_targetAddress hr, Nat.shiftRight_eq_div_pow]

/-- Settles O35: every address is a multiple of 8 below 256, so its low byte is all of it. -/
theorem targetAddressOfARow : Obligations.TargetAddressOfARow := by
  intro row hr
  have hfield := toNat_extractLsb'_targetAddress hr
  have hlo : (taLo row).toNat = row * 8 := (hfield 0 8).trans (by omega)
  have hhi : taHi row = 0x00#8 := BitVec.eq_of_toNat_eq ((hfield 8 8).trans (by simp; omega))
  have hlow : (targetAddress row).extractLsb' 0 3 = 0#3 := BitVec.eq_of_toNat_eq ((hfield 0 3).trans (by simp))
  exact ⟨toNat_targetAddress hr, hlo, hhi, hlow⟩

/-! ## Rows that no word names -/

theorem wellFormed_readRow_eq_false {row : Nat} (hr : ¬ row < 16) : (Instr.readRow row).wellFormed = false :=
  decide_eq_false hr

theorem wellFormed_writeRow_eq_false {row : Nat} (hr : ¬ row < 16) : (Instr.writeRow row).wellFormed = false :=
  decide_eq_false hr

/-- A line of an ill-formed term is refused (log 25). -/
theorem expandLine_of_illFormed {i : Instr} (hi : i.wellFormed = false) :
    expandLine (.command i) = .error (.noSuchLine i) :=
  (commandLine_eq i).trans (if_neg (by simp [hi]))

/-- Settles O38: the meanings check the row themselves; the encoder and the assembler go by the check of terms. -/
theorem rowsAbove15AreRefused : Obligations.RowsAbove15AreRefused := by
  intro s row hrow
  have hr : ¬ row < 16 := Nat.not_lt.mpr hrow
  have hread := wellFormed_readRow_eq_false hr
  have hwrite := wellFormed_writeRow_eq_false hr
  exact ⟨exec_readRow_refused s hr, exec_writeRow_refused s hr, hread, hwrite, (encode_eq_none _).mpr hread,
    (encode_eq_none _).mpr hwrite, expandLine_of_illFormed hread, expandLine_of_illFormed hwrite⟩

/-! ## A device that stages, echoes and programs -/

/-- The pair that rule R74 makes is the pair that rule R100 accepts. -/
theorem crc16PairOk_invertedPair (data : List Byte) (n : Nat) :
    crc16PairOk data n (invertedPair data n).1 (invertedPair data n).2 = true := by
  simp [crc16PairOk]

/-- What `WRITE_ROW` emits when the device answers `writeAnswers` (rules R71 to R73): no payload is read back. -/
def acceptedWriteEvents (romId : Vector Byte 8) (row : Nat) (payload : Vector Byte 8) : List Event :=
  let pair := invertedPair (stagedBytes row payload) 11
  resetEvents 0 false ++ phase1Events romId (stagedBytes row payload) pair.1 pair.2
    ++ resetEvents 0 false ++ phase2Events romId [taLo row, taHi row, esFullRow]
    ++ resetEvents 0 false ++ phase3Events romId (taLo row) (taHi row) esFullRow commitOk

/-- `WRITE_ROW` succeeds against a device that stages, echoes and programs the row (rules R124, R126, R130, R131), and
leaves the line, the payload and the identifier ready for the next command. -/
theorem exec_writeRow_accepted {s : State} {row : Nat} {rest : List Bool} (hr : row < 16) (hd : s.line.drv = false)
    (h : s.line.answers = writeAnswers row s.payload ++ rest) :
    ∃ t, exec (.writeRow row) s = .next t ∧ addsEvents s t (acceptedWriteEvents s.romId row s.payload) ∧
      Reports t none ∧ t.line.drv = false ∧ t.line.answers = rest ∧ t.romId = s.romId ∧ t.payload = s.payload := by
  have hverify : false = !crc16PairOk (stagedBytes row s.payload) 11 (invertedPair (stagedBytes row s.payload) 11).1
      (invertedPair (stagedBytes row s.payload) 11).2 := by rw [crc16PairOk_invertedPair]; rfl
  have hrun := writeRowRun_scripted_passed row s false false false false _ _ (taLo row) (taHi row) esFullRow 0 0 commitOk
    (Vector.replicate 8 0) rest _ hverify rfl hd
    (by simpa [writeAnswers, presenceAnswers, byteAnswers, phase2Bytes] using h)
  exact ⟨_, exec_writeRow_of s row none _ hr hrun, addsEvents_of_trace rfl, reports_settle none _, rfl, rfl, rfl, rfl⟩

/-- `READ_ROW` returns the byte of a device that is present (rule R121). -/
theorem exec_readRow_answered {s : State} {row : Nat} {v : Byte} {rest : List Bool} (hr : row < 16)
    (hd : s.line.drv = false) (h : s.line.answers = readAnswers v ++ rest) :
    ∃ t, exec (.readRow row) s = .next t ∧ Reports t none ∧ t.dataOut = v ∧ t.romId = s.romId ∧
      t.line.answers = rest := by
  have hreset := reset_scripted_high false s.line hd (bitsLsbFirst v ++ rest)
    (by simpa [readAnswers, presenceAnswers, byteAnswers] using h)
  have hrun := readRowRun_scripted s.romId row s.line v rest (by rw [hreset])
  exact ⟨_, exec_readRow_of s row v _ hr hrun, reports_settle none _, rfl, rfl, rfl⟩

/-- Settles O44: each write leaves the released line, the payload and the identifier that the next command needs. -/
theorem writeTwiceThenReadBack : Obligations.WriteTwiceThenReadBack := by
  intro s row rest hr hd h
  rw [List.append_assoc, List.append_assoc] at h
  obtain ⟨t1, hexec1, hevents1, hreport1, hdrv1, hanswers1, hrom1, hpayload1⟩ := exec_writeRow_accepted hr hd h
  rw [← hpayload1] at hanswers1
  obtain ⟨t2, hexec2, hevents2, hreport2, hdrv2, hanswers2, hrom2, -⟩ := exec_writeRow_accepted hr hdrv1 hanswers1
  rw [hrom1, hpayload1] at hevents2
  rw [hpayload1] at hanswers2
  obtain ⟨t3, hexec3, hreport3, hdata3, hrom3, hanswers3⟩ := exec_readRow_answered hr hdrv2 hanswers2
  exact ⟨t1, t2, t3, _, hexec1, hexec2, hexec3, hevents1, hevents2, hreport1, hreport2, hreport3, hdata3,
    (hrom3.trans hrom2).trans hrom1, hanswers3⟩

end Sys2Proof.Machine

namespace Sys2Proof

/-! ## The fields of a command word -/

@[simp] theorem opField_hostWord (op arg : BitVec 4) : opField (hostWord op arg) = op :=
  BitVec.extractLsb'_append_eq_left

@[simp] theorem argField_hostWord (op arg : BitVec 4) : argField (hostWord op arg) = arg :=
  BitVec.extractLsb'_append_eq_right

/-- A word is its two fields (rule R60). -/
theorem hostWord_fields (w : Byte) : hostWord (opField w) (argField w) = w := by
  have h : hostWord (opField w) (argField w) = w.extractLsb' 0 8 :=
    BitVec.extractLsb'_append_extractLsb'_eq_extractLsb' rfl
  rw [h, BitVec.extractLsb'_eq_self]

theorem toNat_argField (w : Byte) : (argField w).toNat = w.toNat % 16 := by
  rw [argField, BitVec.extractLsb'_toNat, Nat.shiftRight_zero]

theorem getLsbD_argField_zero (w : Byte) : (argField w).getLsbD 0 = w.getLsbD 0 := by
  simp [argField]

/-- A mask that covers bits of the operation field alone does not see the argument. -/
theorem and_opMask (w : Byte) (mask : BitVec 4) : w &&& hostWord mask 0 = hostWord (opField w &&& mask) 0 := by
  conv => lhs; rw [← hostWord_fields w]
  rw [hostWord, hostWord, hostWord, BitVec.and_append]
  exact congrArg _ BitVec.and_zero

/-! ## The decoder, by the operation field -/

section
variable {w : Byte}

theorem decodeWord_owWriteBit (h : opField w = 0x2) : decodeWord w = .owWriteBit (w.getLsbD 0) := by
  rw [decodeWord, h, getLsbD_argField_zero]; rfl

theorem decodeWord_readRow (h : opField w = 0x8) : decodeWord w = .readRow (argField w).toNat := by
  rw [decodeWord, h]; rfl

theorem decodeWord_writeRow (h : opField w = 0x9) : decodeWord w = .writeRow (argField w).toNat := by
  rw [decodeWord, h]; rfl

theorem decodeWord_illegal0 (h : opField w = 0x0) : decodeWord w = .illegal0 w := by rw [decodeWord, h]; rfl

theorem decodeWord_illegalAB (h : opField w = 0xA ∨ opField w = 0xB) : decodeWord w = .illegalAB w := by
  rcases h with h | h <;> rw [decodeWord, h] <;> rfl

theorem decodeWord_illegalCF (h : 0xC ≤ opField w) : decodeWord w = .illegalCF w := by
  have hlo : 12 ≤ (opField w).toNat := h
  have hhi : (opField w).toNat < 16 := (opField w).isLt
  interval_cases hop : (opField w).toNat <;> rw [decodeWord, hop] <;> rfl

/-- The mnemonic is a matter of the operation field alone (rule R61). -/
theorem mnemonic_decodeWord_congr {v : Byte} (h : opField w = opField v) :
    (decodeWord w).mnemonic = (decodeWord v).mnemonic := by
  rw [decodeWord, decodeWord, h]
  split <;> rfl

/-- The commands without an operand are decoded from the operation field alone (rule R63). -/
theorem decodeWord_noOperand (h : opField w ∈ [0x1#4, 0x3#4, 0x4#4, 0x5#4, 0x6#4, 0x7#4]) :
    decodeWord w = decodeWord (hostWord (opField w) 0) := by
  rw [decodeWord, decodeWord, opField_hostWord]
  generalize opField w = op at h ⊢
  fin_cases h <;> rfl

end

/-! ## Decode of encode -/

/-- What a mask of the operation field says of that field. -/
theorem opField_and_of_masked {w : Byte} {mask value : BitVec 4} (h : w &&& hostWord mask 0 = hostWord value 0) :
    opField w &&& mask = value := by
  rw [and_opMask] at h
  simpa using congrArg opField h

/-- A well-formed illegal word lies in its row by its operation field (rule R62). -/
theorem opField_of_wellFormed_illegal0 {w : Byte} (h : (Instr.illegal0 w).wellFormed = true) : opField w = 0x0 := by
  have hop : opField w &&& 0xF = 0x0 := opField_and_of_masked (eq_of_beq h)
  generalize opField w = op at hop ⊢
  revert op; decide

theorem opField_of_wellFormed_illegalAB {w : Byte} (h : (Instr.illegalAB w).wellFormed = true) :
    opField w = 0xA ∨ opField w = 0xB := by
  have hop : opField w &&& 0xE = 0xA := opField_and_of_masked (eq_of_beq h)
  generalize opField w = op at hop ⊢
  revert op; decide

theorem opField_of_wellFormed_illegalCF {w : Byte} (h : (Instr.illegalCF w).wellFormed = true) :
    0xC ≤ opField w := by
  have hop : opField w &&& 0xC = 0xC := opField_and_of_masked (eq_of_beq h)
  generalize opField w = op at hop ⊢
  revert op; decide

/-- The argument field of a row command's word names its row (rules R42, R60). -/
theorem toNat_argField_row (op : BitVec 4) {row : Nat} (hr : row < 16) :
    (argField (hostWord op (BitVec.ofNat 4 row))).toNat = row := by
  rw [argField_hostWord, BitVec.toNat_ofNat, Nat.mod_eq_of_lt hr]

/-- At its position a bus command byte is read as its bus command (decision D30). -/
theorem decodeBus_busByte (p : BusPosition) : decodeBus p (busByte p) = .ok (busInstr p) := if_pos rfl

/-- The byte of a well-formed instruction is read as that instruction on its own layer. -/
theorem decodeAt_byteOf (i : Instr) (h : i.wellFormed = true) : decodeAt i.layer (byteOf i) = .ok i := by
  cases i with
  | owReset | owReadBit | owWriteByte | owReadByte | discover | select => rfl
  | owWriteBit bit => cases bit <;> rfl
  | readRow row =>
    have hrow := toNat_argField_row 0x8 (of_decide_eq_true h)
    exact congrArg Except.ok ((decodeWord_readRow (opField_hostWord _ _)).trans (congrArg Instr.readRow hrow))
  | writeRow row =>
    have hrow := toNat_argField_row 0x9 (of_decide_eq_true h)
    exact congrArg Except.ok ((decodeWord_writeRow (opField_hostWord _ _)).trans (congrArg Instr.writeRow hrow))
  | illegal0 w => exact congrArg Except.ok (decodeWord_illegal0 (opField_of_wellFormed_illegal0 h))
  | illegalAB w => exact congrArg Except.ok (decodeWord_illegalAB (opField_of_wellFormed_illegalAB h))
  | illegalCF w => exact congrArg Except.ok (decodeWord_illegalCF (opField_of_wellFormed_illegalCF h))
  | searchRom => exact decodeBus_busByte .dCmd
  | matchRom => exact decodeBus_busByte .sCmd
  | readMemory => exact decodeBus_busByte .rdCmd
  | writeScratchpad => exact decodeBus_busByte .w1Tx0
  | readScratchpad => exact decodeBus_busByte .w2Cmd
  | copy => exact decodeBus_busByte .w3Tx0

/-- Settles O3, instruction by instruction. -/
theorem decodeOfEncodeIsTheInstruction : Obligations.DecodeOfEncodeIsTheInstruction := fun i =>
  ⟨fun h => ⟨byteOf i, encode_of_wellFormed i h, decodeAt_byteOf i h⟩, (encode_eq_none i).mpr⟩

/-! ## The opcode map -/

/-- Settles O1: each word is decoded. -/
theorem wordsWrittenFromTheTablesDecode : Obligations.WordsWrittenFromTheTablesDecode := by
  unfold Obligations.WordsWrittenFromTheTablesDecode
  decide

/-- Every mask of the host table covers bits of the operation field alone (rule R61). -/
theorem hostTable_mask : ∀ r ∈ hostTable, r.mask = hostWord (opField r.mask) 0 := by decide

/-- A row of the host table is selected by the operation field alone. -/
theorem selects_congr {w v : Byte} (h : opField w = opField v) {r : TableRow} (hr : r ∈ hostTable) :
    r.selects w = r.selects v := by
  rw [TableRow.selects, TableRow.selects, hostTable_mask r hr, and_opMask, and_opMask, h]

/-- Each operation field selects one row, that of the instruction it decodes to: 16 cases. -/
theorem hostTable_oneRow_of_op : ∀ op : BitVec 4,
    (hostTable.filter fun r => r.selects (hostWord op 0)).map TableRow.mnemonic
      = [(decodeWord (hostWord op 0)).mnemonic] := by decide

/-- Settles O2: neither the table nor the mnemonic looks at the argument, so the 16 operation fields are all cases. -/
theorem everyCommandWordSelectsOneRow : Obligations.EveryCommandWordSelectsOneRow := by
  intro w
  have hop : opField w = opField (hostWord (opField w) 0) := (opField_hostWord _ _).symm
  refine ⟨?_, decodeWord_owWriteBit, fun h => ?_, fun h => ?_⟩
  · rw [List.filter_congr fun r hr => selects_congr hop hr, mnemonic_decodeWord_congr hop]
    exact hostTable_oneRow_of_op _
  · rw [decodeWord_readRow h, toNat_argField]
  · rw [decodeWord_writeRow h, toNat_argField]

/-- A command without an operand is encoded with a zero argument: six cases (rule R63). -/
theorem encode_decodeWord_noOperand : ∀ op ∈ [0x1#4, 0x3#4, 0x4#4, 0x5#4, 0x6#4, 0x7#4],
    encode (decodeWord (hostWord op 0)) = some (op ++ 0#4) := by decide

/-- Settles O4: the decoder drops the ignored bits, so the encoder cannot give them back. -/
theorem ignoredArgumentBitsSelectTheSameCommand : Obligations.IgnoredArgumentBitsSelectTheSameCommand := by
  intro w v hop
  refine ⟨fun h => ?_, fun h hbit => ?_⟩
  · have hw := decodeWord_noOperand h
    rw [hop] at h hw
    rw [hw, decodeWord_noOperand h, hop]
    exact ⟨rfl, encode_decodeWord_noOperand _ h⟩
  · rw [decodeWord_owWriteBit h, decodeWord_owWriteBit (hop ▸ h), h, hbit]
    cases v.getLsbD 0 <;> exact ⟨rfl, rfl⟩

/-! ## The assembler's lines -/

namespace Machine

/-- A line that rule R75 has and some word encodes stands for the write of that word (rule R75). -/
theorem expandLine_command {i : Instr} (hw : i.wellFormed = true) (hl : hasLine i = true) :
    expandLine (.command i) = .ok [.command (byteOf i)] :=
  (commandLine_eq i).trans (if_pos ⟨hw, hl⟩)

/-- A line that rule R75 does not have is refused (log 25). -/
theorem expandLine_of_noLine {i : Instr} (hl : hasLine i = false) :
    expandLine (.command i) = .error (.noSuchLine i) :=
  (commandLine_eq i).trans (if_neg (by simp [hl]))

/-- No bus command has a line (rule R75). -/
theorem hasLine_of_bus {i : Instr} (h : i.layer ≠ .host) : hasLine i = false := by
  cases i with
  | searchRom | matchRom | readMemory | writeScratchpad | readScratchpad | copy => rfl
  | _ => exact absurd rfl h

/-- The row in the low bits of its command byte (rules R60, R75): 16 cases. -/
theorem byteOf_row {row : Nat} (hr : row < 16) : byteOf (.readRow row) = 0x80#8 ||| BitVec.ofNat 8 row ∧
    byteOf (.writeRow row) = 0x90#8 ||| BitVec.ofNat 8 row :=
  Laws.InItsTableRow.row_cases (P := fun r => byteOf (.readRow r) = 0x80#8 ||| BitVec.ofNat 8 r ∧
    byteOf (.writeRow r) = 0x90#8 ||| BitVec.ofNat 8 r) (by decide) row hr

/-- Settles O59, line by line. -/
theorem assemblerLinesOfTheTable : Obligations.AssemblerLinesOfTheTable := by
  refine ⟨rfl, fun b => ?_, rfl, rfl, rfl, rfl, rfl, fun row hr => ?_, fun row hr => ?_, fun w => ?_,
    fun i hi => expandLine_of_noLine (hasLine_of_bus hi), fun _ _ => ⟨rfl, rfl⟩⟩
  · cases b <;> rfl
  · obtain ⟨hread, hwrite⟩ := byteOf_row hr
    rw [← hread, ← hwrite]
    exact ⟨expandLine_command (decide_eq_true hr) rfl, expandLine_command (decide_eq_true hr) rfl⟩
  · have hr : ¬ row < 16 := Nat.not_lt.mpr hr
    exact ⟨expandLine_of_illFormed (wellFormed_readRow_eq_false hr),
      expandLine_of_illFormed (wellFormed_writeRow_eq_false hr)⟩
  · exact ⟨expandLine_of_noLine rfl, expandLine_of_noLine rfl, expandLine_of_noLine rfl⟩

/-! ## Words that name no command -/

/-- A word whose operation field is unassigned is one of the three illegal rows (rule R62). -/
theorem decodeWord_unassigned {w : Byte} (h : opField w = 0x0#4 ∨ 0xA#4 ≤ opField w) :
    decodeWord w = .illegal0 w ∨ decodeWord w = .illegalAB w ∨ decodeWord w = .illegalCF w := by
  have hop : opField w = 0x0 ∨ (opField w = 0xA ∨ opField w = 0xB) ∨ 0xC ≤ opField w := by
    generalize opField w = op at h ⊢
    revert op; decide
  exact hop.imp decodeWord_illegal0 (Or.imp decodeWord_illegalAB decodeWord_illegalCF)

theorem firstState_of_unassigned {w : Byte} (h : opField w = 0x0#4 ∨ 0xA#4 ≤ opField w) :
    firstState (decodeWord w) = none := by
  rcases decodeWord_unassigned h with hd | hd | hd <;> rw [hd] <;> rfl

/-- Settles O14: the three rows raise IllegalCommand, and the unassigned words decode to them. -/
theorem unassignedWordsAreIllegalCommands : Obligations.UnassignedWordsAreIllegalCommands := by
  refine fun s w => ⟨⟨_, rfl, rfl, rfl, rfl, rfl⟩, fun h => ?_⟩
  have hnone := firstState_of_unassigned h
  exact ⟨exec_of_firstState_none (decodeWord_layer w) hnone s, by rw [accept, hnone]; rfl⟩

end Machine

end Sys2Proof

namespace Sys2Proof.Machine

/-! ## The bus command bytes -/

/-- Every bus command sends its own byte (rule R64). -/
theorem exec_of_bus {i : Instr} (hi : i.layer ≠ .host) (s : State) :
    exec i s = .next (sendBusByte (byteOf i) s) := by
  cases i with
  | searchRom | matchRom | readMemory | writeScratchpad | readScratchpad | copy => rfl
  | _ => exact absurd rfl hi

theorem wellFormed_of_bus {i : Instr} (hi : i.layer ≠ .host) : i.wellFormed = true := by
  cases i with
  | searchRom | matchRom | readMemory | writeScratchpad | readScratchpad | copy => rfl
  | _ => exact absurd rfl hi

/-- A bus command byte is eight write slots on the line (rule R90). -/
theorem addsEvents_sendBusByte (v : Byte) (s : State) : addsEvents s (sendBusByte v s) (byteWriteSlots v) :=
  addsEvents_of_trace (by rw [sendBusByte_line, writeByte_eq])

/-- Settles O45: the listed rows are the bus commands with their bytes, and each sends its byte. -/
theorem busCommandBytesGoOut : Obligations.BusCommandBytesGoOut := by
  intro s i b hmem
  have hrow : i.layer ≠ .host ∧ byteOf i = b := by
    simp only [List.mem_cons, Prod.mk.injEq, List.not_mem_nil, or_false] at hmem
    rcases hmem with ⟨rfl, rfl⟩ | ⟨rfl, rfl⟩ | ⟨rfl, rfl⟩ | ⟨rfl, rfl⟩ | ⟨rfl, rfl⟩ | ⟨rfl, rfl⟩ <;>
      exact ⟨by simp [Instr.layer], rfl⟩
  obtain ⟨hi, rfl⟩ := hrow
  refine ⟨encode_of_wellFormed i (wellFormed_of_bus hi), _, exec_of_bus hi s, addsEvents_sendBusByte _ s, ?_, ?_,
    rfl, rfl, rfl, rfl, rfl, rfl, rfl, rfl, rfl, rfl⟩ <;> rw [sendBusByte_line, writeByte_eq]

/-! ## The bus commands at their positions -/

/-- A byte that the innermost running level sends: what is left is that of `sendBusByte`, with the byte level ended. -/
theorem runs_sendBusByte {s : State} {v : Byte} (hbusy : s.busy = true) (hbyte : s.seq.byte = none)
    (hbit : s.seq.bit = none) (ht : tick s = callWriteByte v s) : RunsIn 41 s (byteWritten (sendBusByte v s)) := by
  have hseq : { s.seq with byte := none, bit := none } = s.seq := by rw [← hbyte, ← hbit]
  have h := runs_callWriteByte v s hbusy ht
  rw [hseq] at h
  exact h

/-- A byte that the command level sends from one of its states goes on as that state says (rules R105, R121, R122). -/
theorem runs_sendAtCmd {s : State} {v : Byte} {u : State} (hbusy : s.busy = true) (hbyte : s.seq.byte = none)
    (hbit : s.seq.bit = none) (hsel : s.seq.sel = none) (ht : cmdTick s = callWriteByte v s)
    (hdone : cmdWroteByte (sendBusByte v s) = u) : RunsIn 41 s u := by
  have h := runs_sendBusByte hbusy hbyte hbit ((tick_cmd hbit hbyte hsel).trans ht)
  rwa [byteWritten, sendBusByte_seq, hsel, hdone] at h

/-- Settles O57, position by position: the byte each state sends, and the state that follows. -/
theorem busCommandsAtTheirPositions : Obligations.BusCommandsAtTheirPositions := by
  intro s hbusy hbyte hbit
  refine ⟨fun hcmd hsel => ⟨_, rfl, ?_⟩, fun hsel => ⟨_, rfl, ?_⟩, fun hcmd hsel => ⟨_, rfl, ?_⟩,
    fun hcmd hsel hidx hbuf => ⟨_, rfl, ?_⟩, fun hcmd hsel => ⟨_, rfl, ?_⟩, fun hcmd hsel hidx hbuf => ⟨_, rfl, ?_⟩⟩
  · exact runs_sendAtCmd hbusy hbyte hbit hsel (by rw [cmdTick, hcmd]) (by rw [cmdWroteByte, sendBusByte_seq, hcmd])
  · have h := runs_sendBusByte (v := matchRomByte) hbusy hbyte hbit ((tick_sel hbit hbyte hsel).trans rfl)
    rwa [byteWritten, sendBusByte_seq, hsel] at h
  · exact runs_sendAtCmd hbusy hbyte hbit hsel (by rw [cmdTick, hcmd]) (by rw [cmdWroteByte, sendBusByte_seq, hcmd])
  · refine runs_sendAtCmd (v := writeScratchpadByte) hbusy hbyte hbit hsel ?_ ?_
    · rw [cmdTick, hcmd, hidx, ← hbuf]; rfl
    · rw [cmdWroteByte, sendBusByte_seq, hcmd, sendBusByte_tr, hidx]; rfl
  · refine runs_sendAtCmd hbusy hbyte hbit hsel (by rw [cmdTick, hcmd]) ?_
    rw [cmdWroteByte, sendBusByte_seq, hcmd, setByte_eq_set _ _ _ (by decide)]; rfl
  · refine runs_sendAtCmd (v := Config.cmdCopy) hbusy hbyte hbit hsel ?_ ?_
    · rw [cmdTick, hcmd, hidx, ← hbuf]; rfl
    · rw [cmdWroteByte, sendBusByte_seq, hcmd, sendBusByte_tr, hidx]; rfl

/-! ## The read-memory frame -/

/-- The events of `READ_ROW` after its `reset()`, with the address bytes written out (rules R42, R70). -/
theorem readRowEvents_eq (romId : Vector Byte 8) {row : Nat} (hr : row < 16) (v : Byte) :
    readRowEvents romId row v = selectBytes romId ++ byteWriteSlots 0xF0#8
      ++ byteWriteSlots (BitVec.ofNat 8 (row * 8)) ++ byteWriteSlots 0x00#8 ++ byteReadSlots v := by
  obtain ⟨-, hlo, hhi, -⟩ := targetAddressOfARow row hr
  rw [readRowEvents, hhi, show taLo row = BitVec.ofNat 8 (row * 8) by rw [← hlo, BitVec.ofNat_toNat, BitVec.setWidth_eq]]
  rfl

/-- Settles O36: the reset, the frame and the byte of the scripted answers. -/
theorem readRowSendsItsFrame : Obligations.ReadRowSendsItsFrame := by
  intro s row k p v rest hr hk hd h
  have hreset := reset_scripted k hk p s.line hd (bitsLsbFirst v ++ rest) (by simpa [byteAnswers] using h)
  have hrun := readRowRun_scripted s.romId row s.line v rest (by rw [hreset])
  rw [hreset] at hrun
  refine ⟨_, exec_readRow_of s row v _ hr hrun, addsEvents_of_trace ?_, rfl, reports_settle none _, rfl, rfl, rfl,
    rfl, rfl, rfl, rfl⟩
  rw [settle_line, readRowEvents_eq s.romId hr v]
  simp only [List.reverse_append, List.append_assoc]

/-! ## The pseudo-instructions -/

/-- A step that goes on, and then the others. -/
theorem stepsFrom_succ {s t : State} (h : step s = .next t) (k : Nat) : stepsFrom (k + 1) s = stepsFrom k t := by
  rw [stepsFrom, h]

theorem stepsFrom_one (s : State) : stepsFrom 1 s = step s := by
  rw [stepsFrom]
  cases step s <;> rfl

/-- The host write that loads byte `i` of the payload (rules R12, R76). -/
def payloadWrite (bytes : Vector Byte 8) (i : Nat) : Input := .write (BitVec.ofNat 8 (0x08 + i)) (byteAt bytes i)

/-- Loading the bytes from index `i` on completes a payload whose bytes below `i` are loaded. -/
theorem stepsFrom_payloadWrites {bytes : Vector Byte 8} {rest : List Input} (n : Nat) {i : Nat} (hi : i + n = 8)
    {s : State} (hbusy : s.busy = false) (hloaded : AgreeBelow i s.payload bytes)
    (h : s.inputs = (List.range' i n).map (payloadWrite bytes) ++ rest) :
    stepsFrom n s = .next { s with payload := bytes, inputs := rest } := by
  induction n generalizing i s with
  | zero =>
    obtain rfl : i = 8 := hi
    rw [← hloaded.eq, ← show s.inputs = rest from h]
    rfl
  | succ n ih =>
    have hi8 : i < 8 := by omega
    have hstep := step_write (s := s) h
    rw [writeReg_payload (by exact hbusy) _ ⟨i, hi8⟩] at hstep
    have hagree := (hloaded.setByte (Nat.le_refl i) hi8 (byteAt bytes i)).mono (Nat.le_max_right i (i + 1))
    rw [setByte_byteAt, setByte_eq_set _ _ _ hi8] at hagree
    rw [stepsFrom_succ hstep]
    exact ih (by omega) hbusy hagree rfl

/-- Host reads give the host the values of their registers and change nothing (rules R33, R54). -/
theorem stepsFrom_reads {rest : List Input} (regs : List Byte) {s : State} (h : s.inputs = regs.map .read ++ rest) :
    stepsFrom regs.length s
      = .next { s with readLog := s.readLog ++ regs.map (fun reg => readReg reg s), inputs := rest } := by
  induction regs generalizing s with
  | nil => rw [List.map_nil, List.append_nil, ← show s.inputs = rest from h]; rfl
  | cons reg regs ih =>
    rw [List.length_cons, stepsFrom_succ (step_read h), ih rfl, List.map_cons, List.append_cons]
    rfl

/-- The registers of `ROM_ID` read as its bytes (rule R33). -/
theorem map_readReg_romId (s : State) :
    ((List.range 8).map fun i => BitVec.ofNat 8 (0x10 + i)).map (fun reg => readReg reg s) = s.romId.toList := by
  rw [toList_eq_map_byteAt, List.map_map]
  refine List.map_congr_left fun i hi => ?_
  have hi8 : i < 8 := List.mem_range.mp hi
  exact (readReg_romId s ⟨i, hi8⟩).trans (byteAt_of_lt _ _ hi8).symm

/-- Settles O8, one pseudo-instruction after the other. -/
theorem pseudoInstructionsDoWhatTheyExpandTo : Obligations.PseudoInstructionsDoWhatTheyExpandTo := by
  intro s bytes v rest hbusy
  refine ⟨⟨_, rfl, fun h => ?_⟩, ⟨_, rfl, fun h => ?_⟩, ⟨_, rfl, fun h => ?_⟩, ⟨_, rfl, fun h => ?_⟩⟩
  · exact stepsFrom_payloadWrites 8 (Nat.zero_add 8) hbusy (fun j hj => absurd hj (Nat.not_lt_zero j)) h
  · have hstep := step_write h
    rw [writeReg_dataIn (by exact hbusy)] at hstep
    rw [stepsFrom_succ hstep, stepsFrom_one]
    exact step_command_idle (c := byteOf .owWriteByte) (rest := rest) rfl hbusy
  · have hread := stepsFrom_reads ((List.range 8).map fun i => BitVec.ofNat 8 (0x10 + i)) (rest := rest) (s := s) h
    rwa [map_readReg_romId] at hread
  · exact stepsFrom_reads [0x01#8] h

end Sys2Proof.Machine

namespace Sys2Proof.Machine

/-! ## How a command ends -/

/-- The end of a command of which only the line is left to say: it adds the line's new events, reports, and keeps every
data register and the host's side (rules R17 to R19, R24, R145). -/
theorem settle_withLine (cause : Option Failure) (s : State) {l : Line} {es : List Event}
    (htrace : l.trace = es.reverse ++ s.line.trace) :
    addsEvents s (settle cause { s with line := l }) es ∧ Reports (settle cause { s with line := l }) cause ∧
      (settle cause { s with line := l }).line = l ∧ (settle cause { s with line := l }).romId = s.romId ∧
      (settle cause { s with line := l }).dataOut = s.dataOut ∧ HostSideKept s (settle cause { s with line := l }) :=
  ⟨addsEvents_of_trace (by rwa [settle_line]), reports_settle cause _, settle_line _ cause, settle_romId _ cause,
    settle_dataOut _ cause, settle_payload _ cause, settle_dataIn _ cause, settle_inputs _ cause,
    settle_readLog _ cause⟩

/-! ## `OW_RESET` -/

/-- `OW_RESET` as a whole, from the outcome of its `reset()` and the events it emitted (rule R85). -/
theorem exec_owReset_of {s : State} {cause : Option Failure} {l : Line} {es : List Event}
    (hreset : reset s.line = (cause, l)) (htrace : l.trace = es.reverse ++ s.line.trace) :
    ∃ t, exec .owReset s = .next t ∧ addsEvents s t es ∧ Reports t cause ∧ t.line = l ∧ t.romId = s.romId ∧
      t.dataOut = s.dataOut ∧ HostSideKept s t := by
  have hexec : exec .owReset s = .next (settle cause { s with line := l }) := by
    rw [show exec .owReset s = execOwReset s from rfl, execOwReset, hreset]
  exact ⟨_, hexec, settle_withLine cause s htrace⟩

/-- Settles O17: the `reset()` on `k` scripted low samples, a high one and a presence sample. -/
theorem resetPulseAfterTheLineFloatsHigh : Obligations.ResetPulseAfterTheLineFloatsHigh := by
  intro s k p rest hk hd h
  obtain ⟨t, hexec, hadds, hrep, hline, hframe⟩ := exec_owReset_of (reset_scripted k hk p s.line hd rest h) rfl
  exact ⟨t, hexec, hadds, hrep, by rw [hline], by rw [hline], hframe⟩

/-- Settles O18: the `reset()` on 126 scripted low samples, whether the line was released or not. -/
theorem busTimeoutAfter125Waits : Obligations.BusTimeoutAfter125Waits := by
  intro s rest h
  obtain ⟨t, hexec, hadds, hrep, hline, hframe⟩ := exec_owReset_of (reset_scripted_low s.line rest h) rfl
  exact ⟨t, hexec, hadds, hrep, by rw [hline], by rw [hline], hframe⟩

/-- Settles O19, by the two ways a `reset()` can go: a pulse after at most 125 waits, or the timeout. -/
theorem owResetFollowsItsRule : Obligations.OwResetFollowsItsRule := by
  intro s
  rcases reset_cases s.line with ⟨k, p, hk, hcause, hdrv, htrace⟩ | ⟨hcause, hdrv, htrace⟩
  · obtain ⟨t, hexec, hadds, hrep, hline, hframe⟩ := exec_owReset_of (Prod.ext hcause rfl) htrace
    exact ⟨t, _, hexec, hadds, .inr ⟨k, p, hk, rfl, hrep, by rw [hline, hdrv]⟩, hframe⟩
  · obtain ⟨t, hexec, hadds, hrep, hline, hframe⟩ := exec_owReset_of (Prod.ext hcause rfl) htrace
    exact ⟨t, _, hexec, hadds, .inl ⟨rfl, hrep, by rw [hline, hdrv]⟩, hframe⟩

/-! ## `OW_WRITE_BIT` and `OW_READ_BIT` -/

/-- The events of a write slot with their times written out (rules R65, R83). -/
theorem writeSlot_eq (b : Bool) : writeSlot b = if b then [.drive0, .delayUs 10, .release, .delayUs 55]
    else [.drive0, .delayUs 65, .release, .delayUs 5] := by
  cases b <;> rfl

/-- Settles O15: the operand from the decoder, the slot from `writeBit`. -/
theorem writeBitEmitsItsSlot : Obligations.WriteBitEmitsItsSlot := by
  refine ⟨fun w => decodeWord_owWriteBit, fun s b => ?_⟩
  have hwrite := writeBit_eq b s.line
  obtain ⟨hadds, hrep, hline, hframe⟩ := settle_withLine none s (congrArg Line.trace hwrite)
  rw [writeSlot_eq] at hadds
  exact ⟨_, rfl, hadds, hrep, by rw [hline, hwrite], by rw [hline, hwrite], hframe⟩

/-- Settles O16: the slot and its sample from `readBit`, the scripted answer being the sample. -/
theorem readBitReturnsTheSample : Obligations.ReadBitReturnsTheSample := by
  intro s
  have hread := readBit_line s.line
  obtain ⟨hadds, hrep, hline, hrom, hout, hhost⟩ :=
    settle_withLine none { s with dataOut := zext8 (readBit s.line).1 } (congrArg Line.trace hread)
  refine ⟨(readBit s.line).1, _, rfl, hadds, hout, hrep, by rw [hline, hread], fun a rest h => ?_, hrom, hhost⟩
  rw [settle_line, readBit_scripted s.line a rest h]
  exact ⟨rfl, rfl⟩

end Sys2Proof.Machine

namespace Sys2Proof.Machine

/-! ## `OW_WRITE_BYTE` and `OW_READ_BYTE` -/

/-- The write slots of a byte with their times written out, bit 0 first (rules R65, R83, R90). -/
theorem byteWriteSlots_eq (v : Byte) :
    byteWriteSlots v = (List.range 8).flatMap fun i =>
      if v.getLsbD i then [.drive0, .delayUs 10, .release, .delayUs 55]
      else [.drive0, .delayUs 65, .release, .delayUs 5] := by
  rw [byteWriteSlots, bitsLsbFirst, List.flatMap_map]
  exact congrArg (List.range 8).flatMap (funext fun i => writeSlot_eq (v.getLsbD i))

/-- Entry `i` of a byte's bits in wire order is bit `i` (rule R43). -/
theorem bitsLsbFirst_getD (v : Byte) {i : Nat} (hi : i < 8) : (bitsLsbFirst v).getD i false = v.getLsbD i := by
  simp [bitsLsbFirst, hi]

/-- Settles O20: the eight slots from `writeByte`, with their times written out. -/
theorem writeByteSendsDataInLowBitFirst : Obligations.WriteByteSendsDataInLowBitFirst := by
  intro s
  have hwrite := writeByte_eq s.dataIn s.line
  obtain ⟨hadds, hrep, hline, hframe⟩ := settle_withLine none s (congrArg Line.trace hwrite)
  rw [byteWriteSlots_eq] at hadds
  exact ⟨_, rfl, hadds, hrep, by rw [hline, hwrite], by rw [hline, hwrite], hframe⟩

/-- Settles O21: the samples are the bits of the byte that `readByte` returns, in wire order. -/
theorem readByteAssemblesLowBitFirst : Obligations.ReadByteAssemblesLowBitFirst := by
  intro s
  have hread := readByte_line s.line
  obtain ⟨hadds, hrep, hline, hrom, hout, hhost⟩ :=
    settle_withLine none { s with dataOut := (readByte s.line).1 } (congrArg Line.trace hread)
  have hscripted (as rest : List Bool) (hlen : as.length = 8) (h : s.line.answers = as ++ rest) :
      bitsLsbFirst (readByte s.line).1 = as ∧ (readByte s.line).2.answers = rest := by
    refine ⟨(readByte_scripted_bits as hlen s.line rest h).2, ?_⟩
    rw [hread, h, List.drop_left' hlen]
  refine ⟨bitsLsbFirst (readByte s.line).1, _, rfl, bitsLsbFirst_length _, hadds, fun i hi => ?_,
    hscripted, hrep, by rw [hline, hread], hrom, hhost⟩
  rw [bitsLsbFirst_getD _ hi, settle_dataOut]

end Sys2Proof.Machine

namespace Sys2Proof.Machine

/-! ## The CRC engine: eight shifts

A shift is linear over XOR, so a whole CRC step is; and a shift of an even value is a plain shift. The laws of rule R101
follow from these two facts. -/

theorem iterate_fixed {α : Type} {f : α → α} {x : α} (hx : f x = x) (n : Nat) : iterate f n x = x := by
  induction n with
  | zero => rfl
  | succ n ih => rw [iterate, hx, ih]

theorem iterate_xor {w : Nat} {f : BitVec w → BitVec w} (hf : ∀ a b, f (a ^^^ b) = f a ^^^ f b) (n : Nat)
    (a b : BitVec w) : iterate f n (a ^^^ b) = iterate f n a ^^^ iterate f n b := by
  induction n generalizing a b with
  | zero => rfl
  | succ n ih => rw [iterate, iterate, iterate, hf, ih]

theorem crc8Shift_zero : crc8Shift 0#8 = 0#8 := rfl

theorem crc16Shift_zero : crc16Shift 0#16 = 0#16 := rfl

/-- The two branches as one XOR, whose operand the low bit selects. -/
theorem crc16Shift_eq (c : BitVec 16) :
    crc16Shift c = (c >>> 1) ^^^ (if c.getLsbD 0 then crc16Poly else 0#16) := by
  rw [crc16Shift]
  split
  · rfl
  · exact BitVec.xor_zero.symm

theorem crc16Shift_of_even {c : BitVec 16} (h : c.getLsbD 0 = false) : crc16Shift c = c >>> 1 := by
  rw [crc16Shift, h]
  rfl

/-- The operand that the low bit selects is linear in that bit. -/
theorem crc16Shift_xor (a b : BitVec 16) : crc16Shift (a ^^^ b) = crc16Shift a ^^^ crc16Shift b := by
  have hsel (p q : Bool) : (if p ^^ q then crc16Poly else 0#16) =
      (if p then crc16Poly else 0#16) ^^^ (if q then crc16Poly else 0#16) := by
    cases p <;> cases q <;> rfl
  rw [crc16Shift_eq, crc16Shift_eq, crc16Shift_eq, BitVec.getLsbD_xor, hsel, BitVec.ushiftRight_xor_distrib]
  ac_rfl

/-- While the low bits are 0, no polynomial is XORed in. -/
theorem iterate_crc16Shift_of_low_zero (n : Nat) (c : BitVec 16) (h : ∀ i < n, c.getLsbD i = false) :
    iterate crc16Shift n c = c >>> n := by
  induction n generalizing c with
  | zero => exact (BitVec.ushiftRight_zero c).symm
  | succ n ih =>
    have hlow : ∀ i < n, (c >>> 1).getLsbD i = false := fun i hi => by
      rw [BitVec.getLsbD_ushiftRight]
      exact h (1 + i) (by omega)
    rw [iterate, crc16Shift_of_even (h 0 (by omega)), ih _ hlow, ← BitVec.shiftRight_add, Nat.add_comm]

/-! ## The CRC steps -/

theorem crc8Step_self (c : BitVec 8) : crc8Step c c = 0#8 := by
  rw [crc8Step, BitVec.xor_self]
  exact iterate_fixed crc8Shift_zero 8

theorem crc16Step_self (x : Byte) : crc16Step (x.setWidth 16) x = 0#16 := by
  rw [crc16Step, BitVec.xor_self]
  exact iterate_fixed crc16Shift_zero 8

theorem crc16Step_xor (a b : BitVec 16) (x y : Byte) :
    crc16Step (a ^^^ b) (x ^^^ y) = crc16Step a x ^^^ crc16Step b y := by
  rw [crc16Step, crc16Step, crc16Step, ← iterate_xor crc16Shift_xor, BitVec.setWidth_xor]
  congr 1
  ac_rfl

/-- The low byte of the running value clears that byte, so the step only moves the high byte down. -/
theorem crc16Step_low (c : BitVec 16) : crc16Step c (c.extractLsb' 0 8) = (c.extractLsb' 8 8).setWidth 16 := by
  have hlow : ∀ i < 8, (c ^^^ (c.extractLsb' 0 8).setWidth 16).getLsbD i = false := fun i hi => by
    simp [hi, show i < 16 by omega]
  rw [crc16Step, iterate_crc16Shift_of_low_zero 8 _ hlow]
  ext i hi
  have hhigh : c.getLsbD (8 + i) = true → i < 8 := fun h => by
    have := BitVec.lt_of_getLsbD h
    omega
  simpa using hhigh

theorem crc16Step_pair (c : BitVec 16) :
    crc16Step (crc16Step c (c.extractLsb' 0 8)) (c.extractLsb' 8 8) = 0#16 := by
  rw [crc16Step_low, crc16Step_self]

/-- By linearity the two inverted bytes add the residue of `0xFF 0xFF` to that of the plain pair. -/
theorem crc16Step_notPair (c : BitVec 16) :
    crc16Step (crc16Step c (c.extractLsb' 0 8 ^^^ 0xFF#8)) (c.extractLsb' 8 8 ^^^ 0xFF#8) = 0xB001#16 := by
  have hones : crc16Step (crc16Step 0#16 0xFF#8) 0xFF#8 = 0xB001#16 := by decide +kernel
  have hfirst : crc16Step c (c.extractLsb' 0 8 ^^^ 0xFF#8) =
      crc16Step c (c.extractLsb' 0 8) ^^^ crc16Step 0#16 0xFF#8 := by
    rw [← crc16Step_xor, BitVec.xor_zero]
  rw [hfirst, crc16Step_xor, crc16Step_pair, hones, BitVec.zero_xor]

/-! ## The CRC functions -/

theorem crc8_append (d e : List Byte) : crc8 (d ++ e) d.length = crc8 d d.length := by
  simp [crc8]

theorem crc16_append (d e : List Byte) : crc16 (d ++ e) d.length = crc16 d d.length := by
  simp [crc16]

theorem crc8_concat (d : List Byte) (x : Byte) :
    crc8 (d ++ [x]) (d.length + 1) = crc8Step (crc8 d d.length) x := by
  simp [crc8, List.take_length_add_append]

theorem crc16_concat (d : List Byte) (x : Byte) :
    crc16 (d ++ [x]) (d.length + 1) = crc16Step (crc16 d d.length) x := by
  simp [crc16, List.take_length_add_append]

theorem crc16_concat_pair (d : List Byte) (x y : Byte) :
    crc16 (d ++ [x, y]) (d.length + 2) = crc16Step (crc16Step (crc16 d d.length) x) y := by
  simp [crc16, List.take_length_add_append]

theorem crc8_zeros (n : Nat) : crc8 (List.replicate n 0#8) n = 0#8 := by
  induction n with
  | zero => rfl
  | succ n ih =>
    have h := crc8_concat (List.replicate n 0#8) 0#8
    rwa [List.length_replicate, ih, crc8Step_self, ← List.replicate_succ'] at h

theorem crc16_zeros (n : Nat) : crc16 (List.replicate n 0#8) n = 0#16 := by
  induction n with
  | zero => rfl
  | succ n ih =>
    have h := crc16_concat (List.replicate n 0#8) 0#8
    rw [List.length_replicate, ih, ← List.replicate_succ'] at h
    exact h.trans (crc16Step_self 0#8)

/-- Complementing the CRC complements each of its bytes, an XOR with `0xFF` (rule R74). -/
theorem invertedPair_eq (d : List Byte) (n : Nat) :
    invertedPair d n = ((crc16 d n).extractLsb' 0 8 ^^^ 0xFF#8, (crc16 d n).extractLsb' 8 8 ^^^ 0xFF#8) := by
  rw [invertedPair, ← BitVec.xor_allOnes, BitVec.extractLsb'_xor, BitVec.extractLsb'_xor]
  rfl

/-- Settles O25: the counted bytes from the append lemmas, the zeros by induction on their number. -/
theorem crcUsesTheCountedBytesInOrder : Obligations.CrcUsesTheCountedBytesInOrder :=
  ⟨fun d e x => ⟨crc8_append d e, crc16_append d e, crc8_concat d x, crc16_concat d x⟩,
    fun n => ⟨crc8_zeros n, crc16_zeros n⟩⟩

/-- Settles O26: the appended bytes clear the running value. -/
theorem crcOfDataAndItsCrcIsZero : Obligations.CrcOfDataAndItsCrcIsZero := by
  intro d
  rw [crc8_concat, crc16_concat_pair]
  exact ⟨crc8Step_self _, crc16Step_pair _⟩

/-- Settles O27: the plain pair leaves 0, and linearity adds what inverting its bytes contributes. -/
theorem crcOfDataAndInvertedPairIsB001 : Obligations.CrcOfDataAndInvertedPairIsB001 := by
  intro d
  rw [crc16_concat_pair, invertedPair_eq]
  exact crc16Step_notPair _

/-- Settles O28: each worked example is a closed computation on the model. -/
theorem crcWorkedExamples : Obligations.CrcWorkedExamples := by
  unfold Obligations.CrcWorkedExamples
  decide +kernel

end Sys2Proof.Machine

namespace Sys2Proof.Machine

/-! ## How `DISCOVER` ends -/

/-- The byte that says the family, as the identifier's first byte (rule R109, log 10). -/
theorem byteAt_zero_eq_family_iff (id : Vector Byte 8) :
    byteAt id 0 = Config.expectedFamily ↔ id[0] = 0x2D#8 := by
  rw [byteAt_of_lt id 0 (by decide)]
  rfl

/-- `rom_crc_ok` compares the CRC of seven bytes with the eighth (rule R99). -/
theorem romCrcOk_iff (id : Vector Byte 8) : romCrcOk id = true ↔ crc8 id.toList 7 = id[7] := beq_iff_eq

/-- However its run ends, `DISCOVER` adds the events of the run (rule R106). -/
theorem exec_discover_addsEvents {s : State} {r : Except Failure (Vector Byte 8)} {l : Line} {es : List Event}
    (hrun : discoverRun s.line = (r, l)) (htrace : l.trace = es.reverse ++ s.line.trace) :
    ∃ t, exec .discover s = .next t ∧ addsEvents s t es := by
  refine ⟨_, exec_discover_of s r l hrun, ?_⟩
  cases r with
  | error f => exact (settle_withLine (some f) s htrace).1
  | ok id => exact (settle_withLine none { s with romId := id } htrace).1

/-- A `DISCOVER` that found no valid identifier, from its run and the events it emitted (rules R106, R108, R110). -/
theorem exec_discover_error {s : State} {f : Failure} {l : Line} {es : List Event}
    (hrun : discoverRun s.line = (.error f, l)) (htrace : l.trace = es.reverse ++ s.line.trace) :
    ∃ t, exec .discover s = .next t ∧ addsEvents s t es ∧ Reports t (some f) ∧ t.line = l ∧ t.romId = s.romId ∧
      t.dataOut = s.dataOut ∧ HostSideKept s t :=
  ⟨_, exec_discover_of s _ l hrun, settle_withLine (some f) s htrace⟩

/-- What the checks on a complete identifier do to the report and to `ROM_ID` (rules R109, R110, R113). -/
def Judged (id : Vector Byte 8) (s t : State) : Prop :=
  (romCrcOk id = false → Reports t (some .romCrcInvalid) ∧ t.romId = s.romId) ∧
  (romCrcOk id = true → id[0] ≠ 0x2D#8 → Reports t (some .familyMismatch) ∧ t.romId = s.romId) ∧
  (romCrcOk id = true → id[0] = 0x2D#8 → Reports t none ∧ t.romId = id)

/-- A `DISCOVER` that completed its search, from its run and the events it emitted (rules R109, R110). -/
theorem exec_discover_searched {s : State} {id : Vector Byte 8} {l : Line} {es : List Event}
    (hrun : discoverRun s.line = (validateId id, l)) (htrace : l.trace = es.reverse ++ s.line.trace) :
    ∃ t, exec .discover s = .next t ∧ addsEvents s t es ∧ t.line = l ∧ Judged id s t ∧
      t.dataOut = s.dataOut ∧ HostSideKept s t := by
  rcases validateId_cases id with ⟨hcrc, hv⟩ | ⟨hcrc, hfam, hv⟩ | ⟨hcrc, hfam, hv⟩ <;> rw [hv] at hrun
  · obtain ⟨t, hexec, hadds, hrep, hline, hrom, hframe⟩ := exec_discover_error hrun htrace
    exact ⟨t, hexec, hadds, hline, by simp [Judged, hcrc, hrep, hrom], hframe⟩
  · rw [Ne, byteAt_zero_eq_family_iff] at hfam
    obtain ⟨t, hexec, hadds, hrep, hline, hrom, hframe⟩ := exec_discover_error hrun htrace
    exact ⟨t, hexec, hadds, hline, by simp [Judged, hcrc, hfam, hrep, hrom], hframe⟩
  · rw [byteAt_zero_eq_family_iff] at hfam
    obtain ⟨hadds, hrep, hline, -, hframe⟩ := settle_withLine none { s with romId := id } htrace
    exact ⟨_, exec_discover_of s _ l hrun, hadds, hline,
      by simp [Judged, hcrc, hfam, discoverEnd_ok, hrep], hframe⟩

/-! ## `DISCOVER` on scripted answers -/

/-- The line at the start of the search, after a `reset()` with `k` waits that saw presence and the byte `0xF0`
(rules R105, R106). -/
def searchStart (k : Nat) (l : Line) (rest : List Bool) : Line :=
  { drv := false, trace := (resetEvents k false ++ byteWriteSlots 0xF0#8).reverse ++ l.trace, answers := rest }

/-- A `DISCOVER` whose `reset()` saw presence is decided by its search (rule R106). -/
theorem discoverRun_present {k : Nat} (hk : k ≤ 125) {l l' : Line} {q : Except Failure (Vector Byte 8)}
    (hd : l.drv = false) {rest : List Bool} (h : l.answers = List.replicate k false ++ true :: false :: rest)
    (hs : searchLoop 64 0 (Vector.replicate 8 0) (searchStart k l rest) = (q, l')) :
    discoverRun l = (q.bind validateId, l') := by
  refine discoverRun_searched l _ l' q (reset_scripted k hk false l hd rest h) ?_
  rw [← hs, writeByte_eq, searchStart]
  simp [searchRomByte]

/-- Settles O29: the complete search returns the identifier, and the checks judge it. -/
theorem searchOfOneDevice : Obligations.SearchOfOneDevice := by
  intro s id rest hd h
  have hs := searchLoop_complete (idBits id 64) (Vector.replicate 8 0)
    (searchStart 0 s.line (searchAnswers (idBits id 64) ++ rest)) rest rfl rfl
  rw [idBits_length, orIdBits_idBits] at hs
  have hrun : discoverRun s.line = (validateId id, _) :=
    discoverRun_present (by decide) hd (by simpa [presenceAnswers] using h) hs
  obtain ⟨t, hexec, hadds, hline, ⟨hbad, hother, hfound⟩, hframe⟩ := exec_discover_searched hrun
    (es := resetEvents 0 false ++ byteWriteSlots 0xF0#8 ++ (idBits id 64).flatMap searchIteration)
    (by simp [searchStart])
  exact ⟨t, hexec, hadds, by rw [hline], by rw [hline], hbad, hother, hfound, hframe⟩

/-- Settles O30: the search goes through its completed iterations and stops in the next one. -/
theorem searchEndsAtTheFirstEqualPair : Obligations.SearchEndsAtTheFirstEqualPair := by
  intro s found v rest hlen hd h
  have hs := searchLoop_equalPair found v (63 - found.length) (Vector.replicate 8 0)
    (searchStart 0 s.line (searchAnswers found ++ v :: v :: rest)) rest rfl rfl
  rw [show found.length + (63 - found.length + 1) = 64 by omega] at hs
  have hrun := discoverRun_present (by decide) hd (by simpa [presenceAnswers] using h) hs
  obtain ⟨t, hexec, hadds, hrep, hline, hrom, hframe⟩ := exec_discover_error hrun
    (es := resetEvents 0 false ++ byteWriteSlots 0xF0#8 ++ found.flatMap searchIteration ++ readSlot v ++ readSlot v)
    (by simp [searchStart])
  exact ⟨t, hexec, hadds, hrep, hrom, by rw [hline], by rw [hline], hframe⟩

/-- Settles O31, by the three scripted ways its `reset()` can go. -/
theorem discoverAfterItsReset : Obligations.DiscoverAfterItsReset := by
  refine fun s k rest hk hd => ⟨fun h => ?timeout, fun h => ?absent, fun h => ?present⟩
  case timeout =>
    obtain ⟨t, hexec, hadds, hrep, hline, hrom, -⟩ :=
      exec_discover_error (discoverRun_failed s.line _ _ (reset_scripted_low s.line rest h)) rfl
    exact ⟨t, hexec, hadds, hrep, hrom, by rw [hline]⟩
  case absent =>
    obtain ⟨t, hexec, hadds, hrep, hline, hrom, -⟩ :=
      exec_discover_error (discoverRun_failed s.line _ _ (reset_scripted k hk true s.line hd rest h)) rfl
    exact ⟨t, hexec, hadds, hrep, hrom, by rw [hline]⟩
  case present =>
    obtain ⟨es, -, htrace, -⟩ := LineRun.searchLoop 64 0 (Vector.replicate 8 0) (searchStart k s.line rest)
    obtain ⟨t, hexec, hadds⟩ := exec_discover_addsEvents (discoverRun_present hk hd h Prod.mk.eta.symm)
      (es := resetEvents k false ++ byteWriteSlots 0xF0#8 ++ es) (by rw [htrace]; simp [searchStart])
    exact ⟨t, es, hexec, hadds⟩

/-! ## `DISCOVER` on any samples -/

/-- Bits in whole bytes are the bits of bytes (rule R43). -/
theorem exists_bytes_of_length (n : Nat) (bs : List Bool) (h : bs.length = 8 * n) :
    ∃ vs : List Byte, vs.length = n ∧ vs.flatMap bitsLsbFirst = bs := by
  induction n generalizing bs with
  | zero => exact ⟨[], rfl, (List.length_eq_zero_iff.mp h).symm⟩
  | succ n ih =>
    obtain ⟨vs, hlen, hvs⟩ := ih (bs.drop 8) (by rw [List.length_drop]; omega)
    have hbyte := bitsLsbFirst_orBits_of_length (bs.take 8) (by rw [List.length_take]; omega)
    exact ⟨orBits 0 0x00#8 (bs.take 8) :: vs, by simp [hlen], by
      rw [List.flatMap_cons, hbyte, hvs, List.take_append_drop]⟩

/-- 64 bits are the bits of an identifier (rule R41). -/
theorem exists_idBits_eq (bs : List Bool) (h : bs.length = 64) : ∃ id : Vector Byte 8, idBits id 64 = bs := by
  obtain ⟨vs, hlen, hvs⟩ := exists_bytes_of_length 8 bs h
  obtain ⟨id, rfl⟩ := toList_of_length8 vs hlen
  exact ⟨id, by rw [idBits_all, hvs]⟩

/-- Settles O32, by the ways a `reset()` can go and, after presence, the ways a search can end. -/
theorem discoverFollowsItsRules : Obligations.DiscoverFollowsItsRules := by
  intro s
  rcases reset_cases s.line with ⟨k, p, hk, hcause, -, htrace⟩ | ⟨hcause, -, htrace⟩
  case inr =>
    obtain ⟨t, hexec, hadds, hrep, -, hrom, hframe⟩ :=
      exec_discover_error (discoverRun_failed s.line _ _ (Prod.ext hcause rfl)) htrace
    exact ⟨t, _, hexec, hadds, .inl ⟨rfl, hrep, hrom⟩, hframe⟩
  cases p with
  | true =>
    obtain ⟨t, hexec, hadds, hrep, -, hrom, hframe⟩ :=
      exec_discover_error (discoverRun_failed s.line _ _ (Prod.ext hcause rfl)) htrace
    exact ⟨t, _, hexec, hadds, .inr (.inl ⟨k, hk, rfl, hrep, hrom⟩), hframe⟩
  | false =>
    rcases discoverRun_cases s.line with ⟨f, hf, -⟩ | ⟨-, found, ⟨hlen, hrun⟩ | ⟨hlen, v, hrun⟩⟩
    · cases hcause.symm.trans hf
    · obtain ⟨id, rfl⟩ := exists_idBits_eq found hlen
      rw [orIdBits_idBits] at hrun
      obtain ⟨t, hexec, hadds, -, ⟨hbad, hother, hfound⟩, hframe⟩ := exec_discover_searched hrun
        (es := resetEvents k false ++ byteWriteSlots 0xF0#8 ++ (idBits id 64).flatMap searchIteration)
        (by rw [htrace]; simp [searchRomByte])
      rw [romCrcOk_iff] at hother hfound
      exact ⟨t, _, hexec, hadds, .inr (.inr (.inr ⟨k, id, hk, rfl,
        fun h => hbad (Bool.eq_false_iff.mpr (mt (romCrcOk_iff id).mp h)), hother, hfound⟩)), hframe⟩
    · obtain ⟨t, hexec, hadds, hrep, -, hrom, hframe⟩ := exec_discover_error hrun
        (es := resetEvents k false ++ byteWriteSlots 0xF0#8 ++ found.flatMap searchIteration ++ readSlot v
          ++ readSlot v) (by rw [htrace]; simp [searchRomByte])
      exact ⟨t, _, hexec, hadds, .inr (.inr (.inl ⟨k, found, v, hk, hlen, rfl, hrep, hrom⟩)), hframe⟩

/-! ## How many slots `DISCOVER` makes -/

/-- The slots of `DISCOVER` after its `reset()`: the byte `0xF0`, the completed iterations, and the bits sampled in an
iteration that was not completed (rules R105, R107). -/
def discoverSlots (found unfinished : List Bool) : List Slot :=
  (bitsLsbFirst 0xF0#8).map .write ++ found.flatMap (fun v => [.read v, .read (!v), .write v]) ++ unfinished.map .read

theorem events_discoverSlots (found unfinished : List Bool) : (discoverSlots found unfinished).flatMap Slot.events
    = byteWriteSlots 0xF0#8 ++ found.flatMap searchIteration ++ unfinished.flatMap readSlot := by
  simp [discoverSlots, byteWriteSlots_eq_events, List.flatMap_append, List.flatMap_map, List.flatMap_assoc,
    funext searchIteration_eq_events]

theorem countP_isWrite_discoverSlots (found unfinished : List Bool) :
    (discoverSlots found unfinished).countP Slot.isWrite = 8 + found.length := by
  simp [discoverSlots, List.countP_flatMap, List.countP_cons, Function.comp_def, Slot.isWrite]

theorem countP_isRead_discoverSlots (found unfinished : List Bool) :
    (discoverSlots found unfinished).countP Slot.isRead = 2 * found.length + unfinished.length := by
  simp [discoverSlots, List.countP_flatMap, List.countP_cons, Function.comp_def, Slot.isRead]
  omega

/-- Each slot drives the line low once (rules R83, R84). -/
theorem count_drive0_slots (slots : List Slot) :
    (slots.flatMap Slot.events).count .drive0 = slots.countP Slot.isWrite + slots.countP Slot.isRead := by
  induction slots with
  | nil => rfl
  | cons c slots ih =>
    rw [List.flatMap_cons, List.count_append, ih]
    cases c <;> simp [List.countP_cons, Slot.isWrite, Slot.isRead, writeSlot, readSlot] <;> omega

/-- The float-high wait never drives the line (rule R82). -/
theorem count_drive0_lowWaits (k : Nat) : (lowWaits k).count .drive0 = 0 := by
  induction k with
  | zero => rfl
  | succ k ih => rw [lowWaits_succ, List.count_append, ih]; rfl

/-- A `reset()` makes at most one pulse (rule R82). -/
theorem IsResetTrace.count_drive0_le {r : List Event} (h : IsResetTrace r) : r.count .drive0 ≤ 1 := by
  rcases h with rfl | ⟨k, p, -, rfl⟩
  · simp [timeoutEvents, count_drive0_lowWaits]
  · simp [resetEvents, count_drive0_lowWaits]

/-- Settles O33: each of the four ways of O32 is a reset trace and the slots it names. -/
theorem discoverSlotBound : Obligations.DiscoverSlotBound := by
  intro s
  obtain ⟨t, es, hexec, hadds, hways, -⟩ := discoverFollowsItsRules s
  have hslots : ∃ (r : List Event) (slots : List Slot), es = r ++ slots.flatMap Slot.events ∧ IsResetTrace r ∧
      slots.countP Slot.isWrite ≤ 72 ∧ slots.countP Slot.isRead ≤ 128 := by
    rcases hways with ⟨rfl, -⟩ | ⟨k, hk, rfl, -⟩ | ⟨k, found, v, hk, hlen, rfl, -⟩ | ⟨k, id, hk, rfl, -⟩
    · exact ⟨_, [], (List.append_nil _).symm, .inl rfl, by simp⟩
    · exact ⟨_, [], (List.append_nil _).symm, .inr ⟨k, true, hk, rfl⟩, by simp⟩
    · refine ⟨_, discoverSlots found [v, v], ?_, .inr ⟨k, false, hk, rfl⟩, ?_, ?_⟩
      · simp [events_discoverSlots]
      · rw [countP_isWrite_discoverSlots]; omega
      · rw [countP_isRead_discoverSlots, List.length_cons, List.length_singleton]; omega
    · refine ⟨_, discoverSlots (idBits id 64) [], ?_, .inr ⟨k, false, hk, rfl⟩, ?_, ?_⟩
      · simp [events_discoverSlots]
      · rw [countP_isWrite_discoverSlots, idBits_length]
      · rw [countP_isRead_discoverSlots, idBits_length]; rfl
  obtain ⟨r, slots, rfl, hr, hwrites, hreads⟩ := hslots
  have hpulse := hr.count_drive0_le
  refine ⟨t, r, slots, hexec, hadds, hr, hpulse, hwrites, hreads, ?_⟩
  rw [List.count_append, count_drive0_slots]
  omega

/-! ## The decision moves of the discovery sequencer -/

section
variable {s : State}

theorem tick_dZero (hq : s.seq = Seq.atCmd .dZero) :
    tick s = goCmd .dReset { s with tr := { s.tr with acc := Vector.replicate 8 0, b := 0 } } := by
  rw [tick_atCmd hq]
  simp only [cmdTick, hq]

theorem tick_dDecide_error (hq : s.seq = Seq.atCmd .dDecide) {f : Failure}
    (h : searchDecide s.tr.idBit s.tr.cmpBit = .error f) : tick s = settle (some f) s := by
  rw [tick_atCmd hq]
  simp only [cmdTick, hq, h]

theorem tick_dDecide_ok (hq : s.seq = Seq.atCmd .dDecide) {v : Bool}
    (h : searchDecide s.tr.idBit s.tr.cmpBit = .ok v) :
    tick s = goCmd .dEcho { s with tr := { s.tr with acc := orIdBit s.tr.acc s.tr.b.toNat v } } := by
  rw [tick_atCmd hq]
  simp only [cmdTick, hq, h]

end

/-- Two equal bits end the search (rule R108). -/
theorem searchDecide_self (v : Bool) : searchDecide v v = .error (if v then .noPresence else .busCollision) := by
  cases v <;> rfl

/-- Of two different bits the first is the bit found (rule R108). -/
theorem searchDecide_of_ne {v c : Bool} (h : v ≠ c) : searchDecide v c = .ok v := by
  obtain rfl := Bool.eq_not.mpr h.symm
  cases v <;> rfl

/-- A move that ends the command with a failure: it reports, and keeps `ROM_ID` and the line (rules R110, R144). -/
theorem tick_settle_some {s : State} {f : Failure} (h : tick s = settle (some f) s) :
    Reports (tick s) (some f) ∧ (tick s).romId = s.romId ∧ (tick s).line = s.line := by
  rw [h]
  exact ⟨reports_settle _ _, settle_romId _ _, settle_line _ _⟩

/-- Settles O58, one move after the other. -/
theorem discoveryDecisionMoves : Obligations.DiscoveryDecisionMoves := by
  intro s hsel hbyte hbit
  have hat {q : CmdSeq} (hq : s.seq.cmd = q) : s.seq = Seq.atCmd q := by rw [← hq, Seq.atCmd, ← hsel, ← hbyte, ← hbit]
  refine ⟨fun hq => ?zero, fun hq he => ?equal, fun hq hne => ?found, fun hq hcrc => ?crcOk, fun hq hcrc => ?crcBad,
    fun hq hfam => ?famOk, fun hq hfam => ?famBad⟩
  case zero => rw [tick_dZero (hat hq)]; exact ⟨rfl, rfl, rfl, rfl⟩
  case equal =>
    exact tick_settle_some (tick_dDecide_error (hat hq) (by rw [← he, searchDecide_self]))
  case found => rw [tick_dDecide_ok (hat hq) (searchDecide_of_ne hne)]; exact ⟨rfl, rfl, rfl⟩
  case crcOk => rw [tick_dCheckCrc_ok (hat hq) hcrc]; exact ⟨rfl, rfl, rfl⟩
  case crcBad => exact tick_settle_some (tick_dCheckCrc_bad (hat hq) hcrc)
  case famOk =>
    rw [tick_dCheckFam_ok (hat hq) ((byteAt_zero_eq_family_iff _).mpr hfam)]
    exact ⟨reports_settle _ _, settle_romId _ _, settle_line _ _⟩
  case famBad => exact tick_settle_some (tick_dCheckFam_bad (hat hq) (mt (byteAt_zero_eq_family_iff _).mp hfam))

end Sys2Proof.Machine

namespace Sys2Proof.Machine

/-! ## `SELECT` -/

/-- The events a `reset()` adds, whatever its result is (rule R82). -/
theorem reset_addsResetTrace (l : Line) : ∃ r, IsResetTrace r ∧ (reset l).2.trace = r.reverse ++ l.trace := by
  rcases reset_cases l with ⟨k, p, hk, -, -, htrace⟩ | ⟨-, -, htrace⟩
  · exact ⟨_, .inr ⟨k, p, hk, rfl⟩, htrace⟩
  · exact ⟨_, .inl rfl, htrace⟩

/-- The events `select()` adds: those of its `reset()`, whose result it discards, and the select frame (rules R69,
R115). -/
theorem selectDevice_addsFrame (romId : Vector Byte 8) (l : Line) :
    ∃ r, IsResetTrace r ∧ (selectDevice romId l).trace = (r ++ selectBytes romId).reverse ++ l.trace := by
  obtain ⟨r, hr, htrace⟩ := reset_addsResetTrace l
  refine ⟨r, hr, ?_⟩
  rw [selectDevice_eq, htrace, List.reverse_append, List.append_assoc]

/-- Settles O34: `SELECT` is `select()` on the line, and an end without a failure. -/
theorem selectAddressesTheStoredIdentifier : Obligations.SelectAddressesTheStoredIdentifier := by
  intro s
  obtain ⟨r, hr, htrace⟩ := selectDevice_addsFrame s.romId s.line
  obtain ⟨hadds, hrep, hline, hframe⟩ := settle_withLine none s htrace
  rw [selectBytes, ← List.append_assoc] at hadds
  exact ⟨_, r, rfl, hadds, hr, hrep, by rw [hline, selectDevice_drv], hframe⟩

end Sys2Proof.Machine

namespace Sys2Proof.Machine

/-! ## `READ_ROW` on any samples -/

/-- Settles O37: whatever its `reset()` did, the run is the read-memory frame, and the command ends without a failure. -/
theorem readRowNeverFails : Obligations.ReadRowNeverFails := by
  intro s row hr
  obtain ⟨v, hrun⟩ := readRowRun_cases s.romId row s.line
  obtain ⟨r, hreset, htrace⟩ := reset_addsResetTrace s.line
  refine ⟨_, r, exec_readRow_of s row v _ hr hrun, hreset, addsEvents_of_trace ?_, reports_settle none _, rfl, rfl,
    rfl, rfl, rfl, rfl⟩
  rw [settle_line, settle_dataOut, htrace]
  simp [readRowEvents, readMemoryByte]

/-! ## What `WRITE_ROW` stages, compares and reads back -/

/-- Settles O39: the buffer byte by byte, and the payload as its eight bytes. -/
theorem stagedBufferBytes : Obligations.StagedBufferBytes := by
  intro row payload buf
  rw [stageBuffer_eq, toList8]
  rfl

/-- The comparison of rule R100 accepts exactly the inverted pair of rule R74. -/
theorem crc16PairOk_iff (data : List Byte) (n : Nat) (a b : Byte) :
    crc16PairOk data n a b = true ↔ (a, b) = invertedPair data n := by
  simp [crc16PairOk, Prod.ext_iff]

/-- `NEEDS_VERIFY` is the wrong pair (rule R124). -/
theorem not_crc16PairOk_iff (data : List Byte) (n : Nat) (a b : Byte) :
    (!crc16PairOk data n a b) = true ↔ (a, b) ≠ invertedPair data n := by
  rw [Bool.not_eq_true', ← Bool.not_eq_true, crc16PairOk_iff]

section
variable {nv : Bool} {buf : Vector Byte 12} {a0 a1 es k0 k1 : Byte} {ds : Vector Byte 8}

/-- A wrong status byte ends Phase 2 (rule R126). -/
theorem phase2Result_of_badStatus (h : es ≠ esFullRow) :
    phase2Result nv buf a0 a1 es ds k0 k1 = .error .scratchpadStatusInvalid := if_pos h

/-- A wrong read-back pair ends Phase 2 (rule R127). -/
theorem phase2Result_of_badPair
    (h : (k0, k1) ≠ invertedPair ([readScratchpadByte, a0, a1, esFullRow] ++ ds.toList) 12) :
    phase2Result true buf a0 a1 esFullRow ds k0 k1 = .error .payloadCrcInvalid := by
  rw [phase2Result, if_neg (not_not_intro rfl), if_pos rfl, if_neg (mt (crc16PairOk_iff _ _ _ _).mp h)]

/-- A right read-back pair passes Phase 2 (rule R127). -/
theorem phase2Result_of_pair (h : (k0, k1) = invertedPair ([readScratchpadByte, a0, a1, esFullRow] ++ ds.toList) 12) :
    ∃ buf', phase2Result true buf a0 a1 esFullRow ds k0 k1 = .ok buf' :=
  ⟨_, by rw [phase2Result, if_neg (not_not_intro rfl), if_pos rfl, if_pos ((crc16PairOk_iff _ _ _ _).mpr h)]⟩

/-- The two ways Phase 2 can fail (rules R126, R127). -/
theorem phase2Result_error {f : Failure} (h : phase2Result nv buf a0 a1 es ds k0 k1 = .error f) :
    (es ≠ esFullRow ∧ f = .scratchpadStatusInvalid) ∨ (es = esFullRow ∧ nv = true ∧
      (k0, k1) ≠ invertedPair ([readScratchpadByte, a0, a1, es] ++ ds.toList) 12 ∧ f = .payloadCrcInvalid) := by
  by_cases hes : es = esFullRow
  case neg =>
    rw [phase2Result_of_badStatus hes] at h
    exact .inl ⟨hes, (Except.error.inj h).symm⟩
  subst hes
  cases nv with
  | false => cases h
  | true =>
    by_cases hk : (k0, k1) = invertedPair ([readScratchpadByte, a0, a1, esFullRow] ++ ds.toList) 12
    · obtain ⟨buf', hok⟩ := phase2Result_of_pair (buf := buf) hk
      cases h.symm.trans hok
    · rw [phase2Result_of_badPair hk] at h
      exact .inr ⟨rfl, rfl, hk, (Except.error.inj h).symm⟩

/-- A verify that passed had the right pair (rule R127). -/
theorem pair_of_phase2Result_ok {buf' : Vector Byte 12}
    (h : phase2Result true buf a0 a1 esFullRow ds k0 k1 = .ok buf') :
    (k0, k1) = invertedPair ([readScratchpadByte, a0, a1, esFullRow] ++ ds.toList) 12 := by
  by_contra hk
  cases h.symm.trans (phase2Result_of_badPair hk)

/-- After a wrong status byte nothing more is read (rule R126). -/
theorem phase2Bytes_of_badStatus (h : es ≠ esFullRow) : phase2Bytes nv a0 a1 es ds k0 k1 = [a0, a1, es] :=
  if_neg fun hes => h hes.1

/-- Without the verify Phase 2 reads three bytes (rules R72, R127). -/
theorem phase2Bytes_unverified : phase2Bytes false a0 a1 es ds k0 k1 = [a0, a1, es] := if_neg fun h => nomatch h.2

/-- With the verify Phase 2 reads the payload and its pair too (rules R72, R127). -/
theorem phase2Bytes_verified :
    phase2Bytes true a0 a1 esFullRow ds k0 k1 = [a0, a1, esFullRow] ++ ds.toList ++ [k0, k1] := if_pos ⟨rfl, rfl⟩

end

/-- `WRITE_ROW` as a whole, from the outcome of its phases and the events they emitted (rules R122, R131). -/
theorem exec_writeRow_withLine {s : State} {row : Nat} {cause : Option Failure} {l : Line} {es : List Event}
    (hr : row < 16) (hrun : writeRowRun row s = (cause, l)) (htrace : l.trace = es.reverse ++ s.line.trace) :
    ∃ t, exec (.writeRow row) s = .next t ∧ addsEvents s t es ∧ Reports t cause ∧ t.line = l ∧ t.romId = s.romId ∧
      t.dataOut = s.dataOut ∧ HostSideKept s t :=
  ⟨_, exec_writeRow_of s row cause l hr hrun, settle_withLine cause s htrace⟩

/-! ## `WRITE_ROW` on scripted answers -/

/-- Settles O40: Phase 2 ends the write, with three bytes read. -/
theorem writeRowFailsOnABadStatusByte : Obligations.WriteRowFailsOnABadStatusByte := by
  intro s row p1 p2 c0 c1 a0 a1 es rest hr hes hd h
  have hrun := writeRowRun_scripted_failed row s p1 p2 _ c0 c1 a0 a1 es 0 0 (Vector.replicate 8 0) rest _ rfl
    (phase2Result_of_badStatus hes) hd (by rw [phase2Bytes_of_badStatus hes]; simpa using h)
  rw [phase2Bytes_of_badStatus hes] at hrun
  obtain ⟨t, hexec, hadds, hrep, hline, hframe⟩ := exec_writeRow_withLine hr hrun rfl
  exact ⟨t, hexec, hadds, hrep, by rw [hline], by rw [hline], hframe⟩

/-- Settles O41: the right Phase 1 pair asks for no verify, so the commit byte decides. -/
theorem writeRowWithoutVerify : Obligations.WriteRowWithoutVerify := by
  intro s row p1 p2 p3 a0 a1 ack rest hr hd h
  have hverify : false = !crc16PairOk (stagedBytes row s.payload) 11 (invertedPair (stagedBytes row s.payload) 11).1
      (invertedPair (stagedBytes row s.payload) 11).2 := by rw [crc16PairOk_invertedPair]; rfl
  have hrun := writeRowRun_scripted_passed row s p1 p2 p3 false _ _ a0 a1 esFullRow 0 0 ack (Vector.replicate 8 0) rest _
    hverify rfl hd (by rw [phase2Bytes_unverified]; simpa [byteAnswers, esFullRow] using h)
  rw [phase2Bytes_unverified] at hrun
  obtain ⟨t, hexec, hadds, hrep, hline, hframe⟩ := exec_writeRow_withLine hr hrun rfl
  exact ⟨t, hexec, hadds, hrep, by rw [hline], by rw [hline], hframe⟩

/-- Settles O42: the wrong Phase 1 pair asks for the verify, and the read-back pair decides whether there is a Phase 3. -/
theorem writeRowWithVerify : Obligations.WriteRowWithVerify := by
  intro s row p1 p2 c0 c1 a0 a1 k0 k1 ds rest hr hc hd h
  have hverify := ((not_crc16PairOk_iff _ _ _ _).mpr hc).symm
  refine ⟨fun hk => ?badPair, fun hk p3 ack rest' hrest => ?rightPair⟩
  case badPair =>
    have hrun := writeRowRun_scripted_failed row s p1 p2 true c0 c1 a0 a1 esFullRow k0 k1 ds rest _ hverify
      (phase2Result_of_badPair hk) hd (by rw [phase2Bytes_verified]; simpa [esFullRow] using h)
    rw [phase2Bytes_verified] at hrun
    obtain ⟨t, hexec, hadds, hrep, hline, hframe⟩ := exec_writeRow_withLine hr hrun rfl
    exact ⟨t, hexec, hadds, hrep, by rw [hline], hframe⟩
  case rightPair =>
    subst hrest
    obtain ⟨buf, hbuf⟩ := phase2Result_of_pair (buf := stageBuffer row s.payload s.tr.buf) hk
    have hrun := writeRowRun_scripted_passed row s p1 p2 p3 true c0 c1 a0 a1 esFullRow k0 k1 ack ds rest' buf hverify
      hbuf hd (by rw [phase2Bytes_verified]; simpa [byteAnswers, esFullRow] using h)
    rw [phase2Bytes_verified] at hrun
    obtain ⟨t, hexec, hadds, hrep, hline, hframe⟩ := exec_writeRow_withLine hr hrun rfl
    exact ⟨t, hexec, hadds, hrep, by rw [hline], hframe⟩

/-! ## `WRITE_ROW` on any samples -/

/-- A phase adds its `reset()`, whose result it ignores, and its frame to what the phases before it emitted (rules R115,
R122). -/
theorem trace_of_phase {l l' : Line} {start before es : List Event} (hbefore : l.trace = before.reverse ++ start)
    (hphase : l'.trace = es.reverse ++ (reset l).2.trace) :
    ∃ r, IsResetTrace r ∧ l'.trace = (before ++ r ++ es).reverse ++ start := by
  obtain ⟨r, hr, htrace⟩ := reset_addsResetTrace l
  refine ⟨r, hr, ?_⟩
  rw [hphase, htrace, hbefore]
  simp

/-- Settles O43, by the two ways Phase 2 can fail and, when it passes, by whether it verified. -/
theorem writeRowFollowsItsThreePhases : Obligations.WriteRowFollowsItsThreePhases := by
  intro s row hr
  obtain ⟨c0, c1, a0, a1, es, k0, k1, ds, l1, l2, -, hl1, hl2, hend⟩ := writeRowRun_cases row s
  have hverify := not_crc16PairOk_iff (stagedBytes row s.payload) 11 c0 c1
  generalize (!crc16PairOk (stagedBytes row s.payload) 11 c0 c1) = nv at hl2 hend hverify
  obtain ⟨r1, hr1, htrace1⟩ := trace_of_phase (before := []) rfl (congrArg Line.trace hl1)
  obtain ⟨r2, hr2, htrace2⟩ := trace_of_phase htrace1 (congrArg Line.trace hl2)
  have hdrv2 : l2.drv = false := by rw [hl2]
  rcases hend with ⟨f, hfail, hrun⟩ | ⟨rfl, ⟨buf, hok⟩, ack, hrun⟩
  · obtain ⟨t, hexec, hadds, hrep, hline, hframe⟩ := exec_writeRow_withLine hr hrun htrace2
    refine ⟨t, r1, r2, r2, c0, c1, a0, a1, es, k0, k1, 0, ds, hexec, hr1, hr2, hr2, ?_, by rw [hline, hdrv2], hframe⟩
    rcases phase2Result_error hfail with ⟨hes, rfl⟩ | ⟨rfl, rfl, hk, rfl⟩
    · rw [phase2Bytes_of_badStatus hes] at hadds
      exact .inl ⟨hes, hrep, hadds⟩
    · rw [phase2Bytes_verified] at hadds
      exact .inr (.inl ⟨rfl, hverify.mp rfl, hk, hrep, hadds⟩)
  · obtain ⟨r3, hr3, htrace3⟩ := trace_of_phase htrace2 (l' := (writeRowRun row s).2) (by rw [hrun])
    obtain ⟨t, hexec, hadds, hrep, hline, hframe⟩ := exec_writeRow_withLine hr hrun (by rwa [hrun] at htrace3)
    refine ⟨t, r1, r2, r3, c0, c1, a0, a1, esFullRow, k0, k1, ack, ds, hexec, hr1, hr2, hr3, ?_, by rw [hline], hframe⟩
    cases nv with
    | false =>
      rw [phase2Bytes_unverified] at hadds
      exact .inr (.inr (.inl ⟨rfl, not_not.mp (mt hverify.mpr Bool.false_ne_true), hrep, hadds⟩))
    | true =>
      rw [phase2Bytes_verified] at hadds
      exact .inr (.inr (.inr ⟨rfl, hverify.mp rfl, pair_of_phase2Result_ok hok, hrep, hadds⟩))

end Sys2Proof.Machine

namespace Sys2Proof.Machine

/-! ## Which command fails in which way -/

theorem reports_raise (f : Failure) (s : State) : Reports (raise f s) (some f) := ⟨rfl, rfl, rfl, rfl⟩

/-- Settles O13: `raise` writes the four registers of the report and no other. -/
theorem raiseWritesTheReportAndNothingElse : Obligations.RaiseWritesTheReportAndNothingElse := by
  refine ⟨fun f s => ⟨reports_raise f s, ?_, raise_line s f, raise_romId s f, raise_dataOut s f, raise_tr s f,
    raise_payload s f, raise_dataIn s f, raise_inputs s f, raise_readLog s f⟩,
    rfl, rfl, rfl, rfl, rfl, rfl, rfl, rfl, rfl⟩
  rw [State.events, raise_line, State.events]

/-- A failure's code is not that of success (rule R140). -/
theorem Failure.code_ne_zero (f : Failure) : f.code ≠ 0x0#4 := by cases f <;> decide

/-- Two accounts of one command are of the same next state. -/
theorem exec_next_unique {i : Instr} {s t u : State} (h : exec i s = .next t) (h' : exec i s = .next u) : t = u :=
  Host.Outcome.next.inj (h.symm.trans h')

/-- `WRITE_ROW` runs only for a row that a command word encodes (rule R55). -/
theorem row_lt_of_exec_writeRow {row : Nat} {s t : State} (h : exec (.writeRow row) s = .next t) : row < 16 := by
  by_contra hr
  cases h.symm.trans (exec_writeRow_refused s hr)

/-- `READ_ROW` runs only for a row that a command word encodes (rule R55). -/
theorem row_lt_of_exec_readRow {row : Nat} {s t : State} (h : exec (.readRow row) s = .next t) : row < 16 := by
  by_contra hr
  cases h.symm.trans (exec_readRow_refused s hr)

/-- The report of a command that succeeded, or failed in a way that rule R149 lists for it. -/
def ReportsOwn (i : Instr) (t : State) : Prop :=
  ∃ cause : Option Failure, Reports t cause ∧ ∀ f, cause = some f → f.code ∈ failureCodes i

theorem ReportsOwn.of_none {i : Instr} {t : State} (h : Reports t none) : ReportsOwn i t := ⟨none, h, nofun⟩

theorem ReportsOwn.of_some {i : Instr} {t : State} {f : Failure} (h : Reports t (some f))
    (hf : f.code ∈ failureCodes i) : ReportsOwn i t :=
  ⟨some f, h, fun _ he => Option.some.inj he ▸ hf⟩

/-- The commit byte decides between success and CommitFailed (rule R130). -/
theorem ReportsOwn.of_commit {t : State} {ack : Byte} {row : Nat}
    (h : Reports t (if ack = 0xAA#8 then none else some .commitFailed)) : ReportsOwn (.writeRow row) t := by
  split at h
  · exact .of_none h
  · exact .of_some h (by simp [failureCodes, Failure.code])

/-- `OW_RESET` fails on a stuck line or without presence (rule R85). -/
theorem reportsOwn_owReset {s t : State} (h : exec .owReset s = .next t) : ReportsOwn .owReset t := by
  obtain ⟨u, es, hexec, -, hways, -⟩ := owResetFollowsItsRule s
  obtain rfl := exec_next_unique h hexec
  rcases hways with ⟨-, hrep, -⟩ | ⟨k, p, -, -, hrep, -⟩
  · exact .of_some hrep (by decide)
  · cases p with
    | false => exact .of_none hrep
    | true => exact .of_some hrep (by decide)

/-- `DISCOVER` fails in its reset, in an iteration with two equal bits, or in one of its two checks (rules R106, R108,
R109). -/
theorem reportsOwn_discover {s t : State} (h : exec .discover s = .next t) : ReportsOwn .discover t := by
  obtain ⟨u, es, hexec, -, hways, -⟩ := discoverFollowsItsRules s
  obtain rfl := exec_next_unique h hexec
  rcases hways with ⟨-, hrep, -⟩ | ⟨k, -, -, hrep, -⟩ | ⟨k, found, v, -, -, -, hrep, -⟩ |
    ⟨k, id, -, -, hbad, hother, hfound⟩
  · exact .of_some hrep (by decide)
  · exact .of_some hrep (by decide)
  · exact .of_some hrep (by cases v <;> decide)
  · by_cases hcrc : crc8 id.toList 7 = id[7]
    · by_cases hfam : id[0] = 0x2D#8
      · exact .of_none (hfound hcrc hfam).1
      · exact .of_some (hother hcrc hfam).1 (by decide)
    · exact .of_some (hbad hcrc).1 (by decide)

/-- `WRITE_ROW` fails on the status byte, the read-back pair or the commit byte (rules R126, R127, R130). -/
theorem reportsOwn_writeRow {s t : State} {row : Nat} (h : exec (.writeRow row) s = .next t) :
    ReportsOwn (.writeRow row) t := by
  obtain ⟨u, r1, r2, r3, c0, c1, a0, a1, es, k0, k1, ack, ds, hexec, -, -, -, hways, -⟩ :=
    writeRowFollowsItsThreePhases s row (row_lt_of_exec_writeRow h)
  obtain rfl := exec_next_unique h hexec
  rcases hways with ⟨-, hrep, -⟩ | ⟨-, -, -, hrep, -⟩ | ⟨-, -, hrep, -⟩ | ⟨-, -, -, hrep, -⟩
  · exact .of_some hrep (by simp [failureCodes, Failure.code])
  · exact .of_some hrep (by simp [failureCodes, Failure.code])
  · exact .of_commit hrep
  · exact .of_commit hrep

/-- Every host command ends with success or with a failure of its own (rules R18, R149). -/
theorem exec_reportsOwn {i : Instr} {s t : State} (hi : i.layer = .host) (h : exec i s = .next t) :
    ReportsOwn i t := by
  cases i with
  | owReset => exact reportsOwn_owReset h
  | discover => exact reportsOwn_discover h
  | writeRow row => exact reportsOwn_writeRow h
  | owWriteBit | owReadBit | owWriteByte | owReadByte | select =>
    obtain rfl := Host.Outcome.next.inj h
    exact .of_none (reports_settle none _)
  | readRow row =>
    obtain ⟨u, r, hexec, -, -, hrep, -⟩ := readRowNeverFails s row (row_lt_of_exec_readRow h)
    obtain rfl := exec_next_unique h hexec
    exact .of_none hrep
  | illegal0 | illegalAB | illegalCF =>
    obtain rfl := Host.Outcome.next.inj h
    exact .of_some (reports_raise .illegalCommand s) (by simp [failureCodes, Failure.code])
  | searchRom | matchRom | readMemory | writeScratchpad | readScratchpad | copy => cases hi

/-- Settles O46: the report of a command that succeeded or of one that failed in a way of its own. -/
theorem commandsRaiseOnlyTheirFailures : Obligations.CommandsRaiseOnlyTheirFailures := by
  intro i s t hi h
  obtain ⟨cause, ⟨hok, herr, hbusy, hseq⟩, hown⟩ := exec_reportsOwn hi h
  cases cause with
  | none => exact ⟨hbusy, hseq, fun _ => herr, fun hfail => absurd (hok.symm.trans hfail) nofun⟩
  | some f =>
    rw [show t.err = f.code from herr]
    exact ⟨hbusy, hseq, fun htrue => absurd (hok.symm.trans htrue) nofun, fun _ => ⟨hown f rfl, f.code_ne_zero⟩⟩

/-- Settles O47: the frame of a command, in which `ROM_ID` and `DATA_OUT` are written by success alone: the commands
that write `DATA_OUT` have no failure of their own. -/
theorem failureKeepsTheDataRegisters : Obligations.FailureKeepsTheDataRegisters := by
  intro i s t hi h hfail
  obtain ⟨⟨hpayload, hdataIn, -⟩, hrom, hout, hadds, -, hdrv⟩ := commandFrame i s t h
  obtain ⟨-, -, -, hcode⟩ := commandsRaiseOnlyTheirFailures i s t hi h
  have hcode := (hcode hfail).1
  refine ⟨?rom, hpayload, hdataIn, ?out, hdrv, hadds⟩
  case rom =>
    rcases hrom with hkept | ⟨-, hok⟩
    · exact hkept
    · cases hfail.symm.trans hok
  case out =>
    rcases hout with hkept | rfl | rfl | ⟨row, rfl⟩
    · exact hkept
    all_goals exact absurd hcode List.not_mem_nil

/-! ## An idle block -/

/-- Settles O9: with no input the step is the block's own move, and an idle sequencer has none. -/
theorem idleBlockStaysAsItIs : Obligations.IdleBlockStaysAsItIs := fun s h hbusy hinputs => by
  rw [step_nil hinputs, tick_idle s (h.seq_idle hbusy)]

end Sys2Proof.Machine

namespace Sys2Proof.Machine

/-! ## How many events, and which delays -/

/-- At most `n` events, and no delay among them but those of rule R161. -/
def Permitted (n : Nat) (es : List Event) : Prop := es.length ≤ n ∧ ∀ e ∈ es, e.requested = true

namespace Permitted

variable {m n : Nat} {es fs : List Event}

theorem nil : Permitted 0 [] := ⟨Nat.le_refl 0, nofun⟩

theorem mono (h : Permitted m es) (hmn : m ≤ n) : Permitted n es := ⟨h.1.trans hmn, h.2⟩

theorem append (h : Permitted m es) (g : Permitted n fs) : Permitted (m + n) (es ++ fs) :=
  ⟨List.length_append ▸ Nat.add_le_add h.1 g.1, List.forall_mem_append.mpr ⟨h.2, g.2⟩⟩

theorem flatMap {α : Type} {f : α → List Event} (h : ∀ a, Permitted n (f a)) (as : List α) :
    Permitted (n * as.length) (as.flatMap f) := by
  induction as with
  | nil => exact nil
  | cons a as ih => exact ((h a).append ih).mono (by rw [List.length_cons, Nat.mul_succ, Nat.add_comm])

theorem writeSlot (b : Bool) : Permitted 4 (writeSlot b) := by
  cases b <;> exact ⟨Nat.le_refl 4, by simp [Machine.writeSlot, writeLowUs, writeRelUs, Event.requested]⟩

theorem readSlot (v : Bool) : Permitted 5 (readSlot v) :=
  ⟨Nat.le_refl 5, by simp [Machine.readSlot, readLowUs, readWaitUs, Event.requested]⟩

theorem byteWriteSlots (v : Byte) : Permitted 32 (byteWriteSlots v) := flatMap writeSlot (bitsLsbFirst v)

theorem byteReadSlots (v : Byte) : Permitted 40 (byteReadSlots v) := flatMap readSlot (bitsLsbFirst v)

theorem searchIteration (v : Bool) : Permitted 14 (searchIteration v) :=
  ((readSlot v).append (readSlot (!v))).append (writeSlot v)

theorem lowWaits (k : Nat) : Permitted (2 * k) (lowWaits k) := by
  induction k with
  | zero => exact nil
  | succ k ih =>
    have hwait : Permitted 2 [.sample false, .delayUs rstRetryUs] :=
      ⟨Nat.le_refl 2, by simp [rstRetryUs, Event.requested]⟩
    rw [lowWaits_succ]
    exact (hwait.append ih).mono (by rw [Nat.mul_succ, Nat.add_comm])

/-- A `reset()` emits at most 257 events (rule R82). -/
theorem resetTrace (h : IsResetTrace es) : Permitted 257 es := by
  rcases h with rfl | ⟨k, p, hk, rfl⟩
  · exact ((lowWaits rstRetryN).append ⟨Nat.le_refl 1, by simp [Event.requested]⟩).mono (by decide)
  · have hpulse : Permitted 7 [.sample true, .drive0, .delayUs rstLowUs, .release, .delayUs Config.tPds, .sample p,
        .delayUs rstRecUs] := ⟨Nat.le_refl 7, by simp [rstLowUs, rstRecUs, Event.requested]⟩
    have hk : k ≤ 125 := hk
    exact ((lowWaits k).append hpulse).mono (by omega)

theorem selectBytes (romId : Vector Byte 8) : Permitted 288 (selectBytes romId) :=
  ((byteWriteSlots matchRomByte).append (flatMap byteWriteSlots romId.toList)).mono (by simp)

theorem phase1Events (romId payload : Vector Byte 8) (row : Nat) (c0 c1 : Byte) :
    Permitted 720 (phase1Events romId (stagedBytes row payload) c0 c1) :=
  ((((selectBytes romId).append (flatMap byteWriteSlots (stagedBytes row payload))).append (byteReadSlots c0)).append
    (byteReadSlots c1)).mono (by simp [stagedBytes])

theorem phase2Events (romId : Vector Byte 8) {bs : List Byte} (h : bs.length ≤ 13) :
    Permitted 840 (phase2Events romId bs) :=
  (((selectBytes romId).append (byteWriteSlots readScratchpadByte)).append (flatMap byteReadSlots bs)).mono (by omega)

theorem phase3Events (romId : Vector Byte 8) (a0 a1 es ack : Byte) : Permitted 457 (phase3Events romId a0 a1 es ack) :=
  have hprog : Permitted 1 [.delayMs progMs] := ⟨Nat.le_refl 1, by simp [progMs, Event.requested]⟩
  ((((((selectBytes romId).append (byteWriteSlots Config.cmdCopy)).append (byteWriteSlots a0)).append
    (byteWriteSlots a1)).append (byteWriteSlots es)).append hprog).append (byteReadSlots ack)

end Permitted

/-- From `s` to `t`: at most 2788 events more, and only delays of rule R161. -/
def AddsPermitted (s t : State) : Prop := ∃ es, addsEvents s t es ∧ Permitted 2788 es

/-- The longest path of `DISCOVER`: a reset of 257 events, the search byte, 64 iterations (rules R105 to R108). -/
theorem exec_discover_addsPermitted {s t : State} (h : exec .discover s = .next t) : AddsPermitted s t := by
  obtain ⟨u, es, hexec, hadds, hways, -⟩ := discoverFollowsItsRules s
  obtain rfl := exec_next_unique h hexec
  refine ⟨es, hadds, ?_⟩
  have hsearch (k : Nat) (hk : k ≤ 125) (found : List Bool) :=
    ((Permitted.resetTrace (.inr ⟨k, false, hk, rfl⟩)).append (.byteWriteSlots 0xF0#8)).append
      (.flatMap Permitted.searchIteration found)
  rcases hways with ⟨rfl, -⟩ | ⟨k, hk, rfl, -⟩ | ⟨k, found, v, hk, hlen, rfl, -⟩ | ⟨k, id, hk, rfl, -⟩
  · exact (Permitted.resetTrace (.inl rfl)).mono (by decide)
  · exact (Permitted.resetTrace (.inr ⟨k, true, hk, rfl⟩)).mono (by decide)
  · exact (((hsearch k hk found).append (.readSlot v)).append (.readSlot v)).mono (by omega)
  · exact (hsearch k hk (idBits id 64)).mono (by rw [idBits_length]; decide)

/-- The longest path of `WRITE_ROW`, which is the longest of all: three resets and the three phases (rule R165). -/
theorem exec_writeRow_addsPermitted {s t : State} {row : Nat} (h : exec (.writeRow row) s = .next t) :
    AddsPermitted s t := by
  obtain ⟨u, r1, r2, r3, c0, c1, a0, a1, es, k0, k1, ack, ds, hexec, hr1, hr2, hr3, hways, -⟩ :=
    writeRowFollowsItsThreePhases s row (row_lt_of_exec_writeRow h)
  obtain rfl := exec_next_unique h hexec
  have hphase12 (bs : List Byte) (hbs : bs.length ≤ 13) :=
    ((((Permitted.resetTrace hr1).append (.phase1Events s.romId s.payload row c0 c1)).append (.resetTrace hr2)).append
      (.phase2Events s.romId hbs))
  have hphase3 (bs : List Byte) (hbs : bs.length ≤ 13) :=
    ((hphase12 bs hbs).append (.resetTrace hr3)).append (.phase3Events s.romId a0 a1 es ack)
  rcases hways with ⟨-, -, hadds⟩ | ⟨-, -, -, -, hadds⟩ | ⟨-, -, -, hadds⟩ | ⟨-, -, -, -, hadds⟩
  · exact ⟨_, hadds, (hphase12 _ (by simp)).mono (by decide)⟩
  · exact ⟨_, hadds, (hphase12 _ (by simp)).mono (by decide)⟩
  · exact ⟨_, hadds, hphase3 _ (by simp)⟩
  · exact ⟨_, hadds, hphase3 _ (by simp)⟩

/-- No instruction emits more events than 2788, or asks for another delay (rules R161, R165). -/
theorem exec_addsPermitted {i : Instr} {s t : State} (h : exec i s = .next t) : AddsPermitted s t := by
  cases i with
  | owReset =>
    obtain ⟨u, es, hexec, hadds, hways, -⟩ := owResetFollowsItsRule s
    obtain rfl := exec_next_unique h hexec
    have hreset : IsResetTrace es := hways.imp (fun ⟨hes, _⟩ => hes) fun ⟨k, p, hk, hes, _⟩ => ⟨k, p, hk, hes⟩
    exact ⟨es, hadds, (Permitted.resetTrace hreset).mono (by decide)⟩
  | owWriteBit b =>
    obtain rfl := Host.Outcome.next.inj h
    exact ⟨_, addsEvents_of_trace (congrArg Line.trace (writeBit_eq b s.line)),
      (Permitted.writeSlot b).mono (by decide)⟩
  | owReadBit =>
    obtain rfl := Host.Outcome.next.inj h
    exact ⟨_, addsEvents_of_trace (congrArg Line.trace (readBit_line s.line)), (Permitted.readSlot _).mono (by decide)⟩
  | owWriteByte =>
    obtain rfl := Host.Outcome.next.inj h
    exact ⟨_, addsEvents_of_trace (congrArg Line.trace (writeByte_eq s.dataIn s.line)),
      (Permitted.byteWriteSlots _).mono (by decide)⟩
  | owReadByte =>
    obtain rfl := Host.Outcome.next.inj h
    exact ⟨_, addsEvents_of_trace (congrArg Line.trace (readByte_line s.line)),
      (Permitted.byteReadSlots _).mono (by decide)⟩
  | discover => exact exec_discover_addsPermitted h
  | select =>
    obtain rfl := Host.Outcome.next.inj h
    obtain ⟨r, hr, htrace⟩ := selectDevice_addsFrame s.romId s.line
    exact ⟨_, addsEvents_of_trace htrace, ((Permitted.resetTrace hr).append (.selectBytes s.romId)).mono (by decide)⟩
  | readRow row =>
    obtain ⟨u, r, hexec, hr, hadds, -⟩ := readRowNeverFails s row (row_lt_of_exec_readRow h)
    obtain rfl := exec_next_unique h hexec
    exact ⟨_, hadds, ((((((Permitted.resetTrace hr).append (.selectBytes s.romId)).append (.byteWriteSlots _)).append
      (.byteWriteSlots _)).append (.byteWriteSlots _)).append (.byteReadSlots _)).mono (by decide)⟩
  | writeRow row => exact exec_writeRow_addsPermitted h
  | illegal0 | illegalAB | illegalCF =>
    obtain rfl := Host.Outcome.next.inj h
    exact ⟨[], addsEvents_of_trace rfl, Permitted.nil.mono (by decide)⟩
  | searchRom | matchRom | readMemory | writeScratchpad | readScratchpad | copy =>
    obtain rfl := Host.Outcome.next.inj h
    exact ⟨_, addsEvents_sendBusByte _ s, (Permitted.byteWriteSlots _).mono (by decide)⟩

/-- The bit engine emits one event a move, a delay of rule R161 if it is one (rules R82 to R84). -/
theorem BitSeq.lineAfter_permitted (q : BitSeq) (l : Line) :
    ∃ e : Event, e.requested = true ∧ (q.lineAfter l).trace = e :: l.trace := by
  cases q with
  | waitSample | rstPresence | rbSample => exact ⟨_, rfl, congrArg Line.trace (sample_line l)⟩
  | waitDelay | rstLowDelay | rstPdsDelay | rstRecover | rbLowDelay | rbWaitDelay =>
    exact ⟨_, by simp [Event.requested, rstRetryUs, rstLowUs, rstRecUs, readLowUs, readWaitUs], rfl⟩
  | wbLowDelay b | wbRelDelay b => exact ⟨_, by cases b <;> simp [Event.requested, writeLowUs, writeRelUs], rfl⟩
  | rstDrive | rstRelease | wbDrive b | wbRelease b | rbDrive | rbRelease => exact ⟨_, rfl, rfl⟩

/-- One move of the block emits at most one event. -/
theorem tick_addsPermitted (s : State) : AddsPermitted s (tick s) := by
  have hone {e : Event} (he : e.requested = true) (htrace : (tick s).line.trace = e :: s.line.trace) :
      AddsPermitted s (tick s) :=
    ⟨[e], addsEvents_of_trace htrace, by simp, by simpa using he⟩
  rcases tick_line s with hl | ⟨q, -, hl⟩ | ⟨-, hl⟩
  · exact ⟨[], addsEvents_of_trace (by rw [hl]; rfl), Permitted.nil.mono (by decide)⟩
  · obtain ⟨e, he, htrace⟩ := q.lineAfter_permitted s.line
    exact hone he (by rw [hl, htrace])
  · exact hone (e := .delayMs progMs) rfl (by rw [hl]; rfl)

theorem step_hardwareReset {s : State} {rest : List Input} (hi : s.inputs = .hardwareReset :: rest) :
    step s = .next (hardwareReset { s with inputs := rest }) := by rw [step, hi]

/-- What a step can do to the trace: an instruction, a move of the block, or nothing. -/
theorem step_trace_cases {s t : State} (h : step s = .next t) :
    (∃ c rest, exec (decodeWord c) { s with inputs := rest } = .next t) ∨
    (∃ rest, t = tick { s with inputs := rest }) ∨ t.line.trace = s.line.trace := by
  rcases hi : s.inputs with _ | ⟨input, rest⟩
  · exact .inr (.inl ⟨s.inputs, (Host.Outcome.next.inj ((step_nil hi).symm.trans h)).symm⟩)
  have hnext {u : State} (hu : step s = .next u) : t = u := Host.Outcome.next.inj (h.symm.trans hu)
  cases input with
  | command c =>
    by_cases hbusy : s.busy = true
    · exact .inr (.inr (by rw [hnext (step_command_busy hi hbusy)]))
    · exact .inl ⟨c, rest, (step_command_idle hi (eq_false_of_ne_true hbusy)).symm.trans h⟩
  | write reg v => exact .inr (.inr (by rw [hnext (step_write hi), writeReg_line]))
  | read reg => exact .inr (.inr (by rw [hnext (step_read hi), hostRead_line]))
  | wait =>
    by_cases hbusy : s.busy = true
    · exact .inr (.inl ⟨s.inputs, hnext (step_wait_busy hi hbusy)⟩)
    · exact .inr (.inr (by rw [hnext (step_wait_idle hi (eq_false_of_ne_true hbusy))]))
  | tick => exact .inr (.inl ⟨rest, hnext (step_tick hi)⟩)
  | hardwareReset => exact .inr (.inr (by rw [hnext (step_hardwareReset hi), hardwareReset_line]))

theorem step_addsPermitted {s t : State} (h : step s = .next t) : AddsPermitted s t := by
  rcases step_trace_cases h with ⟨c, rest, hexec⟩ | ⟨rest, rfl⟩ | htrace
  · have hadds := exec_addsPermitted hexec
    exact hadds
  · exact tick_addsPermitted { s with inputs := rest }
  · exact ⟨[], addsEvents_of_trace htrace, Permitted.nil.mono (by decide)⟩

/-- Settles O53: a step is an instruction or one move of the block, and each asks for delays of rule R161 only. -/
theorem onlyListedDelaysAreRequested : Obligations.OnlyListedDelaysAreRequested := fun _ _ h =>
  let ⟨es, hadds, _, hreq⟩ := step_addsPermitted h
  ⟨es, hadds, hreq⟩

/-- Settles O54: the longest path is that of `WRITE_ROW`. -/
theorem everyStepEmitsBoundedEvents : Obligations.EveryStepEmitsBoundedEvents := fun _ _ h =>
  let ⟨es, hadds, hlen, _⟩ := step_addsPermitted h
  ⟨es, hadds, hlen⟩

end Sys2Proof.Machine

namespace Sys2Proof.Machine

/-! ## Real time and nominal time -/

section
variable {es fs : List Event} {ts : List Nat} {a b m n : Nat}

theorem TimeWithin.nil : TimeWithin 0 0 [] := ⟨Nat.zero_le _, Nat.zero_le _⟩

/-- The deviations of an event and of the events after it add up. -/
theorem TimeWithin.cons {t : Nat} (h : TimeWithin a m [t]) (g : TimeWithin b n ts) :
    TimeWithin (a + b) (n + m) (t :: ts) := by
  obtain ⟨hle, hge⟩ := h
  obtain ⟨gle, gge⟩ := g
  rw [List.sum_singleton] at hle hge
  rw [TimeWithin, List.sum_cons, Nat.mul_add]
  omega

/-- An event may deviate by one `JITTER_US` if it is a delay, and else not at all (rules R161, R175). -/
theorem Event.admits.timeWithin {e : Event} {t : Nat} (h : e.admits t) :
    TimeWithin e.us (if e.isDelay = true then 1 else 0) [t] := by
  unfold Event.admits at h
  unfold TimeWithin
  cases e <;> simpa [Event.isDelay, Event.us] using h

/-- The real time of any events is within one `JITTER_US` for each delay among them (rules R161, R175). -/
theorem timeWithin_of_admits (h : List.Forall₂ Event.admits es ts) :
    TimeWithin (duration es) (es.countP Event.isDelay) ts := by
  induction h with
  | nil => exact .nil
  | cons he _ ih =>
    rw [List.countP_cons]
    exact he.timeWithin.cons ih

/-- One delay among the events is a lower bound of their real time, but for one `JITTER_US`. -/
theorem us_le_of_mem {e : Event} (hdelay : e.isDelay = true) (h : List.Forall₂ Event.admits es ts) (he : e ∈ es) :
    e.us ≤ ts.sum + Config.jitterUs := by
  induction h with
  | nil => cases he
  | @cons e' t es ts hadm _ ih =>
    rw [List.sum_cons]
    rcases List.mem_cons.mp he with rfl | htail
    · rw [Event.admits, if_pos hdelay] at hadm
      omega
    · have := ih htail
      omega

/-! ## The nominal durations and the delays of the bus operations -/

/-- Events of a nominal duration of `a` µs (rule R177), with `n` delays among them. -/
def Takes (a n : Nat) (es : List Event) : Prop := duration es = a ∧ es.countP Event.isDelay = n

theorem Takes.append (h : Takes a m es) (g : Takes b n fs) : Takes (a + b) (m + n) (es ++ fs) :=
  ⟨by rw [duration_append, h.1, g.1], by rw [List.countP_append, h.2, g.2]⟩

theorem Takes.timeWithin (h : Takes a n es) (hadm : List.Forall₂ Event.admits es ts) : TimeWithin a n ts := by
  obtain ⟨rfl, rfl⟩ := h
  exact timeWithin_of_admits hadm

theorem takes_writeSlot (b : Bool) : Takes (if b then 65 else 70) 2 (writeSlot b) := by
  cases b <;> exact ⟨rfl, rfl⟩

theorem takes_readSlot (v : Bool) : Takes 53 2 (readSlot v) := ⟨duration_readSlot v, rfl⟩

/-- A write slot is 5 µs shorter for a bit that is 1 (rule R83). -/
theorem takes_writeSlots (bs : List Bool) :
    Takes (70 * bs.length - 5 * bs.count true) (2 * bs.length) (bs.flatMap writeSlot) := by
  induction bs with
  | nil => exact ⟨rfl, rfl⟩
  | cons b bs ih =>
    obtain ⟨hduration, hdelays⟩ := (takes_writeSlot b).append ih
    have hcount := bs.count_le_length (a := true)
    rw [List.flatMap_cons, Takes, hduration, hdelays, List.length_cons, List.count_cons]
    cases b with
    | false => simp only [Bool.false_eq_true, if_false, beq_iff_eq]; omega
    | true => simp only [if_true, beq_self_eq_true]; omega

theorem takes_byteWriteSlots (v : Byte) : Takes (560 - 5 * (bitsLsbFirst v).count true) 16 (byteWriteSlots v) :=
  takes_writeSlots (bitsLsbFirst v)

theorem takes_readSlots (bs : List Bool) : Takes (53 * bs.length) (2 * bs.length) (bs.flatMap readSlot) := by
  induction bs with
  | nil => exact ⟨rfl, rfl⟩
  | cons v bs ih =>
    rw [List.flatMap_cons, List.length_cons, Nat.mul_succ, Nat.mul_succ, Nat.add_comm _ 53, Nat.add_comm _ 2]
    exact (takes_readSlot v).append ih

theorem takes_byteReadSlots (v : Byte) : Takes 424 16 (byteReadSlots v) := takes_readSlots (bitsLsbFirst v)

theorem takes_lowWaits (k : Nat) : Takes (2 * k) k (lowWaits k) := by
  refine ⟨duration_lowWaits k, ?_⟩
  induction k with
  | zero => rfl
  | succ k ih => rw [lowWaits_succ, List.countP_append, ih, Nat.add_comm]; rfl

/-- A `reset()` with its pulse asks for three delays and one for each wait (rule R82). -/
theorem takes_resetEvents (k : Nat) (p : Bool) : Takes (960 + Config.tPds + 2 * k) (k + 3) (resetEvents k p) := by
  have hpulse : Takes (960 + Config.tPds) 3 [.sample true, .drive0, .delayUs rstLowUs, .release, .delayUs Config.tPds,
      .sample p, .delayUs rstRecUs] := ⟨duration_presencePulse Config.tPds p, rfl⟩
  rw [Nat.add_comm (960 + Config.tPds)]
  exact (takes_lowWaits k).append hpulse

theorem takes_timeoutEvents : Takes 250 125 timeoutEvents := (takes_lowWaits 125).append ⟨rfl, rfl⟩

end

/-! ## The real time of the commands -/

/-- The events a command adds, from any account of the command. -/
theorem addsEvents_unique {i : Instr} {s t u : State} {es fs : List Event} (h : exec i s = .next t)
    (hadds : addsEvents s t es) (hexec : exec i s = .next u) (hfs : addsEvents s u fs) : es = fs := by
  obtain rfl := exec_next_unique h hexec
  exact List.append_cancel_left (hadds.symm.trans hfs)

section
variable {s t : State} {es : List Event} (hadds : addsEvents s t es)
include hadds

theorem takes_of_exec_owWriteBit {b : Bool} (h : exec (.owWriteBit b) s = .next t) :
    Takes (if b then 65 else 70) 2 es := by
  obtain rfl := addsEvents_unique h hadds rfl (addsEvents_of_trace (congrArg Line.trace (writeBit_eq b s.line)))
  exact takes_writeSlot b

theorem takes_of_exec_owReadBit (h : exec .owReadBit s = .next t) : Takes 53 2 es := by
  obtain rfl := addsEvents_unique h hadds rfl (addsEvents_of_trace (congrArg Line.trace (readBit_line s.line)))
  exact takes_readSlot _

theorem takes_of_exec_owWriteByte (h : exec .owWriteByte s = .next t) :
    Takes (560 - 5 * (bitsLsbFirst s.dataIn).count true) 16 es := by
  obtain rfl := addsEvents_unique h hadds rfl
    (addsEvents_of_trace (congrArg Line.trace (writeByte_eq s.dataIn s.line)))
  exact takes_byteWriteSlots s.dataIn

theorem takes_of_exec_owReadByte (h : exec .owReadByte s = .next t) : Takes 424 16 es := by
  obtain rfl := addsEvents_unique h hadds rfl (addsEvents_of_trace (congrArg Line.trace (readByte_line s.line)))
  exact takes_byteReadSlots _

/-- `OW_RESET` reports BusTimeout exactly when its `reset()` ran out of waits (rule R85). -/
theorem takes_of_exec_owReset (h : exec .owReset s = .next t) :
    (t.err = 0x1#4 ∧ Takes 250 125 es) ∨
    (t.err ≠ 0x1#4 ∧ ∃ k, k ≤ 125 ∧ Takes (960 + Config.tPds + 2 * k) (k + 3) es) := by
  obtain ⟨u, fs, hexec, hfs, hways, -⟩ := owResetFollowsItsRule s
  obtain rfl := addsEvents_unique h hadds hexec hfs
  obtain rfl := exec_next_unique h hexec
  rcases hways with ⟨rfl, ⟨-, herr, -⟩, -⟩ | ⟨k, p, hk, rfl, ⟨-, herr, -⟩, -⟩
  · exact .inl ⟨herr, takes_timeoutEvents⟩
  · exact .inr ⟨by rw [herr]; cases p <;> decide, k, hk, takes_resetEvents k p⟩

/-- A `WRITE_ROW` that succeeds has waited for the programming (rule R129). -/
theorem delayMs_mem_of_exec_writeRow {row : Nat} (h : exec (.writeRow row) s = .next t) (hok : t.ok = true) :
    Event.delayMs progMs ∈ es := by
  obtain ⟨u, r1, r2, r3, c0, c1, a0, a1, st, k0, k1, ack, ds, hexec, -, -, -, hways, -⟩ :=
    writeRowFollowsItsThreePhases s row (row_lt_of_exec_writeRow h)
  have hevents {fs : List Event} (hfs : addsEvents s u fs) : es = fs := addsEvents_unique h hadds hexec hfs
  obtain rfl := exec_next_unique h hexec
  have hwait : Event.delayMs progMs ∈ phase3Events s.romId a0 a1 st ack := by simp [phase3Events]
  rcases hways with ⟨-, ⟨hfail, -⟩, -⟩ | ⟨-, -, -, ⟨hfail, -⟩, -⟩ | ⟨-, -, -, hfs⟩ | ⟨-, -, -, -, hfs⟩
  · cases hok.symm.trans hfail
  · cases hok.symm.trans hfail
  · exact hevents hfs ▸ List.mem_append_right _ hwait
  · exact hevents hfs ▸ List.mem_append_right _ hwait

end

/-- Settles O24: the events of any command, and what those of each command take. -/
theorem realTimeStaysWithinTheJitterOfItsDelays : Obligations.RealTimeStaysWithinTheJitterOfItsDelays := by
  intro s t es ts hadds hadm
  refine ⟨fun _ _ => timeWithin_of_admits hadm,
    fun b h => (takes_of_exec_owWriteBit hadds h).timeWithin hadm,
    fun h => (takes_of_exec_owReadBit hadds h).timeWithin hadm,
    fun h => (takes_of_exec_owWriteByte hadds h).timeWithin hadm,
    fun h => (takes_of_exec_owReadByte hadds h).timeWithin hadm,
    fun h => ?reset,
    fun row h hok => us_le_of_mem rfl hadm (delayMs_mem_of_exec_writeRow hadds h hok)⟩
  case reset =>
    rcases takes_of_exec_owReset hadds h with ⟨herr, htakes⟩ | ⟨herr, k, hk, htakes⟩
    · rw [if_pos herr]
      exact htakes.timeWithin hadm
    · rw [if_neg herr]
      exact ⟨k, hk, htakes.timeWithin hadm⟩

end Sys2Proof.Machine

namespace Sys2Proof.Machine

/-! ## A hardware reset as an input -/

theorem hardwareReset_events (s : State) : (hardwareReset s).events = s.events := by
  rw [State.events, hardwareReset_line, State.events]

/-- Settles O12: the step is `hardwareReset`, whose fields `Laws/State` gives one by one. -/
theorem hardwareResetRestoresRegisters : Obligations.HardwareResetRestoresRegisters := by
  intro s rest hi
  refine ⟨_, step_hardwareReset hi, hardwareReset_romId _, hardwareReset_payload _, hardwareReset_dataIn _,
    hardwareReset_dataOut _, hardwareReset_ok _, hardwareReset_err _, hardwareReset_busy _, hardwareReset_seq _,
    ?released, hardwareReset_events _, hardwareReset_inputs _, ?answers⟩
  case released => rw [hardwareReset_line]
  case answers => rw [hardwareReset_line]

/-! ## Nominal durations of lists of bytes -/

/-- Each bit that is 1 shortens a written byte by 5 µs (rules R83, R177). -/
theorem duration_byteWriteSlots_add (v : Byte) :
    duration (byteWriteSlots v) + 5 * (bitsLsbFirst v).count true = 560 := by
  have hones : (bitsLsbFirst v).count true ≤ 8 := List.count_le_length
  rw [(takes_byteWriteSlots v).1]
  omega

theorem duration_byteReadSlots (v : Byte) : duration (byteReadSlots v) = 424 := (takes_byteReadSlots v).1

/-- Settles O22: the nominal parts of what O24 says of each operation. -/
theorem busOperationDurations : Obligations.BusOperationDurations :=
  ⟨duration_byteWriteSlots_add, duration_byteReadSlots, fun k p => (takes_resetEvents k p).1, takes_timeoutEvents.1⟩

/-- Each bit that is 1 shortens the bytes written one after another by 5 µs. -/
theorem duration_flatMap_byteWriteSlots_add (vs : List Byte) :
    duration (vs.flatMap byteWriteSlots) + 5 * (vs.flatMap bitsLsbFirst).count true = 560 * vs.length := by
  induction vs with
  | nil => rfl
  | cons v vs ih =>
    have hbyte := duration_byteWriteSlots_add v
    rw [List.flatMap_cons, duration_append, List.flatMap_cons, List.count_append, List.length_cons]
    omega

theorem duration_flatMap_byteReadSlots (vs : List Byte) : duration (vs.flatMap byteReadSlots) = 424 * vs.length := by
  induction vs with
  | nil => rfl
  | cons v vs ih => rw [List.flatMap_cons, duration_append, duration_byteReadSlots, ih, List.length_cons]; omega

/-- A search iteration is two read slots and one write slot (rules R107, R108). -/
theorem duration_flatMap_searchIteration_add (bs : List Bool) :
    duration (bs.flatMap searchIteration) + 5 * bs.count true = 176 * bs.length := by
  induction bs with
  | nil => rfl
  | cons v bs ih =>
    have hslots : duration (searchIteration v) + 5 * [v].count true = 176 := by cases v <;> rfl
    rw [List.flatMap_cons, duration_append, List.length_cons, ← List.singleton_append, List.count_append]
    omega

/-! ## Nominal durations of the frames -/

theorem duration_resetEvents_zero (p : Bool) : duration (resetEvents 0 p) = 960 + Config.tPds :=
  (takes_resetEvents 0 p).1

theorem duration_phase1Events (romId : Vector Byte 8) (staged : List Byte) (c0 c1 : Byte) :
    duration (phase1Events romId staged c0 c1)
      = duration (selectBytes romId) + duration (staged.flatMap byteWriteSlots) + 848 := by
  simp only [phase1Events, duration_append, duration_byteReadSlots]

theorem duration_phase2Events (romId : Vector Byte 8) (bs : List Byte) :
    duration (phase2Events romId bs) = duration (selectBytes romId) + 540 + 424 * bs.length := by
  have hopcode : duration (byteWriteSlots readScratchpadByte) = 540 := rfl
  simp only [phase2Events, duration_append, duration_flatMap_byteReadSlots, hopcode]

/-- The commit phase: its wait and its read take the same for any bytes (rules R73, R129). -/
theorem duration_phase3Events (romId : Vector Byte 8) (a0 a1 es ack : Byte) :
    duration (phase3Events romId a0 a1 es ack)
      = duration (selectBytes romId) + duration (byteWriteSlots Config.cmdCopy) + duration (byteWriteSlots a0)
        + duration (byteWriteSlots a1) + duration (byteWriteSlots es) + 15424 := by
  have hwait : duration [.delayMs progMs] = 15000 := rfl
  simp only [phase3Events, duration_append, duration_byteReadSlots, hwait]

/-! ## The worked identifier and the worked payload -/

/-- 22 of the 72 bits are 1. -/
theorem duration_selectBytes_workedId : duration (selectBytes workedId) = 4930 := by
  have hones : ((matchRomByte :: workedId.toList).flatMap bitsLsbFirst).count true = 22 := by decide
  have hsum := duration_flatMap_byteWriteSlots_add (matchRomByte :: workedId.toList)
  rw [hones, List.flatMap_cons, List.length_cons, Vector.length_toList] at hsum
  rw [selectBytes]
  omega

/-- 19 of the 88 bits are 1. -/
theorem duration_stagedBytes_worked : duration ((stagedBytes 3 workedPayload).flatMap byteWriteSlots) = 6065 := by
  have hones : ((stagedBytes 3 workedPayload).flatMap bitsLsbFirst).count true = 19 := by decide
  have hlength : (stagedBytes 3 workedPayload).length = 11 := rfl
  have hsum := duration_flatMap_byteWriteSlots_add (stagedBytes 3 workedPayload)
  rw [hones, hlength] at hsum
  omega

/-- 18 of the 64 bits are 1. -/
theorem duration_search_workedId : duration ((idBits workedId 64).flatMap searchIteration) = 11174 := by
  have hones : (idBits workedId 64).count true = 18 := by decide
  have hsum := duration_flatMap_searchIteration_add (idBits workedId 64)
  rw [idBits_length, hones] at hsum
  omega

/-- Settles O23: each frame is a sum of the durations above. -/
theorem durationsOfTheWorkedCommands : Obligations.DurationsOfTheWorkedCommands := by
  intro p1 p2 p3 v c0 c1 a0 a1 k0 k1 ack
  have hF0 : duration (byteWriteSlots 0xF0#8) = 540 := rfl
  have h18 : duration (byteWriteSlots 0x18#8) = 550 := rfl
  have h00 : duration (byteWriteSlots 0x00#8) = 560 := rfl
  have h07 : duration (byteWriteSlots 0x07#8) = 545 := rfl
  have htaLo : duration (byteWriteSlots (taLo 3)) = 550 := rfl
  have htaHi : duration (byteWriteSlots (taHi 3)) = 560 := rfl
  have hcopy := duration_byteWriteSlots_add Config.cmdCopy
  simp only [duration_append, duration_resetEvents_zero, duration_phase1Events, duration_phase2Events,
    duration_phase3Events, duration_byteReadSlots, duration_selectBytes_workedId, duration_stagedBytes_worked,
    duration_search_workedId, List.length_append, List.length_cons, List.length_nil, Vector.length_toList,
    hF0, h18, h00, h07, htaLo, htaHi]
  omega

end Sys2Proof.Machine
